-- ==== Sys2Proof/Word.lean ====
section
/-! DEFINITION. The two widths the machine works in (spec R6: data word 8 bits, address width 16 bits). -/

namespace Sys2Proof

/-- A data byte, the spec's `u8` (R8). -/
abbrev Byte := BitVec 8

/-- A 16-bit register pair or address, the spec's `u16` (R8). -/
abbrev Word := BitVec 16

end Sys2Proof
end

