-- ==== Sys2Proof/Syntax.lean ====
section
/-! DEFINITION. The instructions: one constructor of `Instr` for each row of spec/opcode_table.json, in the table's
order (R150 to R152). Register, pair and condition codes are names here; raw encodings end at the decoder. -/

namespace Sys2Proof

/-- The 8-bit register operands of R143 (code 6, the byte at HL, has constructors of its own). -/
inductive Reg8
  | b | c | d | e | h | l | a
  deriving DecidableEq, Repr

/-- The pair code `dd` of R144. -/
inductive Pair
  | bc | de | hl | sp
  deriving DecidableEq, Repr

/-- The pair code `qq` of R145. -/
inductive StackPair
  | bc | de | hl | af
  deriving DecidableEq, Repr

/-- The condition code `cc` of R146 and R350. -/
inductive Cond
  | nz | z | nc | c
  deriving DecidableEq, Repr

/-- One constructor per row of spec/opcode_table.json. `n` is an unsigned byte, `e` a displacement byte read as two's
complement, `nn` a 16-bit immediate, `b` a bit number (R142); `t` is an RST target address (R149). -/
inductive Instr
  /-- NOP (R380). -/
  | nop
  /-- LD dd,nn (R330). -/
  | ldDdNn (dd : Pair) (nn : Word)
  /-- LD (BC),A (R318). -/
  | ldBcA
  /-- LD (DE),A (R319). -/
  | ldDeA
  /-- LD (HL+),A (R328). -/
  | ldHliA
  /-- LD (HL-),A (R329). -/
  | ldHldA
  /-- INC dd (R252). -/
  | incDd (dd : Pair)
  /-- DEC dd (R253). -/
  | decDd (dd : Pair)
  /-- INC r (R234). -/
  | incR (r : Reg8)
  /-- INC (HL) (R235). -/
  | incMemHl
  /-- DEC r (R236). -/
  | decR (r : Reg8)
  /-- DEC (HL) (R237). -/
  | decMemHl
  /-- LD r,n (R312). -/
  | ldRN (r : Reg8) (n : Byte)
  /-- LD (HL),n (R315). -/
  | ldMemHlN (n : Byte)
  /-- RLCA (R271). -/
  | rlca
  /-- RRCA (R272). -/
  | rrca
  /-- RLA (R273). -/
  | rla
  /-- RRA (R274). -/
  | rra
  /-- LD (nn),SP (R331). -/
  | ldNnSp (nn : Word)
  /-- ADD HL,dd (R251). -/
  | addHlDd (dd : Pair)
  /-- LD A,(BC) (R316). -/
  | ldABc
  /-- LD A,(DE) (R317). -/
  | ldADe
  /-- LD A,(HL+) (R326). -/
  | ldAHli
  /-- LD A,(HL-) (R327). -/
  | ldAHld
  /-- STOP (R381). -/
  | stop
  /-- JR e (R354). -/
  | jrE (e : Byte)
  /-- JR cc,e (R355). -/
  | jrCcE (cc : Cond) (e : Byte)
  /-- DAA (R238). -/
  | daa
  /-- CPL (R239). -/
  | cpl
  /-- SCF (R240). -/
  | scf
  /-- CCF (R241). -/
  | ccf
  /-- LD r,r' (destination first) (R311). -/
  | ldRR (r r1 : Reg8)
  /-- LD r,(HL) (R313). -/
  | ldRMemHl (r : Reg8)
  /-- LD (HL),r (R314). -/
  | ldMemHlR (r : Reg8)
  /-- HALT (R382). -/
  | halt
  /-- ADD A,r (R210). -/
  | addAR (r : Reg8)
  /-- ADD A,(HL) (R211). -/
  | addAMemHl
  /-- ADD A,n (R212). -/
  | addAN (n : Byte)
  /-- ADC A,r (R213). -/
  | adcAR (r : Reg8)
  /-- ADC A,(HL) (R214). -/
  | adcAMemHl
  /-- ADC A,n (R215). -/
  | adcAN (n : Byte)
  /-- SUB r (R216). -/
  | subR (r : Reg8)
  /-- SUB (HL) (R217). -/
  | subMemHl
  /-- SUB n (R218). -/
  | subN (n : Byte)
  /-- SBC A,r (R219). -/
  | sbcAR (r : Reg8)
  /-- SBC A,(HL) (R220). -/
  | sbcAMemHl
  /-- SBC A,n (R221). -/
  | sbcAN (n : Byte)
  /-- AND r (R222). -/
  | andR (r : Reg8)
  /-- AND (HL) (R223). -/
  | andMemHl
  /-- AND n (R224). -/
  | andN (n : Byte)
  /-- XOR r (R225). -/
  | xorR (r : Reg8)
  /-- XOR (HL) (R226). -/
  | xorMemHl
  /-- XOR n (R227). -/
  | xorN (n : Byte)
  /-- OR r (R228). -/
  | orR (r : Reg8)
  /-- OR (HL) (R229). -/
  | orMemHl
  /-- OR n (R230). -/
  | orN (n : Byte)
  /-- CP r (R231). -/
  | cpR (r : Reg8)
  /-- CP (HL) (R232). -/
  | cpMemHl
  /-- CP n (R233). -/
  | cpN (n : Byte)
  /-- RET cc (R359). -/
  | retCc (cc : Cond)
  /-- POP qq (R334). -/
  | popQq (qq : StackPair)
  /-- JP cc,nn (R352). -/
  | jpCcNn (cc : Cond) (nn : Word)
  /-- JP nn (R351). -/
  | jpNn (nn : Word)
  /-- CALL cc,nn (R357). -/
  | callCcNn (cc : Cond) (nn : Word)
  /-- PUSH qq (R333). -/
  | pushQq (qq : StackPair)
  /-- RST t, t the target address (R361). -/
  | rstT (t : Byte)
  /-- RET (R358). -/
  | ret
  /-- PREFIX CB: the opcode byte 0xCB on its own, its CB byte not yet fetched (R385). DESIGN CHOICE (log 10). -/
  | prefixCb
  /-- CALL nn (R356). -/
  | callNn (nn : Word)
  /-- RETI (R360). -/
  | reti
  /-- LDH (n),A (R323). -/
  | ldhNA (n : Byte)
  /-- LD (C),A (R325). -/
  | ldCA
  /-- ADD SP,e (R254). -/
  | addSpE (e : Byte)
  /-- JP HL (R353). -/
  | jpHl
  /-- LD (nn),A (R321). -/
  | ldNnA (nn : Word)
  /-- LDH A,(n) (R322). -/
  | ldhAN (n : Byte)
  /-- LD A,(C) (R324). -/
  | ldAC
  /-- DI (R383). -/
  | di
  /-- LD HL,SP+e (R255). -/
  | ldHlSpE (e : Byte)
  /-- LD SP,HL (R332). -/
  | ldSpHl
  /-- LD A,(nn) (R320). -/
  | ldANn (nn : Word)
  /-- EI (R384). -/
  | ei
  /-- the illegal opcode 0xD3 (R386). -/
  | illegalD3
  /-- the illegal opcode 0xDB (R386). -/
  | illegalDB
  /-- the illegal opcode 0xDD (R386). -/
  | illegalDD
  /-- the illegal opcode 0xE3 (R386). -/
  | illegalE3
  /-- the illegal opcode 0xE4 (R386). -/
  | illegalE4
  /-- the illegal opcode 0xEB (R386). -/
  | illegalEB
  /-- the illegal opcode 0xEC (R386). -/
  | illegalEC
  /-- the illegal opcode 0xED (R386). -/
  | illegalED
  /-- the illegal opcode 0xF4 (R386). -/
  | illegalF4
  /-- the illegal opcode 0xFC (R386). -/
  | illegalFC
  /-- the illegal opcode 0xFD (R386). -/
  | illegalFD
  /-- RLC r (R283). -/
  | rlcR (r : Reg8)
  /-- RLC (HL) (R284). -/
  | rlcMemHl
  /-- RRC r (R285). -/
  | rrcR (r : Reg8)
  /-- RRC (HL) (R286). -/
  | rrcMemHl
  /-- RL r (R287). -/
  | rlR (r : Reg8)
  /-- RL (HL) (R288). -/
  | rlMemHl
  /-- RR r (R289). -/
  | rrR (r : Reg8)
  /-- RR (HL) (R290). -/
  | rrMemHl
  /-- SLA r (R291). -/
  | slaR (r : Reg8)
  /-- SLA (HL) (R292). -/
  | slaMemHl
  /-- SRA r (R293). -/
  | sraR (r : Reg8)
  /-- SRA (HL) (R294). -/
  | sraMemHl
  /-- SWAP r (R295). -/
  | swapR (r : Reg8)
  /-- SWAP (HL) (R296). -/
  | swapMemHl
  /-- SRL r (R297). -/
  | srlR (r : Reg8)
  /-- SRL (HL) (R298). -/
  | srlMemHl
  /-- BIT b,r (R299). -/
  | bitBR (b : Nat) (r : Reg8)
  /-- BIT b,(HL) (R300). -/
  | bitBMemHl (b : Nat)
  /-- RES b,r (R301). -/
  | resBR (b : Nat) (r : Reg8)
  /-- RES b,(HL) (R302). -/
  | resBMemHl (b : Nat)
  /-- SET b,r (R303). -/
  | setBR (b : Nat) (r : Reg8)
  /-- SET b,(HL) (R304). -/
  | setBMemHl (b : Nat)
  deriving DecidableEq, Repr

end Sys2Proof
end

