-- ==== Sys2Proof/WellFormed.lean ====
section
/-! DEFINITION. The two operand checks that the types of `Instr` do not make: a bit number is 0 to 7 (R142, R299) and an
RST target is one of the eight addresses of R149. -/

namespace Sys2Proof

/-- A bit number `b` of BIT, RES and SET: the 3-bit field y of the CB byte (R142). -/
def validBit (b : Nat) : Bool := decide (b < 8)

/-- An RST target: `t * 8` for a 3-bit t, one of 0x00, 0x08, …, 0x38 (R149). -/
def validRst (t : Byte) : Bool := decide (t.toNat % 8 = 0 ∧ t.toNat ≤ 0x38)

/-- The instruction is one the encoding can write. -/
def Instr.wf (i : Instr) : Bool :=
  match i with
  | .rstT t => validRst t
  | .bitBR b _ | .resBR b _ | .setBR b _ | .bitBMemHl b | .resBMemHl b | .setBMemHl b => validBit b
    | .nop | .ldDdNn _ _ | .ldBcA | .ldDeA | .ldHliA | .ldHldA | .incDd _ | .decDd _ | .incR _ | .incMemHl |
  .decR _ | .decMemHl | .ldRN _ _ | .ldMemHlN _ | .rlca | .rrca | .rla | .rra | .ldNnSp _ | .addHlDd _ |
  .ldABc | .ldADe | .ldAHli | .ldAHld | .stop | .jrE _ | .jrCcE _ _ | .daa | .cpl | .scf | .ccf | .ldRR _ _ |
  .ldRMemHl _ | .ldMemHlR _ | .halt | .addAR _ | .addAMemHl | .addAN _ | .adcAR _ | .adcAMemHl | .adcAN _ |
  .subR _ | .subMemHl | .subN _ | .sbcAR _ | .sbcAMemHl | .sbcAN _ | .andR _ | .andMemHl | .andN _ | .xorR _ |
  .xorMemHl | .xorN _ | .orR _ | .orMemHl | .orN _ | .cpR _ | .cpMemHl | .cpN _ | .retCc _ | .popQq _ |
  .jpCcNn _ _ | .jpNn _ | .callCcNn _ _ | .pushQq _ | .ret | .prefixCb | .callNn _ | .reti | .ldhNA _ | .ldCA
  | .addSpE _ | .jpHl | .ldNnA _ | .ldhAN _ | .ldAC | .di | .ldHlSpE _ | .ldSpHl | .ldANn _ | .ei | .illegalD3
  | .illegalDB | .illegalDD | .illegalE3 | .illegalE4 | .illegalEB | .illegalEC | .illegalED | .illegalF4 |
  .illegalFC | .illegalFD | .rlcR _ | .rlcMemHl | .rrcR _ | .rrcMemHl | .rlR _ | .rlMemHl | .rrR _ | .rrMemHl
  | .slaR _ | .slaMemHl | .sraR _ | .sraMemHl | .swapR _ | .swapMemHl | .srlR _ | .srlMemHl => true

end Sys2Proof
end

