-- ==== Sys2Proof/Decode.lean ====
section
/-! DEFINITION. The decoder and the encoder, both written from the opcode maps of 30_encoding.md (R140 to R158), with the
byte-order helpers they share with the machine. Every byte is some instruction (the eleven illegal opcodes are rows of
the table too), so decoding is refused only for want of bytes. -/

namespace Sys2Proof

/-! ### Bytes of a word (R8, R78) -/

/-- `hi(w) = w[15:8]` (R8). -/
def hiByte (w : Word) : Byte := w.extractLsb' 8 8

/-- `lo(w) = w[7:0]` (R8). -/
def loByte (w : Word) : Byte := w.extractLsb' 0 8

/-- `(h << 8) | l` (R8). -/
def joinBytes (h l : Byte) : Word := h ++ l

/-- `sext_16(v)`: bit 7 copied into bits 15..8 (R8). -/
def sext16 (v : Byte) : Word := v.signExtend 16

/-- `zext_16(v)` (R8). -/
def zext16 (v : Byte) : Word := v.zeroExtend 16

/-! ### Fields of an opcode byte (R141) -/

/-- `x = op[7:6]`. -/
def fieldX (op : Byte) : Nat := op.toNat / 64

/-- `y = op[5:3]`. -/
def fieldY (op : Byte) : Nat := op.toNat / 8 % 8

/-- `z = op[2:0]`. -/
def fieldZ (op : Byte) : Nat := op.toNat % 8

/-- `p = op[5:4]`. -/
def fieldP (op : Byte) : Nat := op.toNat / 16 % 4

/-- `q = op[3]`. -/
def fieldQ (op : Byte) : Nat := op.toNat / 8 % 2

/-! ### Operand codes -/

/-- The register of code r; code 6 is the byte at HL, no register (R143). -/
def reg8OfCode (r : Nat) : Option Reg8 :=
  match r with
  | 0 => some .b
  | 1 => some .c
  | 2 => some .d
  | 3 => some .e
  | 4 => some .h
  | 5 => some .l
  | 7 => some .a
  | _ => none

/-- The code of a register (R143). -/
def reg8Code (r : Reg8) : Nat :=
  match r with
  | .b => 0
  | .c => 1
  | .d => 2
  | .e => 3
  | .h => 4
  | .l => 5
  | .a => 7

/-- The pair of code dd (R144). -/
def pairOfCode (p : Nat) : Pair :=
  match p with
  | 0 => .bc
  | 1 => .de
  | 2 => .hl
  | _ => .sp

/-- The code of a `dd` pair (R144). -/
def pairCode (dd : Pair) : Nat :=
  match dd with
  | .bc => 0
  | .de => 1
  | .hl => 2
  | .sp => 3

/-- The pair of code qq (R145). -/
def stackPairOfCode (p : Nat) : StackPair :=
  match p with
  | 0 => .bc
  | 1 => .de
  | 2 => .hl
  | _ => .af

/-- The code of a `qq` pair (R145). -/
def stackPairCode (qq : StackPair) : Nat :=
  match qq with
  | .bc => 0
  | .de => 1
  | .hl => 2
  | .af => 3

/-- The condition of code cc (R146). -/
def condOfCode (k : Nat) : Cond :=
  match k with
  | 0 => .nz
  | 1 => .z
  | 2 => .nc
  | _ => .c

/-- The code of a condition (R146). -/
def condCode (cc : Cond) : Nat :=
  match cc with
  | .nz => 0
  | .z => 1
  | .nc => 2
  | .c => 3

/-! ### Decoding -/

/-- The number of operand bytes fetched after a main-table opcode byte (R155). The CB byte after 0xCB belongs to the
prefix (R174) and the byte after STOP is never read (R381), so both count 0 here. -/
def operandBytes (op : Byte) : Nat :=
  match fieldX op, fieldZ op, fieldY op with
  | 0, 0, 1 => 2                            -- 0x08
  | 0, 0, y => if 3 ≤ y then 1 else 0       -- JR e, JR cc,e
  | 0, 1, y => if y % 2 = 0 then 2 else 0   -- LD dd,nn
  | 0, 6, _ => 1                            -- LD r,n; LD (HL),n
  | 3, 0, y => if 4 ≤ y then 1 else 0       -- LDH, ADD SP,e, LD HL,SP+e
  | 3, 2, y => if y < 4 ∨ y = 5 ∨ y = 7 then 2 else 0   -- JP cc,nn; LD (nn),A; LD A,(nn)
  | 3, 3, 0 => 2                            -- JP nn
  | 3, 4, y => if y < 4 then 2 else 0       -- CALL cc,nn
  | 3, 5, 1 => 2                            -- CALL nn
  | 3, 6, _ => 1                            -- ALU A,n
  | _, _, _ => 0

/-- The x = 0 quarter of the main table (R150). -/
def decodeX0 (y z : Nat) (n : Byte) (nn : Word) : Instr :=
  match z with
  | 0 =>
    match y with
    | 0 => .nop
    | 1 => .ldNnSp nn
    | 2 => .stop
    | 3 => .jrE n
    | k + 4 => .jrCcE (condOfCode k) n
  | 1 => if y % 2 = 0 then .ldDdNn (pairOfCode (y / 2)) nn else .addHlDd (pairOfCode (y / 2))
  | 2 =>
    match y with
    | 0 => .ldBcA
    | 1 => .ldABc
    | 2 => .ldDeA
    | 3 => .ldADe
    | 4 => .ldHliA
    | 5 => .ldAHli
    | 6 => .ldHldA
    | _ => .ldAHld
  | 3 => if y % 2 = 0 then .incDd (pairOfCode (y / 2)) else .decDd (pairOfCode (y / 2))
  | 4 =>
    match reg8OfCode y with
    | some r => .incR r
    | none => .incMemHl
  | 5 =>
    match reg8OfCode y with
    | some r => .decR r
    | none => .decMemHl
  | 6 =>
    match reg8OfCode y with
    | some r => .ldRN r n
    | none => .ldMemHlN n
  | _ =>
    match y with
    | 0 => .rlca
    | 1 => .rrca
    | 2 => .rla
    | 3 => .rra
    | 4 => .daa
    | 5 => .cpl
    | 6 => .scf
    | _ => .ccf

/-- The x = 1 quarter: the register moves, with HALT at y = z = 6 (R150, R158). -/
def decodeX1 (y z : Nat) : Instr :=
  match reg8OfCode y, reg8OfCode z with
  | some r, some r1 => .ldRR r r1
  | some r, none => .ldRMemHl r
  | none, some r => .ldMemHlR r
  | none, none => .halt

/-- The x = 2 quarter: ALU operation y on operand z (R147, R150). -/
def decodeX2 (y z : Nat) : Instr :=
  match reg8OfCode z with
  | some r =>
    match y with
    | 0 => .addAR r
    | 1 => .adcAR r
    | 2 => .subR r
    | 3 => .sbcAR r
    | 4 => .andR r
    | 5 => .xorR r
    | 6 => .orR r
    | _ => .cpR r
  | none =>
    match y with
    | 0 => .addAMemHl
    | 1 => .adcAMemHl
    | 2 => .subMemHl
    | 3 => .sbcAMemHl
    | 4 => .andMemHl
    | 5 => .xorMemHl
    | 6 => .orMemHl
    | _ => .cpMemHl

/-- The x = 3 quarter (R150), with the illegal opcodes of R153. -/
def decodeX3 (y z : Nat) (n : Byte) (nn : Word) : Instr :=
  match z with
  | 0 =>
    match y with
    | 4 => .ldhNA n
    | 5 => .addSpE n
    | 6 => .ldhAN n
    | 7 => .ldHlSpE n
    | k => .retCc (condOfCode k)
  | 1 =>
    match y with
    | 1 => .ret
    | 3 => .reti
    | 5 => .jpHl
    | 7 => .ldSpHl
    | k => .popQq (stackPairOfCode (k / 2))
  | 2 =>
    match y with
    | 4 => .ldCA
    | 5 => .ldNnA nn
    | 6 => .ldAC
    | 7 => .ldANn nn
    | k => .jpCcNn (condOfCode k) nn
  | 3 =>
    match y with
    | 0 => .jpNn nn
    | 1 => .prefixCb
    | 2 => .illegalD3
    | 3 => .illegalDB
    | 4 => .illegalE3
    | 5 => .illegalEB
    | 6 => .di
    | _ => .ei
  | 4 =>
    match y with
    | 4 => .illegalE4
    | 5 => .illegalEC
    | 6 => .illegalF4
    | 7 => .illegalFC
    | k => .callCcNn (condOfCode k) nn
  | 5 =>
    match y with
    | 1 => .callNn nn
    | 3 => .illegalDD
    | 5 => .illegalED
    | 7 => .illegalFD
    | k => .pushQq (stackPairOfCode (k / 2))
  | 6 =>
    match y with
    | 0 => .addAN n
    | 1 => .adcAN n
    | 2 => .subN n
    | 3 => .sbcAN n
    | 4 => .andN n
    | 5 => .xorN n
    | 6 => .orN n
    | _ => .cpN n
  | _ => .rstT (BitVec.ofNat 8 (y * 8))

/-- The main table (R151): the instruction of opcode byte `op`, with `n` its 8-bit and `nn` its 16-bit operand (a form
uses at most one of them, by `operandBytes`). 0xCB gives the bare prefix (R385). -/
def decodeOp (op : Byte) (n : Byte) (nn : Word) : Instr :=
  match fieldX op with
  | 0 => decodeX0 (fieldY op) (fieldZ op) n nn
  | 1 => decodeX1 (fieldY op) (fieldZ op)
  | 2 => decodeX2 (fieldY op) (fieldZ op)
  | _ => decodeX3 (fieldY op) (fieldZ op) n nn

/-- The CB table (R148, R152): a total function of the byte after 0xCB. -/
def decodeCb (cb : Byte) : Instr :=
  match reg8OfCode (fieldZ cb) with
  | some r =>
    match fieldX cb with
    | 0 =>
      match fieldY cb with
      | 0 => .rlcR r
      | 1 => .rrcR r
      | 2 => .rlR r
      | 3 => .rrR r
      | 4 => .slaR r
      | 5 => .sraR r
      | 6 => .swapR r
      | _ => .srlR r
    | 1 => .bitBR (fieldY cb) r
    | 2 => .resBR (fieldY cb) r
    | _ => .setBR (fieldY cb) r
  | none =>
    match fieldX cb with
    | 0 =>
      match fieldY cb with
      | 0 => .rlcMemHl
      | 1 => .rrcMemHl
      | 2 => .rlMemHl
      | 3 => .rrMemHl
      | 4 => .slaMemHl
      | 5 => .sraMemHl
      | 6 => .swapMemHl
      | _ => .srlMemHl
    | 1 => .bitBMemHl (fieldY cb)
    | 2 => .resBMemHl (fieldY cb)
    | _ => .setBMemHl (fieldY cb)

/-- Why a byte string is no instruction. -/
inductive DecodeError
  /-- There is no opcode byte. -/
  | noBytes
  /-- The opcode's operand bytes are missing (R155). -/
  | operandMissing (op : Byte)
  deriving DecidableEq, Repr

/-- The instruction at the head of a byte string, the first byte at the lowest address and an immediate low byte first
(R78, R140, R155). The byte after STOP is not looked at (R381). A 0xCB with no byte after it is the bare prefix. -/
def decode (bs : List Byte) : Except DecodeError Instr :=
  match bs with
  | [] => .error .noBytes
  | op :: rest =>
    if op = 0xCB#8 then
      match rest with
      | [] => .ok .prefixCb
      | cb :: _ => .ok (decodeCb cb)
    else
      match operandBytes op, rest with
      | 0, _ => .ok (decodeOp op 0 0)
      | 1, n :: _ => .ok (decodeOp op n 0)
      | 2, l :: h :: _ => .ok (decodeOp op 0 (joinBytes h l))
      | _, _ => .error (.operandMissing op)

/-! ### Encoding -/

/-- An opcode byte from its fields: `x` in bits 7..6, `y` in 5..3, `z` in 2..0 (R141). -/
def opByte (x y z : Nat) : Byte := BitVec.ofNat 8 (x * 64 + y * 8 + z)

/-- A one-byte instruction. -/
def encOp (x y z : Nat) : List Byte := [opByte x y z]

/-- An opcode and an 8-bit operand (format OP_IMM8 of R140). -/
def encImm8 (x y z : Nat) (n : Byte) : List Byte := [opByte x y z, n]

/-- An opcode and a 16-bit operand, low byte first (format OP_IMM16 of R140). -/
def encImm16 (x y z : Nat) (nn : Word) : List Byte := [opByte x y z, loByte nn, hiByte nn]

/-- The prefix and a CB byte (format CB of R140). -/
def encCb (x y z : Nat) : List Byte := [0xCB#8, opByte x y z]

/-- The bytes of an instruction (R150 to R152). STOP's second byte may be anything (R154); the encoder writes 0x00. -/
def encode (i : Instr) : List Byte :=
  match i with
  | .nop => encOp 0 0 0
  | .ldDdNn dd nn => encImm16 0 (2 * pairCode dd) 1 nn
  | .ldBcA => encOp 0 0 2
  | .ldDeA => encOp 0 2 2
  | .ldHliA => encOp 0 4 2
  | .ldHldA => encOp 0 6 2
  | .incDd dd => encOp 0 (2 * pairCode dd) 3
  | .decDd dd => encOp 0 (2 * pairCode dd + 1) 3
  | .incR r => encOp 0 (reg8Code r) 4
  | .incMemHl => encOp 0 6 4
  | .decR r => encOp 0 (reg8Code r) 5
  | .decMemHl => encOp 0 6 5
  | .ldRN r n => encImm8 0 (reg8Code r) 6 n
  | .ldMemHlN n => encImm8 0 6 6 n
  | .rlca => encOp 0 0 7
  | .rrca => encOp 0 1 7
  | .rla => encOp 0 2 7
  | .rra => encOp 0 3 7
  | .ldNnSp nn => encImm16 0 1 0 nn
  | .addHlDd dd => encOp 0 (2 * pairCode dd + 1) 1
  | .ldABc => encOp 0 1 2
  | .ldADe => encOp 0 3 2
  | .ldAHli => encOp 0 5 2
  | .ldAHld => encOp 0 7 2
  | .stop => encImm8 0 2 0 0x00#8
  | .jrE e => encImm8 0 3 0 e
  | .jrCcE cc e => encImm8 0 (4 + condCode cc) 0 e
  | .daa => encOp 0 4 7
  | .cpl => encOp 0 5 7
  | .scf => encOp 0 6 7
  | .ccf => encOp 0 7 7
  | .ldRR r r1 => encOp 1 (reg8Code r) (reg8Code r1)
  | .ldRMemHl r => encOp 1 (reg8Code r) 6
  | .ldMemHlR r => encOp 1 6 (reg8Code r)
  | .halt => encOp 1 6 6
  | .addAR r => encOp 2 0 (reg8Code r)
  | .addAMemHl => encOp 2 0 6
  | .addAN n => encImm8 3 0 6 n
  | .adcAR r => encOp 2 1 (reg8Code r)
  | .adcAMemHl => encOp 2 1 6
  | .adcAN n => encImm8 3 1 6 n
  | .subR r => encOp 2 2 (reg8Code r)
  | .subMemHl => encOp 2 2 6
  | .subN n => encImm8 3 2 6 n
  | .sbcAR r => encOp 2 3 (reg8Code r)
  | .sbcAMemHl => encOp 2 3 6
  | .sbcAN n => encImm8 3 3 6 n
  | .andR r => encOp 2 4 (reg8Code r)
  | .andMemHl => encOp 2 4 6
  | .andN n => encImm8 3 4 6 n
  | .xorR r => encOp 2 5 (reg8Code r)
  | .xorMemHl => encOp 2 5 6
  | .xorN n => encImm8 3 5 6 n
  | .orR r => encOp 2 6 (reg8Code r)
  | .orMemHl => encOp 2 6 6
  | .orN n => encImm8 3 6 6 n
  | .cpR r => encOp 2 7 (reg8Code r)
  | .cpMemHl => encOp 2 7 6
  | .cpN n => encImm8 3 7 6 n
  | .retCc cc => encOp 3 (condCode cc) 0
  | .popQq qq => encOp 3 (2 * stackPairCode qq) 1
  | .jpCcNn cc nn => encImm16 3 (condCode cc) 2 nn
  | .jpNn nn => encImm16 3 0 3 nn
  | .callCcNn cc nn => encImm16 3 (condCode cc) 4 nn
  | .pushQq qq => encOp 3 (2 * stackPairCode qq) 5
  | .rstT t => encOp 3 (t.toNat / 8) 7
  | .ret => encOp 3 1 1
  | .prefixCb => encOp 3 1 3
  | .callNn nn => encImm16 3 1 5 nn
  | .reti => encOp 3 3 1
  | .ldhNA n => encImm8 3 4 0 n
  | .ldCA => encOp 3 4 2
  | .addSpE e => encImm8 3 5 0 e
  | .jpHl => encOp 3 5 1
  | .ldNnA nn => encImm16 3 5 2 nn
  | .ldhAN n => encImm8 3 6 0 n
  | .ldAC => encOp 3 6 2
  | .di => encOp 3 6 3
  | .ldHlSpE e => encImm8 3 7 0 e
  | .ldSpHl => encOp 3 7 1
  | .ldANn nn => encImm16 3 7 2 nn
  | .ei => encOp 3 7 3
  | .illegalD3 => [0xD3#8]
  | .illegalDB => [0xDB#8]
  | .illegalDD => [0xDD#8]
  | .illegalE3 => [0xE3#8]
  | .illegalE4 => [0xE4#8]
  | .illegalEB => [0xEB#8]
  | .illegalEC => [0xEC#8]
  | .illegalED => [0xED#8]
  | .illegalF4 => [0xF4#8]
  | .illegalFC => [0xFC#8]
  | .illegalFD => [0xFD#8]
  | .rlcR r => encCb 0 0 (reg8Code r)
  | .rlcMemHl => encCb 0 0 6
  | .rrcR r => encCb 0 1 (reg8Code r)
  | .rrcMemHl => encCb 0 1 6
  | .rlR r => encCb 0 2 (reg8Code r)
  | .rlMemHl => encCb 0 2 6
  | .rrR r => encCb 0 3 (reg8Code r)
  | .rrMemHl => encCb 0 3 6
  | .slaR r => encCb 0 4 (reg8Code r)
  | .slaMemHl => encCb 0 4 6
  | .sraR r => encCb 0 5 (reg8Code r)
  | .sraMemHl => encCb 0 5 6
  | .swapR r => encCb 0 6 (reg8Code r)
  | .swapMemHl => encCb 0 6 6
  | .srlR r => encCb 0 7 (reg8Code r)
  | .srlMemHl => encCb 0 7 6
  | .bitBR b r => encCb 1 b (reg8Code r)
  | .bitBMemHl b => encCb 1 b 6
  | .resBR b r => encCb 2 b (reg8Code r)
  | .resBMemHl b => encCb 2 b 6
  | .setBR b r => encCb 3 b (reg8Code r)
  | .setBMemHl b => encCb 3 b 6

/-- The length in bytes that a decoder tells from the first byte alone (R155). -/
def lengthOfOpcode (op : Byte) : Nat :=
  if op = 0xCB#8 ∨ op = 0x10#8 then 2 else operandBytes op + 1

/-! ### The opcode table's numbering -/

/-- The bytes of an instruction whose bits are `w` as spec/opcode_table.json numbers them, `nbits` of them, the operand
bytes the row gives no bits being 0. The table numbers the bits of a CB row as the number 0xCBxx, so the prefix, which
lies at the lower address, is in bits 15..8 there; any other word has its first byte in bits 7..0. An 8-bit 0xCB is the
row PREFIX CB, one byte long. DEDUCED (log 9). -/
def tableBytes (nbits w : Nat) : List Byte :=
  let b0 : Byte := BitVec.ofNat 8 w
  let b1 : Byte := BitVec.ofNat 8 (w / 256)
  let b2 : Byte := BitVec.ofNat 8 (w / 65536)
  if nbits ≤ 8 then b0 :: List.replicate (operandBytes b0) 0
  else if nbits ≤ 16 then
    if b1 = 0xCB#8 then [b1, b0] else [b0, b1, 0]
  else [b0, b1, b2]

/-- The instruction this decoder reads from a word of the opcode table. -/
def decodeTableWord (nbits w : Nat) : Option Instr :=
  match decode (tableBytes nbits w) with
  | .ok i => some i
  | .error _ => none

end Sys2Proof
end

