-- ==== Sys2Proof/Config.lean ====
section
/-! DEFINITION. The parameters of rule R7 that select the machine's behaviour. They are fixed at construction, and the
machine carries them unchanged (`State.config`), so that a statement about every state is a statement about every
value of them. DEDUCED (log 5). The construction draws of R7 (`ROM_IMAGE`, `INIT_REGS`, `INIT_DIV`, `INIT_RAM`) are arguments of
`Machine.construct`. -/

namespace Sys2Proof

/-- `HALT_BUG_MODE` (R7, R414, D11): when a HALT wake with IME clear arms the double opcode fetch. -/
inductive HaltBugMode
  /-- The source's own text: a wake at a later check than the one that ends the HALT step arms it. -/
  | docLiteral
  /-- The LR35902: only the wake at the check that ends the HALT step arms it. -/
  | hardware
  deriving DecidableEq, Repr

/-- The behaviour-selecting parameters of R7. -/
structure Config where
  /-- `HALT_BUG_MODE` (R414). -/
  haltBugMode : HaltBugMode
  /-- `PPU_ACCESS_LOCKOUT` (R470, D27). -/
  ppuAccessLockout : Bool
  /-- `LINE153_LY0_AT` (R463, D21): the line clock of line 153 from which LY reads 0. -/
  line153Ly0At : Nat
  deriving DecidableEq, Repr

/-- The defaults R7 lists: `doc_literal`, `false`, 4. -/
def Config.default : Config :=
  { haltBugMode := .docLiteral, ppuAccessLockout := false, line153Ly0At := 4 }

end Sys2Proof
end

