-- ==== Sys2Proof/Machine/State.lean ====
section
/-! DEFINITION. The state of the block (10_state.md), as plain data, the reasons a step can stop, and the reset state
(R521). Every byte store is a list of (index, value) pairs in one canonical form (`Machine/Memory.lean`). -/

namespace Sys2Proof.Machine

/-! ### Stores -/

/-- Sparse storage of `w`-bit values by index: strictly rising indexes, no entry equal to what an unlisted index reads
as (zero). DESIGN CHOICE (log 17). -/
abbrev Store (w : Nat) := List (Nat × BitVec w)

/-- Byte storage: a list of `Host.Cell`. -/
abbrev Memory := Store 8

/-! ### Reasons a step stops -/

/-- The machine's own fault (R33, R430). -/
inductive Fault
  /-- An illegal opcode `op` was fetched at `pc` (R432). Recorded in `State.fault` by the eleven illegal opcodes, and
  answered by `step` at a state that holds it, since no further step exists (R170). Safe: the spec's own fault. -/
  | unknownOpcode (op : Byte) (pc : Word)
  deriving DecidableEq, Repr

/-- What the model has no meaning for. -/
inductive Refusal
  /-- An instruction that has no meaning yet: raised by no arm of `exec`. Safe. -/
  | notModelled (mnemonic : String)
  /-- A bus access to the real-time-clock registers of an MBC3 (R113, D38), which the spec refuses: raised by `cartRead`
  and `cartWrite`. Safe. DEDUCED (log 14): the whole step is refused. -/
  | mbc3ClockAccess (address : Word)
  deriving DecidableEq, Repr

/-- What an operation answers: a value (most often with the state after it), a fault or a refusal. -/
abbrev Result (α : Type) := Host.Outcome α Fault Refusal

/-! ### The CPU (R20 to R32) -/

/-- The register file and the CPU's hidden state. -/
structure Cpu where
  /-- `(A << 8) | F`; F is read through the mask 0xF0 (R20, R21). DEDUCED (log 16): its low nibble is stored. -/
  af : Word
  /-- `(B << 8) | C` (R20). -/
  bc : Word
  /-- `(D << 8) | E` (R20). -/
  de : Word
  /-- `(H << 8) | L` (R20). -/
  hl : Word
  /-- The stack pointer (R24). -/
  sp : Word
  /-- The program counter (R25). -/
  pc : Word
  /-- Interrupt master enable (R28). -/
  ime : Bool
  /-- EI's pending enable (R29). -/
  eiScheduled : Bool
  /-- The CPU waits in HALT (R30). -/
  halted : Bool
  /-- Set by HALT, cleared by every service call (R31). -/
  haltFresh : Bool
  /-- The next opcode fetch does not advance PC (R32, R175). -/
  haltBugArmed : Bool
  /-- `pc0` of R171: the address the current instruction's opcode was read from. Written by every opcode fetch and read
  by the illegal opcodes alone. The model's own name for a local variable of the spec's step. DESIGN CHOICE (log 6). -/
  opcodePc : Word
  deriving DecidableEq, Repr

/-! ### Interrupt controller (R34, R35) -/

/-- The five bits each that exist of IF and IE. -/
structure Intr where
  /-- IF bits 4..0 (R34). -/
  ifReg : BitVec 5
  /-- IE bits 4..0 (R35). -/
  ieReg : BitVec 5
  deriving DecidableEq, Repr

/-! ### Timer and divider (R36 to R40) -/

/-- The timer's registers and hidden state. -/
structure Timer where
  /-- The 16-bit divider counter; DIV is its high byte (R36). -/
  divCounter : Word
  /-- TIMA (R37). -/
  tima : Byte
  /-- TMA (R38). -/
  tma : Byte
  /-- TAC bits 2..0 (R39). -/
  tac : BitVec 3
  /-- The edge detector's previous sample (R40). -/
  edgeMemo : Bool
  /-- TIMA has overflowed and is not yet reloaded (R40, R443). -/
  pendingOverflow : Bool
  deriving DecidableEq, Repr

/-! ### PPU (R41 to R49) -/

/-- The four scanning states (R12, R42). -/
inductive PpuMode
  /-- Mode 0. -/
  | hblank
  /-- Mode 1. -/
  | vblank
  /-- Mode 2. -/
  | oamRead
  /-- Mode 3. -/
  | vramRead
  deriving DecidableEq, Repr

/-- The four sources of the STAT interrupt (R465). -/
inductive StatSource
  | m0 | m1 | m2 | lyc
  deriving DecidableEq, Repr

/-- `statFired`: which STAT sources have fired on this line (R48, R465). -/
structure StatFired where
  m0 : Bool
  m1 : Bool
  m2 : Bool
  lyc : Bool
  deriving DecidableEq, Repr

/-- The PPU's registers, its hidden state, VRAM, OAM and the pixel buffer. -/
structure Ppu where
  /-- LCDC (R41). -/
  lcdc : Byte
  /-- STAT bits 6..3: bit 0 mode 0, bit 1 mode 1, bit 2 mode 2, bit 3 LYC (R42). -/
  statEnables : BitVec 4
  /-- SCY (R43). -/
  scy : Byte
  /-- SCX (R43). -/
  scx : Byte
  /-- LYC (R45). -/
  lyc : Byte
  /-- BGP (R46). -/
  bgp : Byte
  /-- OBP0 (R47). -/
  obp0 : Byte
  /-- OBP1 (R47). -/
  obp1 : Byte
  /-- WY (R47). -/
  wy : Byte
  /-- WX (R47). -/
  wx : Byte
  /-- The scanline the FSM is in, 0 to 153 (R48). -/
  line : Nat
  /-- The clock of the line that comes next, 0 to 455 (R48). -/
  lineClock : Nat
  /-- The value LY reads (R44, R48). -/
  ly : Byte
  /-- The mode STAT reads (R48). -/
  mode : PpuMode
  /-- STAT bit 2 (R48, R464). -/
  coincidence : Bool
  /-- `SCX & 7` latched at the start of mode 3 (R48). -/
  mode3Scx : BitVec 3
  /-- LCDC bit 7 as seen at the previous PPU clock (R48). -/
  lcdWasOn : Bool
  /-- The frame clock of the display-off state, 0 to 70223 (R48, R466). -/
  offClock : Nat
  /-- A frame has ended since the last `Draw()` (R48, R467). -/
  endOfFrame : Bool
  /-- The STAT sources that have fired on this line (R48). -/
  statFired : StatFired
  /-- The column-major buffer: `pixels[x][y]` at index `x * 144 + y` (R48). -/
  pixels : Store 2
  /-- VRAM by bus address, 0x8000 to 0x9FFF (R49). -/
  vram : Memory
  /-- OAM by bus address, 0xFE00 to 0xFE9F (R49). -/
  oam : Memory
  deriving DecidableEq, Repr

/-! ### Cartridge (R52, R90 to R124) -/

/-- The header snapshot (R91). -/
structure Header where
  /-- The title's bytes, ASCII. DEDUCED (log 18). -/
  title : List Byte
  /-- The type byte at 0x147. -/
  typeByte : Byte
  /-- The ROM-size code at 0x148. -/
  romSizeCode : Byte
  /-- The RAM-size code at 0x149. -/
  ramSizeCode : Byte
  deriving DecidableEq, Repr

/-- MBC1 registers (R100). -/
structure Mbc1 where
  ramEnable : Bool
  bank1 : BitVec 5
  bank2 : BitVec 2
  mode : BitVec 1
  deriving DecidableEq, Repr

/-- MBC3 registers (R110). -/
structure Mbc3 where
  ramEnable : Bool
  romBank : BitVec 7
  ramSel : BitVec 4
  deriving DecidableEq, Repr

/-- MBC5 registers (R120). The offsets R120 calls derived are functions of these (R125). DEDUCED (log 15). -/
structure Mbc5 where
  ramEnable : Bool
  romLo : BitVec 8
  romHi : BitVec 1
  ramBank : BitVec 4
  mode : BitVec 1
  deriving DecidableEq, Repr

/-- The mapper of R92 with its bank-select registers. -/
inductive Mapper
  | romOnly
  | mbc1 (m : Mbc1)
  | mbc3 (m : Mbc3)
  | mbc5 (m : Mbc5)
  deriving DecidableEq, Repr

/-- The cartridge (R52). -/
structure Cartridge where
  header : Header
  /-- The length of `ROM_IMAGE`; the ROM buffer above it is padding (R95). -/
  imageLength : Nat
  /-- The bytes of `ROM_IMAGE` by offset. -/
  rom : Memory
  /-- The ROM bank count of R93. -/
  romBanks : Nat
  /-- The RAM size in bytes of R94. -/
  ramBytes : Nat
  /-- The RAM bank count of R94. -/
  ramBanks : Nat
  /-- The RAM buffer by offset (R95). -/
  ram : Memory
  mapper : Mapper
  deriving DecidableEq, Repr

/-! ### Joypad and serial (R50, R51) -/

/-- The direction keys, driven by `PressCross` (R480). -/
inductive CrossKey
  | right | left | up | down
  deriving DecidableEq, Repr

/-- The buttons, driven by `PressButton` (R480). -/
inductive ButtonKey
  | a | b | select | start
  deriving DecidableEq, Repr

/-- The input latch of one key group: the keys of P1 bits 0 to 3 (R480). -/
structure KeyGroup where
  key0 : Bool
  key1 : Bool
  key2 : Bool
  key3 : Bool
  deriving DecidableEq, Repr

/-- The joypad (R50). -/
structure Joypad where
  /-- P1 bits 5..4: bit 1 is P1 bit 5 (buttons), bit 0 is P1 bit 4 (direction keys); 0 selects. -/
  select : BitVec 2
  /-- Right, Left, Up, Down. -/
  cross : KeyGroup
  /-- A, B, Select, Start. -/
  buttons : KeyGroup
  deriving DecidableEq, Repr

/-- The serial stub's registers (R51). -/
structure Serial where
  sb : Byte
  sc : Byte
  deriving DecidableEq, Repr

/-! ### The block -/

/-- Everything the spec gives the block. -/
structure State where
  cpu : Cpu
  intr : Intr
  timer : Timer
  ppu : Ppu
  cart : Cartridge
  joypad : Joypad
  serial : Serial
  /-- Flat RAM by bus address, for the addresses at or above 0x8000 that no range claims (R53). -/
  flat : Memory
  /-- The recorded fault (R33). -/
  fault : Option Fault
  /-- The observational counter of system clocks (R185); nothing reads it. -/
  clock : Nat
  /-- The parameters of R7, fixed at construction. -/
  config : Config
  deriving DecidableEq, Repr

/-! ### Reset values (R521) -/

/-- No key of a group pressed (R50). -/
def KeyGroup.released : KeyGroup := { key0 := false, key1 := false, key2 := false, key3 := false }

/-- The empty `statFired`. -/
def StatFired.empty : StatFired := { m0 := false, m1 := false, m2 := false, lyc := false }

/-- The CPU at reset for a draw of `INIT_REGS` (A, F, B, C, D, E, H, L as the four pairs): R26, R27 to R32. -/
def Cpu.resetWith (af bc de hl : Word) : Cpu :=
  { af := af, bc := bc, de := de, hl := hl, sp := 0xFFFE#16, pc := 0x0100#16
    ime := false, eiScheduled := false, halted := false, haltFresh := false, haltBugArmed := false
    opcodePc := 0x0000#16 }

/-- IF = 0x01, IE = 0x00 (R34, R35). -/
def Intr.reset : Intr := { ifReg := 0x01#5, ieReg := 0x00#5 }

/-- The timer at reset for a draw of `INIT_DIV` (R36 to R40). -/
def Timer.resetWith (divCounter : Word) : Timer :=
  { divCounter := divCounter, tima := 0, tma := 0, tac := 0, edgeMemo := false, pendingOverflow := false }

/-- The PPU at reset for a draw of VRAM and OAM (R41 to R49): the display off. -/
def Ppu.resetWith (vram oam : Memory) : Ppu :=
  { lcdc := 0, statEnables := 0, scy := 0, scx := 0, lyc := 0, bgp := 0, obp0 := 0, obp1 := 0, wy := 0, wx := 0
    line := 0, lineClock := 0, ly := 0, mode := .hblank, coincidence := false, mode3Scx := 0, lcdWasOn := false
    offClock := 0, endOfFrame := false, statFired := .empty, pixels := [], vram := vram, oam := oam }

/-- Both groups selected, no key pressed (R50). -/
def Joypad.reset : Joypad := { select := 0, cross := .released, buttons := .released }

/-- SB and SC 0x00 (R51). -/
def Serial.reset : Serial := { sb := 0, sc := 0 }

/-- The cartridge of an image of 32 KiB of 0x00: an empty title, type 0x00 (RomOnly), size codes 0x00 (R91 to R95).
DESIGN CHOICE (log 4): the spec gives `ROM_IMAGE` no default, so a blank image stands in for it. -/
def Cartridge.blank : Cartridge :=
  { header := { title := [], typeByte := 0, romSizeCode := 0, ramSizeCode := 0 }
    imageLength := 0x8000, rom := [], romBanks := 2, ramBytes := 0, ramBanks := 0, ram := [], mapper := .romOnly }

/-- The block right after construction (R520, R521). DESIGN CHOICE: `INIT_REGS` all 0x00 (log 1), `INIT_DIV` 0x0000
(log 2), `INIT_RAM` all 0x00 (log 3), a blank cartridge (log 4), and 0x0000 for the model's own `opcodePc` (log 6);
the parameters of R7 stand at their defaults. -/
def State.reset : State :=
  { cpu := Cpu.resetWith 0 0 0 0
    intr := Intr.reset
    timer := Timer.resetWith 0
    ppu := Ppu.resetWith [] []
    cart := Cartridge.blank
    joypad := Joypad.reset
    serial := Serial.reset
    flat := []
    fault := none
    clock := 0
    config := Config.default }

end Sys2Proof.Machine
end

