-- ==== Sys2Proof/Machine/Operands.lean ====
section
/-! DEFINITION. The registers as operands: the halves of the pairs, the codes r, dd, qq and cc, and the flags (10_state.md
§1, 30_encoding.md §2). -/

namespace Sys2Proof.Machine

/-! ### Halves (R20, R21) -/

/-- A. -/
def regA (c : Cpu) : Byte := hiByte c.af

/-- F as every reader sees it: the low nibble is zero (R21). -/
def regF (c : Cpu) : Byte := loByte c.af &&& 0xF0#8

/-- AF as every reader sees it (R21). -/
def regAF (c : Cpu) : Word := c.af &&& 0xFFF0#16

/-- `A <- v`. -/
def setA (c : Cpu) (v : Byte) : Cpu := { c with af := joinBytes v (loByte c.af) }

/-- `F <- v`: any byte may be stored; its low nibble is never read (R21). -/
def setF (c : Cpu) (v : Byte) : Cpu := { c with af := joinBytes (hiByte c.af) v }

/-- `AF <- w` (POP AF, R334). -/
def setAF (c : Cpu) (w : Word) : Cpu := { c with af := w }

/-- `r8[r]` (R143). -/
def getReg (c : Cpu) (r : Reg8) : Byte :=
  match r with
  | .b => hiByte c.bc
  | .c => loByte c.bc
  | .d => hiByte c.de
  | .e => loByte c.de
  | .h => hiByte c.hl
  | .l => loByte c.hl
  | .a => regA c

/-- `r8[r] <- v` (R143): the other half of the pair keeps its value (R20). -/
def setReg (c : Cpu) (r : Reg8) (v : Byte) : Cpu :=
  match r with
  | .b => { c with bc := joinBytes v (loByte c.bc) }
  | .c => { c with bc := joinBytes (hiByte c.bc) v }
  | .d => { c with de := joinBytes v (loByte c.de) }
  | .e => { c with de := joinBytes (hiByte c.de) v }
  | .h => { c with hl := joinBytes v (loByte c.hl) }
  | .l => { c with hl := joinBytes (hiByte c.hl) v }
  | .a => setA c v

/-! ### Pairs (R144, R145) -/

/-- `r16dd[p]`. -/
def getPair (c : Cpu) (dd : Pair) : Word :=
  match dd with
  | .bc => c.bc
  | .de => c.de
  | .hl => c.hl
  | .sp => c.sp

/-- `r16dd[p] <- w`. -/
def setPair (c : Cpu) (dd : Pair) (w : Word) : Cpu :=
  match dd with
  | .bc => { c with bc := w }
  | .de => { c with de := w }
  | .hl => { c with hl := w }
  | .sp => { c with sp := w }

/-- `r16qq[p]`; AF reads with F's low nibble zero. -/
def getStackPair (c : Cpu) (qq : StackPair) : Word :=
  match qq with
  | .bc => c.bc
  | .de => c.de
  | .hl => c.hl
  | .af => regAF c

/-- `r16qq[p] <- w`. -/
def setStackPair (c : Cpu) (qq : StackPair) (w : Word) : Cpu :=
  match qq with
  | .bc => { c with bc := w }
  | .de => { c with de := w }
  | .hl => { c with hl := w }
  | .af => setAF c w

/-! ### Flags (R22) -/

/-- F.Z, bit 7. -/
def flagZ (c : Cpu) : Bool := (regF c).getLsbD 7

/-- F.N, bit 6. -/
def flagN (c : Cpu) : Bool := (regF c).getLsbD 6

/-- F.H, bit 5. -/
def flagH (c : Cpu) : Bool := (regF c).getLsbD 5

/-- F.C, bit 4. -/
def flagC (c : Cpu) : Bool := (regF c).getLsbD 4

/-- A condition holds (R146, R350). -/
def condHolds (c : Cpu) (cc : Cond) : Bool :=
  match cc with
  | .nz => !flagZ c
  | .z => flagZ c
  | .nc => !flagC c
  | .c => flagC c

end Sys2Proof.Machine
end

