-- ==== Sys2Proof/Machine/Flags.lean ====
section
/-! DEFINITION. The pure functions of the ALU and the flags they compute (R201 to R208, R238, R251, R254, R270 to R282,
R299). Sums are taken in Nat or Int and narrowed at the end. -/

namespace Sys2Proof.Machine

/-- The flag byte: Z, N, H, C in bits 7 to 4, zeros below (R22, R200). -/
def flagByte (z n h c : Bool) : Byte :=
  BitVec.ofBool z ++ BitVec.ofBool n ++ BitVec.ofBool h ++ BitVec.ofBool c ++ 0#4

/-- What an ALU function returns: `(res, fl)` (R200). -/
structure AluOut where
  res : Byte
  fl : Byte
  deriving DecidableEq, Repr

/-- A carry bit as a number. -/
def bit (b : Bool) : Nat := if b then 1 else 0

/-! ### 8-bit addition and subtraction -/

/-- `ADC8(a, b, cin)` (R202). -/
def adc8 (a b : Byte) (cin : Bool) : AluOut :=
  let t := a.toNat + b.toNat + bit cin
  let res := BitVec.ofNat 8 t
  { res := res
    fl := flagByte (res == 0) false (decide (a.toNat % 16 + b.toNat % 16 + bit cin > 0x0F)) (decide (t > 0xFF)) }

/-- `ADD8(a, b)` (R201). -/
def add8 (a b : Byte) : AluOut :=
  let t := a.toNat + b.toNat
  let res := BitVec.ofNat 8 t
  { res := res, fl := flagByte (res == 0) false (decide (a.toNat % 16 + b.toNat % 16 > 0x0F)) (decide (t > 0xFF)) }

/-- `SBC8(a, b, cin)` (R204). -/
def sbc8 (a b : Byte) (cin : Bool) : AluOut :=
  let t : Int := (a.toNat : Int) - (b.toNat : Int) - (bit cin : Int)
  let res := BitVec.ofInt 8 t
  { res := res
    fl := flagByte (res == 0) true (decide (a.toNat % 16 < b.toNat % 16 + bit cin)) (decide (t < 0)) }

/-- `SUB8(a, b)` (R203). -/
def sub8 (a b : Byte) : AluOut :=
  let t : Int := (a.toNat : Int) - (b.toNat : Int)
  let res := BitVec.ofInt 8 t
  { res := res, fl := flagByte (res == 0) true (decide (a.toNat % 16 < b.toNat % 16)) (decide (t < 0)) }

/-- `CP8(a, b)`: the flags of SUB8, the result discarded (R208). -/
def cp8 (a b : Byte) : AluOut := { res := a, fl := (sub8 a b).fl }

/-! ### 8-bit logic -/

/-- `AND8` (R205). -/
def and8 (a b : Byte) : AluOut := { res := a &&& b, fl := flagByte (a &&& b == 0) false true false }

/-- `XOR8` (R206). -/
def xor8 (a b : Byte) : AluOut := { res := a ^^^ b, fl := flagByte (a ^^^ b == 0) false false false }

/-- `OR8` (R207). -/
def or8 (a b : Byte) : AluOut := { res := a ||| b, fl := flagByte (a ||| b == 0) false false false }

/-! ### Increment and decrement; C is kept (R234, R236) -/

/-- The result and flags of INC. -/
def inc8 (v : Byte) (c : Bool) : AluOut :=
  { res := v + 1, fl := flagByte (v + 1 == 0) false (decide (v.toNat % 16 = 0x0F)) c }

/-- The result and flags of DEC. -/
def dec8 (v : Byte) (c : Bool) : AluOut :=
  { res := v - 1, fl := flagByte (v - 1 == 0) true (decide (v.toNat % 16 = 0x00)) c }

/-! ### Decimal adjust (R238) -/

/-- `corr` of R238: the correction byte, from A and the flags before DAA. -/
def daaCorrection (a : Byte) (n h c : Bool) : Byte :=
  if n then (if h then 0x06#8 else 0x00#8) ||| (if c then 0x60#8 else 0x00#8)
  else
    (if h || decide (a.toNat % 16 > 0x09) then 0x06#8 else 0x00#8) |||
      (if c || decide (a.toNat > 0x99) then 0x60#8 else 0x00#8)

/-- The carry DAA leaves (R238). -/
def daaCarry (a : Byte) (n c : Bool) : Bool := if n then c else c || decide (a.toNat > 0x99)

/-- `DAA` (R238); N is kept. -/
def daa8 (a : Byte) (n h c : Bool) : AluOut :=
  let res := if n then a - daaCorrection a n h c else a + daaCorrection a n h c
  { res := res, fl := flagByte (res == 0) n false (daaCarry a n c) }

/-! ### 16-bit additions -/

/-- The carry out of bit 11 of a 16-bit addition (R251). -/
def carry11 (a b : Word) : Bool := decide (a.toNat % 4096 + b.toNat % 4096 > 0x0FFF)

/-- The carry out of bit 15 of a 16-bit addition (R251). -/
def carry15 (a b : Word) : Bool := decide (a.toNat + b.toNat > 0xFFFF)

/-- The carry out of bit 3 of the low-byte addition of SP and e, e unsigned (R254). -/
def carrySp3 (s : Word) (e : Byte) : Bool := decide (s.toNat % 16 + e.toNat % 16 > 0x0F)

/-- The carry out of bit 7 of the low-byte addition of SP and e, e unsigned (R254). -/
def carrySp7 (s : Word) (e : Byte) : Bool := decide (s.toNat % 256 + e.toNat > 0xFF)

/-- `(s + sext_16(e)) mod 65536` (R254). -/
def spPlus (s : Word) (e : Byte) : Word := s + sext16 e

/-- The flags of ADD SP,e and LD HL,SP+e (R254, R255): Z = N = 0. -/
def spFlags (s : Word) (e : Byte) : Byte := flagByte false false (carrySp3 s e) (carrySp7 s e)

/-! ### Rotates and shifts: the result and the bit that leaves (R275 to R282) -/

/-- A rotate or shift: its result and its `out` bit. -/
structure ShiftOut where
  res : Byte
  out : Bool
  deriving DecidableEq, Repr

/-- `RLC` (R275). -/
def rlc8 (v : Byte) : ShiftOut :=
  { res := (v <<< 1) ||| BitVec.ofNat 8 (bit (v.getLsbD 7)), out := v.getLsbD 7 }

/-- `RRC` (R276). -/
def rrc8 (v : Byte) : ShiftOut :=
  { res := (v >>> 1) ||| (BitVec.ofNat 8 (bit (v.getLsbD 0)) <<< 7), out := v.getLsbD 0 }

/-- `RL` (R277). -/
def rl8 (v : Byte) (c : Bool) : ShiftOut := { res := (v <<< 1) ||| BitVec.ofNat 8 (bit c), out := v.getLsbD 7 }

/-- `RR` (R278). -/
def rr8 (v : Byte) (c : Bool) : ShiftOut := { res := (v >>> 1) ||| (BitVec.ofNat 8 (bit c) <<< 7), out := v.getLsbD 0 }

/-- `SLA` (R279). -/
def sla8 (v : Byte) : ShiftOut := { res := v <<< 1, out := v.getLsbD 7 }

/-- `SRA` (R280). -/
def sra8 (v : Byte) : ShiftOut := { res := (v >>> 1) ||| (v &&& 0x80#8), out := v.getLsbD 0 }

/-- `SWAP`: the nibbles exchanged, C = 0 (R281). -/
def swap8 (v : Byte) : ShiftOut := { res := (v <<< 4) ||| (v >>> 4), out := false }

/-- `SRL` (R282). -/
def srl8 (v : Byte) : ShiftOut := { res := v >>> 1, out := v.getLsbD 0 }

/-- The flags of the CB forms: Z from the result, N = H = 0, C = out (43_rotate_shift_bit.md §2, D16). -/
def shiftFlags (o : ShiftOut) : Byte := flagByte (o.res == 0) false false o.out

/-- The flags of the accumulator forms: all cleared, then C = out (43_rotate_shift_bit.md §1). -/
def accRotateFlags (o : ShiftOut) : Byte := flagByte false false false o.out

/-! ### Bits -/

/-- The flags of BIT: Z the complement of the tested bit, N = 0, H = 1, C kept (R299). -/
def bitFlags (v : Byte) (b : Nat) (c : Bool) : Byte := flagByte (!v.getLsbD b) false true c

/-- `v & ~(1 << b)` (R301). -/
def resBit (v : Byte) (b : Nat) : Byte := v &&& ~~~(1#8 <<< b)

/-- `v | (1 << b)` (R303). -/
def setBit (v : Byte) (b : Nat) : Byte := v ||| (1#8 <<< b)

/-! ### Writing results -/

/-- `A <- res; F <- fl`. -/
def writeAluOut (c : Cpu) (o : AluOut) : Cpu := setF (setA c o.res) o.fl

end Sys2Proof.Machine
end

