-- ==== Sys2Proof/Machine/Memory.lean ====
section
/-! DEFINITION. Reading and writing a store, and its one canonical form. -/

namespace Sys2Proof.Machine

/-- What an unlisted index of a store reads as: 0. For VRAM, OAM and flat RAM below 0xFF00 this is the draw `INIT_RAM`
at reset (DESIGN CHOICE, log 3); for the rest of flat RAM (R54), cartridge RAM (R95) and the pixel buffer (R48) it is the
spec's own reset value. -/
def unlisted (w : Nat) : BitVec w := 0#w

/-- The value at an index. -/
def storeRead {w : Nat} (m : Store w) (a : Nat) : BitVec w :=
  match m with
  | [] => unlisted w
  | (k, v) :: t => if k = a then v else storeRead t a

/-- Put a value at an index, in canonical form: an entry that would read as an unlisted one is dropped. -/
def storeWrite {w : Nat} (m : Store w) (a : Nat) (v : BitVec w) : Store w :=
  match m with
  | [] => if v = unlisted w then [] else [(a, v)]
  | (k, u) :: t =>
    if a < k then (if v = unlisted w then (k, u) :: t else (a, v) :: (k, u) :: t)
    else if a = k then (if v = unlisted w then t else (a, v) :: t)
    else (k, u) :: storeWrite t a v

/-- Every index is at least `lo`, below `hi`, and above the one before it, and no value is the unlisted one. -/
def storeWfFrom {w : Nat} (lo hi : Nat) (m : Store w) : Bool :=
  match m with
  | [] => true
  | (k, v) :: t => decide (lo ≤ k) && decide (k < hi) && decide (v ≠ unlisted w) && storeWfFrom (k + 1) hi t

/-- The canonical form of a byte store whose indexes lie in `lo … hi - 1`. -/
def Memory.wf (lo hi : Nat) (m : Memory) : Bool := storeWfFrom lo hi m

/-- The store of a list of values at consecutive indexes from `i`. -/
def storeOfList {w : Nat} (i : Nat) (l : List (BitVec w)) : Store w :=
  match l with
  | [] => []
  | v :: t => if v = unlisted w then storeOfList (i + 1) t else (i, v) :: storeOfList (i + 1) t

/-- The canonical store of a list of entries, a later entry of an index standing over an earlier one. -/
def storeOfEntries {w : Nat} (l : List (Nat × BitVec w)) : Store w :=
  l.foldl (fun m c => storeWrite m c.1 c.2) []

end Sys2Proof.Machine
end

