-- ==== Sys2Proof/Machine/Cartridge.lean ====
section
/-! DEFINITION. The cartridge: bank arithmetic, the four mappers, and the cartridge's bus handlers (20_memory.md §4 to
§7). -/

namespace Sys2Proof.Machine

/-- The bank sizes of R93 and R94. -/
def romBankSize : Nat := 0x4000

/-- The RAM bank size of R94. -/
def ramBankSize : Nat := 0x2000

/-- `maskBank(b, n) = b mod n` (R96, D34). -/
def maskBank (b n : Nat) : Nat := b % n

/-- Bank 0 maps to bank 1 for the switchable window (R96). -/
def notBankZero (b : Nat) : Nat := if b = 0 then 1 else b

/-- The ROM buffer's size, padding included (R95). -/
def romSize (c : Cartridge) : Nat := max (c.romBanks * romBankSize) c.imageLength

/-- A byte of the ROM buffer: the image, then 0xFF (R95). -/
def romByte (c : Cartridge) (i : Nat) : Byte := if i < c.imageLength then storeRead c.rom i else 0xFF#8

/-- `effBank` of R122. -/
def mbc5EffBank (m : Mbc5) (n : Nat) : Nat := notBankZero (maskBank (m.romHi.toNat * 256 + m.romLo.toNat) n)

/-- `romOffset` of R122. -/
def mbc5RomOffset (m : Mbc5) (n : Nat) : Nat := (mbc5EffBank m n - 1) * romBankSize

/-- `ramOffset` of R124. -/
def mbc5RamOffset (m : Mbc5) (ramBanks : Nat) : Nat :=
  if m.ramEnable then (if ramBanks = 0 then 0 else maskBank m.ramBank.toNat ramBanks * ramBankSize) else 0

/-- The ROM offset that an address below 0x8000 reads (R97, R102, R112, R122, R123). -/
def romIndex (c : Cartridge) (a : Nat) : Nat :=
  if a < 0x4000 then
    match c.mapper with
    | .romOnly => a
    | .mbc1 m => if m.mode = 1 then maskBank (m.bank2.toNat * 32) c.romBanks * romBankSize + a else a
    | .mbc3 _ => a
    | .mbc5 m =>
      if m.mode = 1 then
        (mbc5EffBank m c.romBanks - mbc5EffBank m c.romBanks % 0x20) * romBankSize + a
      else a
  else
    match c.mapper with
    | .romOnly => a
    | .mbc1 m => notBankZero (maskBank (m.bank2.toNat * 32 + m.bank1.toNat) c.romBanks) * romBankSize + (a - 0x4000)
    | .mbc3 m => notBankZero (maskBank m.romBank.toNat c.romBanks) * romBankSize + (a - 0x4000)
    | .mbc5 m => mbc5RomOffset m c.romBanks + a

/-- Index `k * 0x2000 + (a - 0xA000)` of the RAM buffer if RAM is enabled and the index lies in it, else nothing (R98).
The offset of the bank is `base`. -/
def ramIndexAt (c : Cartridge) (enabled : Bool) (base a : Nat) : Option Nat :=
  if enabled ∧ 0 < c.ramBytes ∧ base + (a - 0xA000) < c.ramBytes then some (base + (a - 0xA000)) else none

/-- The RAM bank that a select value chooses; 0 when there is no bank (R103, R113). -/
def ramBankOf (sel ramBanks : Nat) : Nat := if ramBanks = 0 then 0 else maskBank sel ramBanks

/-- The byte of the RAM buffer behind an address of 0xA000–0xBFFF, if any (R97, R98, R103, R113, R124). -/
def ramIndex (c : Cartridge) (a : Nat) : Option Nat :=
  match c.mapper with
  | .romOnly => none
  | .mbc1 m =>
    ramIndexAt c m.ramEnable ((if m.mode = 1 then ramBankOf m.bank2.toNat c.ramBanks else 0) * ramBankSize) a
  | .mbc3 m =>
    if m.ramSel.toNat ≤ 7 then ramIndexAt c m.ramEnable (ramBankOf m.ramSel.toNat c.ramBanks * ramBankSize) a else none
  | .mbc5 m => ramIndexAt c m.ramEnable (mbc5RamOffset m c.ramBanks) a

/-- An MBC3 has one of its clock registers selected in the RAM window, with RAM enabled: the access the spec refuses
(R113, D38). -/
def clockSelected (c : Cartridge) : Bool :=
  match c.mapper with
  | .mbc3 m => m.ramEnable && decide (8 ≤ m.ramSel.toNat) && decide (m.ramSel.toNat ≤ 0x0C)
  | _ => false

/-- The RAM-enable pattern: low nibble 0x0A (R101, R111, R121). -/
def ramEnablePattern (v : Byte) : Bool := v &&& 0x0F#8 == 0x0A#8

/-- MBC1 control writes (R101). -/
def mbc1Write (m : Mbc1) (a : Nat) (v : Byte) : Mbc1 :=
  if a < 0x2000 then { m with ramEnable := ramEnablePattern v }
  else if a < 0x4000 then
    { m with bank1 := if v.extractLsb' 0 5 = 0#5 then 1#5 else v.extractLsb' 0 5 }
  else if a < 0x6000 then { m with bank2 := v.extractLsb' 0 2 }
  else { m with mode := v.extractLsb' 0 1 }

/-- MBC3 control writes (R111); 0x6000–0x7FFF has no effect. -/
def mbc3Write (m : Mbc3) (a : Nat) (v : Byte) : Mbc3 :=
  if a < 0x2000 then { m with ramEnable := ramEnablePattern v }
  else if a < 0x4000 then
    { m with romBank := if v.extractLsb' 0 7 = 0#7 then 1#7 else v.extractLsb' 0 7 }
  else if a < 0x6000 then { m with ramSel := v.extractLsb' 0 4 }
  else m

/-- MBC5 control writes (R121). -/
def mbc5Write (m : Mbc5) (a : Nat) (v : Byte) : Mbc5 :=
  if a < 0x2000 then { m with ramEnable := ramEnablePattern v }
  else if a < 0x3000 then { m with romLo := v }
  else if a < 0x4000 then { m with romHi := v.extractLsb' 0 1 }
  else if a < 0x6000 then { m with ramBank := v.extractLsb' 0 4 }
  else { m with mode := v.extractLsb' 0 1 }

/-- A write of 0x0000–0x7FFF: a mapper control write, which never changes ROM (R82, R97). -/
def mapperWrite (m : Mapper) (a : Nat) (v : Byte) : Mapper :=
  match m with
  | .romOnly => .romOnly
  | .mbc1 r => .mbc1 (mbc1Write r a v)
  | .mbc3 r => .mbc3 (mbc3Write r a v)
  | .mbc5 r => .mbc5 (mbc5Write r a v)

/-- The cartridge's read handler, for 0x0000–0x7FFF and 0xA000–0xBFFF. -/
def cartRead (c : Cartridge) (a : Word) : Result Byte :=
  if a.toNat < 0x8000 then .next (romByte c (romIndex c a.toNat))
  else if clockSelected c then .refused (.mbc3ClockAccess a)
  else
    match ramIndex c a.toNat with
    | some i => .next (storeRead c.ram i)
    | none => .next 0xFF#8

/-- The cartridge's write handler. -/
def cartWrite (c : Cartridge) (a : Word) (v : Byte) : Result Cartridge :=
  if a.toNat < 0x8000 then .next { c with mapper := mapperWrite c.mapper a.toNat v }
  else if clockSelected c then .refused (.mbc3ClockAccess a)
  else
    match ramIndex c a.toNat with
    | some i => .next { c with ram := storeWrite c.ram i v }
    | none => .next c

end Sys2Proof.Machine
end

