-- ==== Sys2Proof/Machine/Joypad.lean ====
section
/-! DEFINITION. The joypad's register and latch (60_exceptions.md §7). -/

namespace Sys2Proof.Machine

/-- The nibble a key group drives: a pressed key clears its bit (R481). -/
def groupNibble (g : KeyGroup) : BitVec 4 :=
  BitVec.ofBool (!g.key3) ++ BitVec.ofBool (!g.key2) ++ BitVec.ofBool (!g.key1) ++ BitVec.ofBool (!g.key0)

/-- `low` of R481: the key lines of the selected groups. -/
def joypadLow (j : Joypad) : BitVec 4 :=
  (if j.select.getLsbD 0 then 0xF#4 else groupNibble j.cross) &&&
    (if j.select.getLsbD 1 then 0xF#4 else groupNibble j.buttons)

/-- P1 as read: `0xC0 | (P1[5:4] << 4) | low` (R481). -/
def joypadRead (j : Joypad) : Byte := 3#2 ++ j.select ++ joypadLow j

/-- A P1 write stores bits 5..4 (R481). -/
def joypadWrite (j : Joypad) (v : Byte) : Joypad := { j with select := v.extractLsb' 4 2 }

/-- The P1 bit of a direction key (R480). -/
def crossBit (k : CrossKey) : Nat :=
  match k with
  | .right => 0
  | .left => 1
  | .up => 2
  | .down => 3

/-- The P1 bit of a button (R480). -/
def buttonBit (k : ButtonKey) : Nat :=
  match k with
  | .a => 0
  | .b => 1
  | .select => 2
  | .start => 3

/-- Latch the key of P1 bit `i`. -/
def setKey (g : KeyGroup) (i : Nat) (down : Bool) : KeyGroup :=
  match i with
  | 0 => { g with key0 := down }
  | 1 => { g with key1 := down }
  | 2 => { g with key2 := down }
  | _ => { g with key3 := down }

/-- Some line goes from 1 to 0 between two values of `low` (R482). -/
def lineFell (before after : BitVec 4) : Bool := before &&& ~~~after != 0#4

end Sys2Proof.Machine
end

