-- ==== Sys2Proof/Machine/Ppu.lean ====
section
/-! DEFINITION. The PPU (60_exceptions.md §6): its clock, the background pixel, and its bus handlers. -/

namespace Sys2Proof.Machine

/-- `RequestInterrupt(i)`: `IF <- IF | (1 << i)` (R401). -/
def requestInterrupt (i : Nat) (ifReg : BitVec 5) : BitVec 5 := ifReg ||| (1#5 <<< i)

/-- The clocks of a line (R6). -/
def clocksPerLine : Nat := 456

/-- The lines of a frame (R462). -/
def linesPerFrame : Nat := 154

/-- The clocks of a frame: 154 × 456 (R462). -/
def clocksPerFrame : Nat := 70224

/-- The mode number that STAT bits 1..0 read (R42). -/
def modeCode (m : PpuMode) : BitVec 2 :=
  match m with
  | .hblank => 0#2
  | .vblank => 1#2
  | .oamRead => 2#2
  | .vramRead => 3#2

/-- LCDC bit 7: the display is on (R41). -/
def lcdOn (p : Ppu) : Bool := p.lcdc.getLsbD 7

/-! ### STAT interrupt sources (R465) -/

/-- The STAT enable bit of a source: m0 bit 3, m1 bit 4, m2 bit 5, lyc bit 6. -/
def statEnabled (p : Ppu) (src : StatSource) : Bool :=
  match src with
  | .m0 => p.statEnables.getLsbD 0
  | .m1 => p.statEnables.getLsbD 1
  | .m2 => p.statEnables.getLsbD 2
  | .lyc => p.statEnables.getLsbD 3

/-- Membership in `statFired`. -/
def hasFired (f : StatFired) (src : StatSource) : Bool :=
  match src with
  | .m0 => f.m0
  | .m1 => f.m1
  | .m2 => f.m2
  | .lyc => f.lyc

/-- `statFired ∪ {s}`. -/
def markFired (f : StatFired) (src : StatSource) : StatFired :=
  match src with
  | .m0 => { f with m0 := true }
  | .m1 => { f with m1 := true }
  | .m2 => { f with m2 := true }
  | .lyc => { f with lyc := true }

/-- `StatSource(s)` (R460): the PPU and IF after it. -/
def statSource (src : StatSource) (p : Ppu) (ifReg : BitVec 5) : Ppu × BitVec 5 :=
  if statEnabled p src && !hasFired p.statFired src then
    ({ p with statFired := markFired p.statFired src }, requestInterrupt 1 ifReg)
  else (p, ifReg)

/-- `EnterMode(m, s)` (R460). -/
def enterMode (m : PpuMode) (src : Option StatSource) (p : Ppu) (ifReg : BitVec 5) : Ppu × BitVec 5 :=
  if p.mode = m then (p, ifReg)
  else
    match src with
    | some s => statSource s { p with mode := m } ifReg
    | none => ({ p with mode := m }, ifReg)

/-! ### The background pixel (R469) -/

/-- The PPU's own read of a VRAM byte: no `Tick()`, no lockout. -/
def vramByte (p : Ppu) (a : Nat) : Byte := storeRead p.vram a

/-- The address of tile `idx`: `0x8000 + 16 * idx`, or `0x9000 + 16 * sext(idx)`. -/
def tileAddress (p : Ppu) (idx : Byte) : Nat :=
  if p.lcdc.getLsbD 4 then 0x8000 + 16 * idx.toNat else (0x9000 + 16 * idx.toInt).toNat

/-- The shade of a colour index through a palette: `(BGP >> (2 * i)) & 3` (R46). -/
def shade (bgp : Byte) (colour : Nat) : BitVec 2 := bgp.extractLsb' (2 * colour) 2

/-- `BgPixel(x)` (R469). -/
def bgPixel (p : Ppu) (x : Nat) : BitVec 2 :=
  if p.lcdc.getLsbD 0 then
    let px := (x + p.scx.toNat) % 256
    let py := (p.ly.toNat + p.scy.toNat) % 256
    let map := if p.lcdc.getLsbD 3 then 0x9C00 else 0x9800
    let tile := tileAddress p (vramByte p (map + 32 * (py / 8) + px / 8))
    let lo := vramByte p (tile + 2 * (py % 8))
    let hi := vramByte p (tile + 2 * (py % 8) + 1)
    let b := 7 - px % 8
    shade p.bgp ((hi.getLsbD b).toNat * 2 + (lo.getLsbD b).toNat)
  else 0#2

/-- The index of `pixels[x][y]` in the column-major buffer (R48). -/
def pixelIndex (x y : Nat) : Nat := x * 144 + y

/-- The line clock at which column 0 is resolved (R468). -/
def firstColumnClock (p : Ppu) : Nat := 92 + p.mode3Scx.toNat

/-- The column resolution of R460 and R468. -/
def resolveColumn (p : Ppu) : Ppu :=
  if p.mode = .vramRead ∧ firstColumnClock p ≤ p.lineClock ∧ p.lineClock < firstColumnClock p + 160 then
    let x := p.lineClock - firstColumnClock p
    { p with pixels := storeWrite p.pixels (pixelIndex x p.line) (bgPixel p x) }
  else p

/-! ### The PPU clock (R460) -/

/-- A PPU clock with the display off (R466). -/
def ppuOffClock (p : Ppu) : Ppu :=
  let q := if p.lcdWasOn then
    { p with line := 0, lineClock := 0, ly := 0, mode := .hblank, offClock := 0, lcdWasOn := false } else p
  let r := if q.offClock + 1 = clocksPerFrame then { q with offClock := 0, endOfFrame := true }
    else { q with offClock := q.offClock + 1 }
  { r with coincidence := decide (r.ly = r.lyc) }

/-- The first clock with the display on starts line 0 in mode 2 (R466). -/
def ppuTurnOn (p : Ppu) : Ppu :=
  if p.lcdWasOn then p
  else { p with line := 0, lineClock := 0, ly := 0, mode := .oamRead, lcdWasOn := true, statFired := .empty }

/-- `statFired` is emptied at line clock 0 (R465). -/
def ppuLineStart (p : Ppu) : Ppu := if p.lineClock = 0 then { p with statFired := .empty } else p

/-- The mode events of a visible line before the column (R461). -/
def ppuEnterScan (p : Ppu) (f : BitVec 5) : Ppu × BitVec 5 :=
  if p.lineClock = 0 then enterMode .oamRead (some .m2) p f
  else if p.lineClock = 80 then
    let r := enterMode .vramRead none p f
    ({ r.1 with mode3Scx := r.1.scx.extractLsb' 0 3 }, r.2)
  else (p, f)

/-- The start of HBLANK, after the column (R461). -/
def ppuEnterHblank (p : Ppu) (f : BitVec 5) : Ppu × BitVec 5 :=
  if p.lineClock = 252 + p.mode3Scx.toNat then enterMode .hblank (some .m0) p f else (p, f)

/-- The start of VBLANK (R467). -/
def ppuEnterVblank (p : Ppu) (f : BitVec 5) : Ppu × BitVec 5 :=
  let r := enterMode .vblank (some .m1) p f
  ({ r.1 with endOfFrame := true }, requestInterrupt 0 r.2)

/-- The events of one line clock (R460). -/
def ppuLineEvents (p : Ppu) (f : BitVec 5) : Ppu × BitVec 5 :=
  if p.line < 144 then
    let r := ppuEnterScan p f
    ppuEnterHblank (resolveColumn r.1) r.2
  else if p.line = 144 ∧ p.lineClock = 0 then ppuEnterVblank p f
  else (p, f)

/-- LY reads 0 from clock `LINE153_LY0_AT` of line 153 (R463). -/
def ppuLine153 (ly0At : Nat) (p : Ppu) : Ppu :=
  if p.line = 153 ∧ p.lineClock = ly0At then { p with ly := 0 } else p

/-- The coincidence flag and its source (R464). -/
def ppuCoincidence (p : Ppu) (f : BitVec 5) : Ppu × BitVec 5 :=
  let c := decide (p.ly = p.lyc)
  let r := if c && !p.coincidence then statSource .lyc p f else (p, f)
  ({ r.1 with coincidence := c }, r.2)

/-- The line clock and the line advance (R460, R462). -/
def ppuAdvance (p : Ppu) : Ppu :=
  if p.lineClock + 1 = clocksPerLine then
    let l := (p.line + 1) % linesPerFrame
    { p with lineClock := 0, line := l, ly := BitVec.ofNat 8 l }
  else { p with lineClock := p.lineClock + 1 }

/-- A PPU clock with the display on. -/
def ppuOnClock (ly0At : Nat) (p : Ppu) (f : BitVec 5) : Ppu × BitVec 5 :=
  let r := ppuLineEvents (ppuLineStart (ppuTurnOn p)) f
  let c := ppuCoincidence (ppuLine153 ly0At r.1) r.2
  (ppuAdvance c.1, c.2)

/-- `PPUClock()` (R460): the PPU and IF after one system clock. -/
def ppuClock (ly0At : Nat) (p : Ppu) (f : BitVec 5) : Ppu × BitVec 5 :=
  if lcdOn p then ppuOnClock ly0At p f else (ppuOffClock p, f)

/-- `PPU.Update(clocks)` (R460). -/
def ppuUpdate (ly0At clocks : Nat) (p : Ppu) (f : BitVec 5) : Ppu × BitVec 5 :=
  match clocks with
  | 0 => (p, f)
  | n + 1 =>
    let r := ppuClock ly0At p f
    ppuUpdate ly0At n r.1 r.2

/-! ### Bus access (R470, R471) -/

/-- The CPU is locked out of VRAM (R470). -/
def vramLocked (cfg : Config) (p : Ppu) : Bool := cfg.ppuAccessLockout && lcdOn p && decide (p.mode = .vramRead)

/-- The CPU is locked out of OAM (R470). -/
def oamLocked (cfg : Config) (p : Ppu) : Bool :=
  cfg.ppuAccessLockout && lcdOn p && decide (p.mode = .oamRead ∨ p.mode = .vramRead)

/-- STAT as read: `0x80 | enables << 3 | coincidence << 2 | mode` (R42). -/
def statByte (p : Ppu) : Byte := 1#1 ++ p.statEnables ++ BitVec.ofBool p.coincidence ++ modeCode p.mode

/-- Reads of 0xFF40–0xFF4B (R41 to R47). -/
def ppuRegRead (p : Ppu) (a : Word) : Byte :=
  if a = 0xFF40#16 then p.lcdc
  else if a = 0xFF41#16 then statByte p
  else if a = 0xFF42#16 then p.scy
  else if a = 0xFF43#16 then p.scx
  else if a = 0xFF44#16 then p.ly
  else if a = 0xFF45#16 then p.lyc
  else if a = 0xFF47#16 then p.bgp
  else if a = 0xFF48#16 then p.obp0
  else if a = 0xFF49#16 then p.obp1
  else if a = 0xFF4A#16 then p.wy
  else p.wx

/-- Writes of 0xFF40–0xFF4B: STAT stores bits 6..3 only, LY discards (R42, R44, R471). -/
def ppuRegWrite (p : Ppu) (a : Word) (v : Byte) : Ppu :=
  if a = 0xFF40#16 then { p with lcdc := v }
  else if a = 0xFF41#16 then { p with statEnables := v.extractLsb' 3 4 }
  else if a = 0xFF42#16 then { p with scy := v }
  else if a = 0xFF43#16 then { p with scx := v }
  else if a = 0xFF44#16 then p
  else if a = 0xFF45#16 then { p with lyc := v }
  else if a = 0xFF47#16 then { p with bgp := v }
  else if a = 0xFF48#16 then { p with obp0 := v }
  else if a = 0xFF49#16 then { p with obp1 := v }
  else if a = 0xFF4A#16 then { p with wy := v }
  else { p with wx := v }

/-- The PPU's read handler. -/
def ppuRead (cfg : Config) (p : Ppu) (a : Word) : Byte :=
  if a.toNat < 0xA000 then (if vramLocked cfg p then 0xFF#8 else storeRead p.vram a.toNat)
  else if a.toNat < 0xFF00 then (if oamLocked cfg p then 0xFF#8 else storeRead p.oam a.toNat)
  else ppuRegRead p a

/-- The PPU's write handler. -/
def ppuWrite (cfg : Config) (p : Ppu) (a : Word) (v : Byte) : Ppu :=
  if a.toNat < 0xA000 then (if vramLocked cfg p then p else { p with vram := storeWrite p.vram a.toNat v })
  else if a.toNat < 0xFF00 then (if oamLocked cfg p then p else { p with oam := storeWrite p.oam a.toNat v })
  else ppuRegWrite p a v

end Sys2Proof.Machine
end

