-- ==== Sys2Proof/Machine/Timer.lean ====
section
/-! DEFINITION. The timer and divider (60_exceptions.md §5), and the timer's bus handlers. -/

namespace Sys2Proof.Machine

/-- The divider bit that TAC[1:0] selects: 9, 3, 5, 7 (R39). -/
def timerBit (tac : BitVec 3) : Nat :=
  match tac.toNat % 4 with
  | 0 => 9
  | 1 => 3
  | 2 => 5
  | _ => 7

/-- The edge detector's signal: the selected bit of the counter, and TAC bit 2 (R442). -/
def timerSignal (t : Timer) : Bool := t.divCounter.getLsbD (timerBit t.tac) && t.tac.getLsbD 2

/-- `IncrementTIMA()` (R440). -/
def incrementTima (t : Timer) : Timer :=
  if t.tima = 0xFF#8 then { t with tima := 0x00#8, pendingOverflow := true } else { t with tima := t.tima + 1 }

/-- `EdgeCheck()` (R440, R442). -/
def edgeCheck (t : Timer) : Timer :=
  let signal := timerSignal t
  let t' := if t.edgeMemo && !signal then incrementTima t else t
  { t' with edgeMemo := signal }

/-- The reload that ends a pending overflow (R443). -/
def timerReload (t : Timer) : Timer :=
  if t.pendingOverflow then { t with tima := t.tma, pendingOverflow := false } else t

/-- `Timer.Update(clocks)` (R440), less its interrupt request, which is `timerRequests`. -/
def timerUpdate (clocks : Nat) (t : Timer) : Timer :=
  let r := timerReload t
  edgeCheck { r with divCounter := r.divCounter + BitVec.ofNat 16 clocks }

/-- `Timer.Update` raises the timer interrupt exactly when it ends a pending overflow (R443). -/
def timerRequests (t : Timer) : Bool := t.pendingOverflow

/-- Reads of 0xFF04–0xFF07 (R36 to R39). -/
def timerRead (t : Timer) (a : Word) : Byte :=
  if a = 0xFF04#16 then hiByte t.divCounter
  else if a = 0xFF05#16 then t.tima
  else if a = 0xFF06#16 then t.tma
  else 0x1F#5 ++ t.tac

/-- Writes of 0xFF04–0xFF07: DIV (R444), TIMA (R445), TMA (R446), TAC (R447). -/
def timerWrite (t : Timer) (a : Word) (v : Byte) : Timer :=
  if a = 0xFF04#16 then edgeCheck { t with divCounter := 0 }
  else if a = 0xFF05#16 then (if t.pendingOverflow then t else { t with tima := v })
  else if a = 0xFF06#16 then (if t.pendingOverflow then { t with tma := v, tima := v } else { t with tma := v })
  else { t with tac := v.extractLsb' 0 3 }

end Sys2Proof.Machine
end

