-- ==== Sys2Proof/Machine/Bus.lean ====
section
/-! DEFINITION. The MMIO router (20_memory.md §1) and the byte a bus address stores. -/

namespace Sys2Proof.Machine

/-- The components that own address ranges (R72). -/
inductive Component
  | cartridge | ppu | echo | joypad | serial | timer | interruptController
  deriving DecidableEq, Repr

/-- A registered range: low address, high address inclusive, owner (R72). -/
structure MmioRange where
  low : Nat
  high : Nat
  owner : Component
  deriving DecidableEq, Repr

/-- The range table of this block, in registration order (R72). -/
def rangeTable : List MmioRange :=
  [ ⟨0x0000, 0x7FFF, .cartridge⟩, ⟨0xA000, 0xBFFF, .cartridge⟩, ⟨0x8000, 0x9FFF, .ppu⟩, ⟨0xE000, 0xFDFF, .echo⟩,
    ⟨0xFE00, 0xFE9F, .ppu⟩, ⟨0xFF00, 0xFF00, .joypad⟩, ⟨0xFF01, 0xFF02, .serial⟩, ⟨0xFF04, 0xFF07, .timer⟩,
    ⟨0xFF0F, 0xFF0F, .interruptController⟩, ⟨0xFF40, 0xFF45, .ppu⟩, ⟨0xFF47, 0xFF4B, .ppu⟩,
    ⟨0xFFFF, 0xFFFF, .interruptController⟩ ]

/-- The owner of an address: the first range that holds it wins (R72, R73). -/
def routeIn (table : List MmioRange) (a : Nat) : Option Component :=
  match table with
  | [] => none
  | r :: t => if r.low ≤ a ∧ a ≤ r.high then some r.owner else routeIn t a

/-- The owner of a bus address in this block. -/
def route (a : Word) : Option Component := routeIn rangeTable a.toNat

/-- IF and IE read with their upper 3 bits set (R34, R35). -/
def intrRead (i : Intr) (a : Word) : Byte := if a = 0xFF0F#16 then 7#3 ++ i.ifReg else 7#3 ++ i.ieReg

/-- IF and IE store bits 4..0 (R34, R35). -/
def intrWrite (i : Intr) (a : Word) (v : Byte) : Intr :=
  if a = 0xFF0F#16 then { i with ifReg := v.extractLsb' 0 5 } else { i with ieReg := v.extractLsb' 0 5 }

/-- SB and SC read back what was stored (R490). -/
def serialRead (p : Serial) (a : Word) : Byte := if a = 0xFF01#16 then p.sb else p.sc

/-- SB and SC store every byte, and no transfer starts (R490). -/
def serialWrite (p : Serial) (a : Word) (v : Byte) : Serial :=
  if a = 0xFF01#16 then { p with sb := v } else { p with sc := v }

/-- The flat address behind an echo address: `a - 0x2000` (R77). -/
def echoTarget (a : Nat) : Nat := a - 0x2000

/-- `MemRead(a, 1)` (R73). Every component handles every address of its ranges, so the fallback serves exactly the
addresses no range claims. A read changes nothing (R82). -/
def memRead (s : State) (a : Word) : Result Byte :=
  match route a with
  | some .cartridge => cartRead s.cart a
  | some .ppu => .next (ppuRead s.config s.ppu a)
  | some .echo => .next (storeRead s.flat (echoTarget a.toNat))
  | some .joypad => .next (joypadRead s.joypad)
  | some .serial => .next (serialRead s.serial a)
  | some .timer => .next (timerRead s.timer a)
  | some .interruptController => .next (intrRead s.intr a)
  | none => .next (if 0x8000 ≤ a.toNat then storeRead s.flat a.toNat else 0x00#8)

/-- `MemWrite(a, 1, v)` (R74). -/
def memWrite (s : State) (a : Word) (v : Byte) : Result State :=
  match route a with
  | some .cartridge =>
    match cartWrite s.cart a v with
    | .next c => .next { s with cart := c }
    | .fault r => .fault r
    | .refused r => .refused r
  | some .ppu => .next { s with ppu := ppuWrite s.config s.ppu a v }
  | some .echo => .next { s with flat := storeWrite s.flat (echoTarget a.toNat) v }
  | some .joypad => .next { s with joypad := joypadWrite s.joypad v }
  | some .serial => .next { s with serial := serialWrite s.serial a v }
  | some .timer => .next { s with timer := timerWrite s.timer a v }
  | some .interruptController => .next { s with intr := intrWrite s.intr a v }
  | none => .next (if 0x8000 ≤ a.toNat then { s with flat := storeWrite s.flat a.toNat v } else s)

/-- The accesses the spec refuses: the RAM window of an MBC3 with a clock register selected and RAM enabled (R113). No
other access faults or is refused on its address (R126). -/
def accessible (s : State) (a : Word) : Bool :=
  !(clockSelected s.cart && decide (0xA000 ≤ a.toNat) && decide (a.toNat < 0xC000))

/-! ### The byte behind an address -/

/-- Where a byte of plain memory is kept. -/
inductive Loc
  /-- A byte of the ROM buffer. -/
  | rom (i : Nat)
  /-- A byte of cartridge RAM. -/
  | cartRam (i : Nat)
  /-- A byte of VRAM, by bus address. -/
  | vram (a : Nat)
  /-- A byte of OAM, by bus address. -/
  | oam (a : Nat)
  /-- A byte of flat RAM, by bus address. -/
  | flat (a : Nat)
  deriving DecidableEq, Repr

/-- The plain-memory byte a bus address names at this moment: through the current banks (R96 to R124) and the echo
aliaser (R77). None for a device register and for a RAM window with no RAM behind it. -/
def locOf (s : State) (a : Word) : Option Loc :=
  match route a with
  | some .cartridge =>
    if a.toNat < 0x8000 then some (.rom (romIndex s.cart a.toNat))
    else if clockSelected s.cart then none
    else
      match ramIndex s.cart a.toNat with
      | some i => some (.cartRam i)
      | none => none
  | some .ppu =>
    if a.toNat < 0xA000 then some (.vram a.toNat) else if a.toNat < 0xFF00 then some (.oam a.toNat) else none
  | some .echo => some (.flat (echoTarget a.toNat))
  | some .joypad => none
  | some .serial => none
  | some .timer => none
  | some .interruptController => none
  | none => if 0x8000 ≤ a.toNat then some (.flat a.toNat) else none

/-- The stored byte at a place of plain memory. -/
def readLoc (s : State) (l : Loc) : Byte :=
  match l with
  | .rom i => romByte s.cart i
  | .cartRam i => storeRead s.cart.ram i
  | .vram a => storeRead s.ppu.vram a
  | .oam a => storeRead s.ppu.oam a
  | .flat a => storeRead s.flat a

/-- The place of plain memory that a store at `a` changes, if any: a store below 0x8000 changes no memory (R82), and a
store under lockout is discarded (R470). -/
def storedLoc (s : State) (a : Word) : Option Loc :=
  match locOf s a with
  | some (.rom _) => none
  | some (.vram b) => if vramLocked s.config s.ppu then none else some (.vram b)
  | some (.oam b) => if oamLocked s.config s.ppu then none else some (.oam b)
  | l => l

end Sys2Proof.Machine
end

