-- ==== Sys2Proof/Machine/Ops.lean ====
section
/-! DEFINITION. The named operations every meaning is built from: time, the bus, fetching, the stack, interrupt entry and
the return from it, the fault, and the service call that ends a step (R10, R171 to R176, R410, R432). -/

namespace Sys2Proof.Machine

/-! ### Sequencing -/

/-- Go on with an operation's answer; a fault or a refusal ends the step. -/
def andThen {α β : Type} (x : Result α) (f : α → Result β) : Result β :=
  match x with
  | .next a => f a
  | .fault r => .fault r
  | .refused r => .refused r

/-- Replace the CPU. -/
def withCpu (s : State) (c : Cpu) : State := { s with cpu := c }

/-- `PC <- w`. -/
def setPc (s : State) (w : Word) : State := { s with cpu := { s.cpu with pc := w } }

/-- `SP <- w`. -/
def setSp (s : State) (w : Word) : State := { s with cpu := { s.cpu with sp := w } }

/-! ### Time (R172) -/

/-- `Tick()`: the timer's update, then four PPU clocks, then the observational clock. -/
def tick (s : State) : State :=
  let f := if timerRequests s.timer then requestInterrupt 2 s.intr.ifReg else s.intr.ifReg
  let r := ppuUpdate s.config.line153Ly0At 4 s.ppu f
  { s with
    timer := timerUpdate 4 s.timer
    ppu := r.1
    intr := { s.intr with ifReg := r.2 }
    clock := s.clock + 4 }

/-! ### Bus cycles (R10) -/

/-- `Rd(a)`: the cycle's `Tick()`, then the read. -/
def rd (a : Word) (s : State) : Result (Byte × State) :=
  andThen (memRead (tick s) a) fun v => .next (v, tick s)

/-- `Wr(a, v)`: the cycle's `Tick()`, then the write. -/
def wr (a : Word) (v : Byte) (s : State) : Result State := memWrite (tick s) a v

/-- `Idle()`: a cycle with no bus access. -/
def idle (s : State) : State := tick s

/-- `Fetch8()`. -/
def fetch8 (s : State) : Result (Byte × State) :=
  andThen (rd s.cpu.pc s) fun p => .next (p.1, setPc p.2 (p.2.cpu.pc + 1))

/-- `Fetch16()`: low byte first. -/
def fetch16 (s : State) : Result (Word × State) :=
  andThen (fetch8 s) fun l =>
    andThen (fetch8 l.2) fun h => .next (joinBytes h.1 l.1, h.2)

/-! ### The stack (R10, R78) -/

/-- One push of a byte: pre-decrement, then write. -/
def pushByte (v : Byte) (s : State) : Result State := wr (s.cpu.sp - 1) v (setSp s (s.cpu.sp - 1))

/-- One pop of a byte: read, then post-increment. -/
def popByte (s : State) : Result (Byte × State) :=
  andThen (rd s.cpu.sp s) fun p => .next (p.1, setSp p.2 (p.2.cpu.sp + 1))

/-- `Push16(w)`: high byte first. -/
def push16 (w : Word) (s : State) : Result State :=
  andThen (pushByte (hiByte w) s) fun t => pushByte (loByte w) t

/-- `Pop16()`: low byte first. -/
def pop16 (s : State) : Result (Word × State) :=
  andThen (popByte s) fun l =>
    andThen (popByte l.2) fun h => .next (joinBytes h.1 l.1, h.2)

/-! ### Fetching an instruction (R171 to R175, R178) -/

/-- The opcode fetch: one cycle at PC, then PC advances unless the double fetch is armed, which is thereby consumed. -/
def fetchOpcode (s : State) : Result (Byte × State) :=
  andThen (rd s.cpu.pc s) fun p =>
    let c := p.2.cpu
    .next (p.1, withCpu p.2 { c with
      pc := if c.haltBugArmed then c.pc else c.pc + 1
      haltBugArmed := false
      opcodePc := c.pc })

/-- The whole fetch of an instruction. Every rule's body begins with its operand fetches, so they are done here, each in
its own cycle: the CB byte after 0xCB (R174), or the operand bytes of the format (R155). STOP's second byte is not
fetched (R381). DEDUCED (log 7). -/
def fetchInstr (s : State) : Result (Instr × State) :=
  andThen (fetchOpcode s) fun o =>
    if o.1 = 0xCB#8 then andThen (fetch8 o.2) fun p => .next (decodeCb p.1, p.2)
    else
      match operandBytes o.1 with
      | 0 => .next (decodeOp o.1 0 0, o.2)
      | 1 => andThen (fetch8 o.2) fun p => .next (decodeOp o.1 p.1 0, p.2)
      | _ => andThen (fetch16 o.2) fun p => .next (decodeOp o.1 0 p.1, p.2)

/-! ### Interrupts (R400 to R421) -/

/-- `pending = IF & IE & 0x1F` (R402). -/
def pending (i : Intr) : BitVec 5 := i.ifReg &&& i.ieReg

/-- The index of the lowest set bit of a nonzero pending value (R402). -/
def lowestBit (p : BitVec 5) : Nat :=
  if p.getLsbD 0 then 0 else if p.getLsbD 1 then 1 else if p.getLsbD 2 then 2 else if p.getLsbD 3 then 3 else 4

/-- `0x0040 + 8 * i` (R400, R411). -/
def vector (i : Nat) : Word := BitVec.ofNat 16 (0x40 + 8 * i)

/-- `IME <- 0; IF <- IF & ~(1 << i)`: what entry does before its cycles (R410, R531). -/
def acceptInterrupt (i : Nat) (s : State) : State :=
  { s with cpu := { s.cpu with ime := false }, intr := { s.intr with ifReg := s.intr.ifReg &&& ~~~(1#5 <<< i) } }

/-- The wake from HALT at the end of entry: one more cycle, then `halted <- 0` (R412). -/
def wakeAfterEntry (s : State) : State :=
  if s.cpu.halted then
    let t := idle s
    withCpu t { t.cpu with halted := false }
  else s

/-- Taking interrupt i: IME and the IF bit cleared, two idle cycles, PC pushed, one idle cycle, PC at the vector, and the
wake from HALT (R410 to R412). -/
def enterInterrupt (i : Nat) (s : State) : Result State :=
  let t := idle (idle (acceptInterrupt i s))
  andThen (push16 t.cpu.pc t) fun u => .next (wakeAfterEntry (setPc (idle u) (vector i)))

/-- The return from an interrupt: PC popped, one idle cycle, IME set at once (R360, R421). -/
def returnFromInterrupt (s : State) : Result State :=
  andThen (pop16 s) fun p =>
    let t := idle (setPc p.2 p.1)
    .next (withCpu t { t.cpu with ime := true })

/-- When a wake without service arms the double fetch (R414). -/
def armsHaltBug (mode : HaltBugMode) (fresh : Bool) : Bool :=
  match mode with
  | .docLiteral => !fresh
  | .hardware => fresh

/-- The wake with IME clear: one cycle, no service (R413). -/
def wakeWithoutService (s : State) : State :=
  let t := idle s
  withCpu t { t.cpu with
    halted := false
    haltBugArmed := armsHaltBug t.config.haltBugMode t.cpu.haltFresh }

/-- The end of every service call: `haltFresh <- 0` and EI's schedule (R415, R417). -/
def endServiceCall (s : State) : State :=
  withCpu s { s.cpu with
    haltFresh := false
    ime := s.cpu.ime || s.cpu.eiScheduled
    eiScheduled := false }

/-- `InterruptServiceRoutine()` (R410). -/
def interruptServiceRoutine (s : State) : Result State :=
  if pending s.intr = 0#5 then .next (endServiceCall s)
  else if s.cpu.ime then
    andThen (enterInterrupt (lowestBit (pending s.intr)) s) fun t => .next (endServiceCall t)
  else if s.cpu.halted then .next (endServiceCall (wakeWithoutService s))
  else .next (endServiceCall s)

/-! ### The fault (R386, R432) -/

/-- `fault <- UnknownOpcode(op, pc0)`; nothing else changes. -/
def recordUnknownOpcode (op : Byte) (s : State) : State :=
  { s with fault := some (.unknownOpcode op s.cpu.opcodePc) }

/-- What follows an instruction in its step: the service call, unless the step recorded a fault (R171). -/
def finishStep (s : State) : Result State :=
  match s.fault with
  | some _ => .next s
  | none => interruptServiceRoutine s

/-- A halted step's own part: one idle cycle, no fetch (R176). -/
def haltedCycle (s : State) : State := idle s

end Sys2Proof.Machine
end

