-- ==== Sys2Proof/Machine/Alu16.lean ====
section
/-! DEFINITION. 16-bit arithmetic (42_alu16.md). -/

namespace Sys2Proof.Machine

/-- `ADD HL,dd` (R251): Z kept. -/
def execAddHlDd (dd : Pair) (s : State) : Result State :=
  let t := idle s
  let a := t.cpu.hl
  let b := getPair t.cpu dd
  let c := { t.cpu with hl := a + b }
  .next (withCpu t (setF c (flagByte (flagZ t.cpu) false (carry11 a b) (carry15 a b))))

/-- `INC dd` (R252): no flags. -/
def execIncDd (dd : Pair) (s : State) : Result State :=
  let t := idle s
  .next (withCpu t (setPair t.cpu dd (getPair t.cpu dd + 1)))

/-- `DEC dd` (R253): no flags. -/
def execDecDd (dd : Pair) (s : State) : Result State :=
  let t := idle s
  .next (withCpu t (setPair t.cpu dd (getPair t.cpu dd - 1)))

/-- `ADD SP,e` (R254). -/
def execAddSpE (e : Byte) (s : State) : Result State :=
  let t := idle (idle s)
  let c := { t.cpu with sp := spPlus t.cpu.sp e }
  .next (withCpu t (setF c (spFlags t.cpu.sp e)))

/-- `LD HL,SP+e` (R255). -/
def execLdHlSpE (e : Byte) (s : State) : Result State :=
  let t := idle s
  let c := { t.cpu with hl := spPlus t.cpu.sp e }
  .next (withCpu t (setF c (spFlags t.cpu.sp e)))

end Sys2Proof.Machine
end

