-- ==== Sys2Proof/Machine/Control.lean ====
section
/-! DEFINITION. Control transfer (45_control.md). Operands are fetched before the condition is tested (R179). -/

namespace Sys2Proof.Machine

/-- `Idle(); PC <- target`. -/
def jumpTo (target : Word) (s : State) : Result State := .next (setPc (idle s) target)

/-- The target of a relative jump: PC, the address after the instruction, plus the displacement (R354). -/
def relTarget (pc : Word) (e : Byte) : Word := pc + sext16 e

/-- `Idle(); Push16(PC); PC <- target` (R356, R361). -/
def callTo (target : Word) (s : State) : Result State :=
  let t := idle s
  andThen (push16 t.cpu.pc t) fun u => .next (setPc u target)

/-- `PC <- Pop16(); Idle()` (R358). -/
def returnTo (s : State) : Result State := andThen (pop16 s) fun p => .next (idle (setPc p.2 p.1))

/-- `JP nn` (R351). -/
def execJpNn (nn : Word) (s : State) : Result State := jumpTo nn s

/-- `JP cc,nn` (R352). -/
def execJpCcNn (cc : Cond) (nn : Word) (s : State) : Result State :=
  if condHolds s.cpu cc then jumpTo nn s else .next s

/-- `JP HL` (R353). -/
def execJpHl (s : State) : Result State := .next (setPc s s.cpu.hl)

/-- `JR e` (R354). -/
def execJrE (e : Byte) (s : State) : Result State := jumpTo (relTarget s.cpu.pc e) s

/-- `JR cc,e` (R355). -/
def execJrCcE (cc : Cond) (e : Byte) (s : State) : Result State :=
  if condHolds s.cpu cc then jumpTo (relTarget s.cpu.pc e) s else .next s

/-- `CALL nn` (R356). -/
def execCallNn (nn : Word) (s : State) : Result State := callTo nn s

/-- `CALL cc,nn` (R357). -/
def execCallCcNn (cc : Cond) (nn : Word) (s : State) : Result State :=
  if condHolds s.cpu cc then callTo nn s else .next s

/-- `RET` (R358). -/
def execRet (s : State) : Result State := returnTo s

/-- `RET cc` (R359): the test takes a cycle on both paths. -/
def execRetCc (cc : Cond) (s : State) : Result State :=
  let t := idle s
  if condHolds t.cpu cc then returnTo t else .next t

/-- `RETI` (R360). -/
def execReti (s : State) : Result State := returnFromInterrupt s

/-- `RST t` (R361). -/
def execRstT (t : Byte) (s : State) : Result State := callTo (zext16 t) s

end Sys2Proof.Machine
end

