-- ==== Sys2Proof/Machine/Alu8.lean ====
section
/-! DEFINITION. 8-bit arithmetic and logic (41_alu8.md). A meaning starts with the whole instruction fetched (R178,
`fetchInstr`). -/

namespace Sys2Proof.Machine

/-- `(res, fl) <- o; A <- res; F <- fl`. -/
def finishAlu (s : State) (o : AluOut) : Result State := .next (withCpu s (writeAluOut s.cpu o))

/-- `(res, fl) <- o; F <- fl`: CP writes no register (R208). -/
def finishCompare (s : State) (o : AluOut) : Result State := .next (withCpu s (setF s.cpu o.fl))

/-- `v <- Rd(HL)`, then go on with the byte and the state after the read. -/
def readHl (s : State) (k : Byte → State → Result State) : Result State :=
  andThen (rd s.cpu.hl s) fun p => k p.1 p.2

/-- `ADD A,r` (R210). -/
def execAddAR (r : Reg8) (s : State) : Result State :=
  finishAlu s (add8 (regA s.cpu) (getReg s.cpu r))

/-- `ADD A,(HL)` (R211). -/
def execAddAMemHl (s : State) : Result State :=
  readHl s fun v t => finishAlu t (add8 (regA t.cpu) v)

/-- `ADD A,n` (R212). -/
def execAddAN (n : Byte) (s : State) : Result State :=
  finishAlu s (add8 (regA s.cpu) n)

/-- `ADC A,r` (R213). -/
def execAdcAR (r : Reg8) (s : State) : Result State :=
  finishAlu s (adc8 (regA s.cpu) (getReg s.cpu r) (flagC s.cpu))

/-- `ADC A,(HL)` (R214). -/
def execAdcAMemHl (s : State) : Result State :=
  readHl s fun v t => finishAlu t (adc8 (regA t.cpu) v (flagC t.cpu))

/-- `ADC A,n` (R215). -/
def execAdcAN (n : Byte) (s : State) : Result State :=
  finishAlu s (adc8 (regA s.cpu) n (flagC s.cpu))

/-- `SUB r` (R216). -/
def execSubR (r : Reg8) (s : State) : Result State :=
  finishAlu s (sub8 (regA s.cpu) (getReg s.cpu r))

/-- `SUB (HL)` (R217). -/
def execSubMemHl (s : State) : Result State :=
  readHl s fun v t => finishAlu t (sub8 (regA t.cpu) v)

/-- `SUB n` (R218). -/
def execSubN (n : Byte) (s : State) : Result State :=
  finishAlu s (sub8 (regA s.cpu) n)

/-- `SBC A,r` (R219). -/
def execSbcAR (r : Reg8) (s : State) : Result State :=
  finishAlu s (sbc8 (regA s.cpu) (getReg s.cpu r) (flagC s.cpu))

/-- `SBC A,(HL)` (R220). -/
def execSbcAMemHl (s : State) : Result State :=
  readHl s fun v t => finishAlu t (sbc8 (regA t.cpu) v (flagC t.cpu))

/-- `SBC A,n` (R221). -/
def execSbcAN (n : Byte) (s : State) : Result State :=
  finishAlu s (sbc8 (regA s.cpu) n (flagC s.cpu))

/-- `AND r` (R222). -/
def execAndR (r : Reg8) (s : State) : Result State :=
  finishAlu s (and8 (regA s.cpu) (getReg s.cpu r))

/-- `AND (HL)` (R223). -/
def execAndMemHl (s : State) : Result State :=
  readHl s fun v t => finishAlu t (and8 (regA t.cpu) v)

/-- `AND n` (R224). -/
def execAndN (n : Byte) (s : State) : Result State :=
  finishAlu s (and8 (regA s.cpu) n)

/-- `XOR r` (R225). -/
def execXorR (r : Reg8) (s : State) : Result State :=
  finishAlu s (xor8 (regA s.cpu) (getReg s.cpu r))

/-- `XOR (HL)` (R226). -/
def execXorMemHl (s : State) : Result State :=
  readHl s fun v t => finishAlu t (xor8 (regA t.cpu) v)

/-- `XOR n` (R227). -/
def execXorN (n : Byte) (s : State) : Result State :=
  finishAlu s (xor8 (regA s.cpu) n)

/-- `OR r` (R228). -/
def execOrR (r : Reg8) (s : State) : Result State :=
  finishAlu s (or8 (regA s.cpu) (getReg s.cpu r))

/-- `OR (HL)` (R229). -/
def execOrMemHl (s : State) : Result State :=
  readHl s fun v t => finishAlu t (or8 (regA t.cpu) v)

/-- `OR n` (R230). -/
def execOrN (n : Byte) (s : State) : Result State :=
  finishAlu s (or8 (regA s.cpu) n)

/-- `CP r` (R231). -/
def execCpR (r : Reg8) (s : State) : Result State :=
  finishCompare s (cp8 (regA s.cpu) (getReg s.cpu r))

/-- `CP (HL)` (R232). -/
def execCpMemHl (s : State) : Result State :=
  readHl s fun v t => finishCompare t (cp8 (regA t.cpu) v)

/-- `CP n` (R233). -/
def execCpN (n : Byte) (s : State) : Result State :=
  finishCompare s (cp8 (regA s.cpu) n)

/-- `INC r` (R234). -/
def execIncR (r : Reg8) (s : State) : Result State :=
  let o := inc8 (getReg s.cpu r) (flagC s.cpu)
  .next (withCpu s (setF (setReg s.cpu r o.res) o.fl))

/-- `INC (HL)` (R235): the read and the write are two cycles. -/
def execIncMemHl (s : State) : Result State :=
  readHl s fun v t =>
    let o := inc8 v (flagC t.cpu)
    wr t.cpu.hl o.res (withCpu t (setF t.cpu o.fl))

/-- `DEC r` (R236). -/
def execDecR (r : Reg8) (s : State) : Result State :=
  let o := dec8 (getReg s.cpu r) (flagC s.cpu)
  .next (withCpu s (setF (setReg s.cpu r o.res) o.fl))

/-- `DEC (HL)` (R237). -/
def execDecMemHl (s : State) : Result State :=
  readHl s fun v t =>
    let o := dec8 v (flagC t.cpu)
    wr t.cpu.hl o.res (withCpu t (setF t.cpu o.fl))

/-- `DAA` (R238). -/
def execDaa (s : State) : Result State :=
  finishAlu s (daa8 (regA s.cpu) (flagN s.cpu) (flagH s.cpu) (flagC s.cpu))

/-- `CPL` (R239): Z and C kept. -/
def execCpl (s : State) : Result State :=
  finishAlu s { res := regA s.cpu ^^^ 0xFF#8, fl := flagByte (flagZ s.cpu) true true (flagC s.cpu) }

/-- `SCF` (R240): Z kept. -/
def execScf (s : State) : Result State :=
  .next (withCpu s (setF s.cpu (flagByte (flagZ s.cpu) false false true)))

/-- `CCF` (R241): Z kept, H cleared. -/
def execCcf (s : State) : Result State :=
  .next (withCpu s (setF s.cpu (flagByte (flagZ s.cpu) false false (!flagC s.cpu))))

end Sys2Proof.Machine
end

