-- ==== Sys2Proof/Machine/Load.lean ====
section
/-! DEFINITION. Loads, stores and the stack (44_load.md). -/

namespace Sys2Proof.Machine

/-- `0xFF00 + n`: the high-page address (R142, R310). -/
def highPage (n : Byte) : Word := 0xFF00#16 + zext16 n

/-- `A <- Rd(a)`. -/
def loadA (a : Word) (s : State) : Result State :=
  andThen (rd a s) fun p => .next (withCpu p.2 (setA p.2.cpu p.1))

/-- `Wr(a, A)`. -/
def storeA (a : Word) (s : State) : Result State := wr a (regA s.cpu) s

/-- `HL <- HL + d`, after the access (R310). -/
def addHl (d : Word) (s : State) : State := withCpu s { s.cpu with hl := s.cpu.hl + d }

/-! ### 8-bit register and immediate loads -/

/-- `LD r,r'` (R311). -/
def execLdRR (r r1 : Reg8) (s : State) : Result State := .next (withCpu s (setReg s.cpu r (getReg s.cpu r1)))

/-- `LD r,n` (R312). -/
def execLdRN (r : Reg8) (n : Byte) (s : State) : Result State := .next (withCpu s (setReg s.cpu r n))

/-- `LD r,(HL)` (R313): the old HL is the address. -/
def execLdRMemHl (r : Reg8) (s : State) : Result State :=
  readHl s fun v t => .next (withCpu t (setReg t.cpu r v))

/-- `LD (HL),r` (R314). -/
def execLdMemHlR (r : Reg8) (s : State) : Result State := wr s.cpu.hl (getReg s.cpu r) s

/-- `LD (HL),n` (R315). -/
def execLdMemHlN (n : Byte) (s : State) : Result State := wr s.cpu.hl n s

/-! ### Through BC, DE and an absolute address -/

/-- `LD A,(BC)` (R316). -/
def execLdABc (s : State) : Result State := loadA s.cpu.bc s

/-- `LD A,(DE)` (R317). -/
def execLdADe (s : State) : Result State := loadA s.cpu.de s

/-- `LD (BC),A` (R318). -/
def execLdBcA (s : State) : Result State := storeA s.cpu.bc s

/-- `LD (DE),A` (R319). -/
def execLdDeA (s : State) : Result State := storeA s.cpu.de s

/-- `LD A,(nn)` (R320). -/
def execLdANn (nn : Word) (s : State) : Result State := loadA nn s

/-- `LD (nn),A` (R321). -/
def execLdNnA (nn : Word) (s : State) : Result State := storeA nn s

/-! ### High page -/

/-- `LDH A,(n)` (R322). -/
def execLdhAN (n : Byte) (s : State) : Result State := loadA (highPage n) s

/-- `LDH (n),A` (R323). -/
def execLdhNA (n : Byte) (s : State) : Result State := storeA (highPage n) s

/-- `LD A,(C)` (R324). -/
def execLdAC (s : State) : Result State := loadA (highPage (loByte s.cpu.bc)) s

/-- `LD (C),A` (R325). -/
def execLdCA (s : State) : Result State := storeA (highPage (loByte s.cpu.bc)) s

/-! ### Through HL with post-increment and post-decrement -/

/-- `LD A,(HL+)` (R326). -/
def execLdAHli (s : State) : Result State := andThen (loadA s.cpu.hl s) fun t => .next (addHl 1 t)

/-- `LD A,(HL-)` (R327). -/
def execLdAHld (s : State) : Result State := andThen (loadA s.cpu.hl s) fun t => .next (addHl (-1) t)

/-- `LD (HL+),A` (R328). -/
def execLdHliA (s : State) : Result State := andThen (storeA s.cpu.hl s) fun t => .next (addHl 1 t)

/-- `LD (HL-),A` (R329). -/
def execLdHldA (s : State) : Result State := andThen (storeA s.cpu.hl s) fun t => .next (addHl (-1) t)

/-! ### 16-bit loads -/

/-- `LD dd,nn` (R330). -/
def execLdDdNn (dd : Pair) (nn : Word) (s : State) : Result State := .next (withCpu s (setPair s.cpu dd nn))

/-- `LD (nn),SP` (R331): low byte first. -/
def execLdNnSp (nn : Word) (s : State) : Result State :=
  andThen (wr nn (loByte s.cpu.sp) s) fun t => wr (nn + 1) (hiByte t.cpu.sp) t

/-- `LD SP,HL` (R332). -/
def execLdSpHl (s : State) : Result State :=
  let t := idle s
  .next (setSp t t.cpu.hl)

/-! ### The stack -/

/-- `PUSH qq` (R333). -/
def execPushQq (qq : StackPair) (s : State) : Result State :=
  let t := idle s
  push16 (getStackPair t.cpu qq) t

/-- `POP qq` (R334). -/
def execPopQq (qq : StackPair) (s : State) : Result State :=
  andThen (pop16 s) fun p => .next (withCpu p.2 (setStackPair p.2.cpu qq p.1))

end Sys2Proof.Machine
end

