-- ==== Sys2Proof/Machine/Rotate.lean ====
section
/-! DEFINITION. Rotates, shifts and bit operations (43_rotate_shift_bit.md). -/

namespace Sys2Proof.Machine

/-- An accumulator rotate's end: A and the reset-then-set flags. -/
def finishAccRotate (s : State) (o : ShiftOut) : Result State :=
  .next (withCpu s (setF (setA s.cpu o.res) (accRotateFlags o)))

/-- A CB rotate or shift of a register: `r8[z] <- res; F <- fl`. -/
def shiftReg (s : State) (r : Reg8) (o : ShiftOut) : Result State :=
  .next (withCpu s (setF (setReg s.cpu r o.res) (shiftFlags o)))

/-- A CB rotate or shift of the byte at HL, already read: `F <- fl; Wr(HL, res)`. -/
def shiftMemHl (t : State) (o : ShiftOut) : Result State :=
  wr t.cpu.hl o.res (withCpu t (setF t.cpu (shiftFlags o)))

/-- `RLCA` (R271). -/
def execRlca (s : State) : Result State := finishAccRotate s (rlc8 (regA s.cpu))

/-- `RRCA` (R272). -/
def execRrca (s : State) : Result State := finishAccRotate s (rrc8 (regA s.cpu))

/-- `RLA` (R273). -/
def execRla (s : State) : Result State := finishAccRotate s (rl8 (regA s.cpu) (flagC s.cpu))

/-- `RRA` (R274). -/
def execRra (s : State) : Result State := finishAccRotate s (rr8 (regA s.cpu) (flagC s.cpu))

/-- `RLC r` (R283). -/
def execRlcR (r : Reg8) (s : State) : Result State := shiftReg s r (rlc8 (getReg s.cpu r))

/-- `RLC (HL)` (R284). -/
def execRlcMemHl (s : State) : Result State := readHl s fun v t => shiftMemHl t (rlc8 v)

/-- `RRC r` (R285). -/
def execRrcR (r : Reg8) (s : State) : Result State := shiftReg s r (rrc8 (getReg s.cpu r))

/-- `RRC (HL)` (R286). -/
def execRrcMemHl (s : State) : Result State := readHl s fun v t => shiftMemHl t (rrc8 v)

/-- `RL r` (R287). -/
def execRlR (r : Reg8) (s : State) : Result State := shiftReg s r (rl8 (getReg s.cpu r) (flagC s.cpu))

/-- `RL (HL)` (R288). -/
def execRlMemHl (s : State) : Result State := readHl s fun v t => shiftMemHl t (rl8 v (flagC t.cpu))

/-- `RR r` (R289). -/
def execRrR (r : Reg8) (s : State) : Result State := shiftReg s r (rr8 (getReg s.cpu r) (flagC s.cpu))

/-- `RR (HL)` (R290). -/
def execRrMemHl (s : State) : Result State := readHl s fun v t => shiftMemHl t (rr8 v (flagC t.cpu))

/-- `SLA r` (R291). -/
def execSlaR (r : Reg8) (s : State) : Result State := shiftReg s r (sla8 (getReg s.cpu r))

/-- `SLA (HL)` (R292). -/
def execSlaMemHl (s : State) : Result State := readHl s fun v t => shiftMemHl t (sla8 v)

/-- `SRA r` (R293). -/
def execSraR (r : Reg8) (s : State) : Result State := shiftReg s r (sra8 (getReg s.cpu r))

/-- `SRA (HL)` (R294). -/
def execSraMemHl (s : State) : Result State := readHl s fun v t => shiftMemHl t (sra8 v)

/-- `SWAP r` (R295). -/
def execSwapR (r : Reg8) (s : State) : Result State := shiftReg s r (swap8 (getReg s.cpu r))

/-- `SWAP (HL)` (R296). -/
def execSwapMemHl (s : State) : Result State := readHl s fun v t => shiftMemHl t (swap8 v)

/-- `SRL r` (R297). -/
def execSrlR (r : Reg8) (s : State) : Result State := shiftReg s r (srl8 (getReg s.cpu r))

/-- `SRL (HL)` (R298). -/
def execSrlMemHl (s : State) : Result State := readHl s fun v t => shiftMemHl t (srl8 v)

/-- `BIT b,r` (R299): r is not written. -/
def execBitBR (b : Nat) (r : Reg8) (s : State) : Result State :=
  .next (withCpu s (setF s.cpu (bitFlags (getReg s.cpu r) b (flagC s.cpu))))

/-- `BIT b,(HL)` (R300): no write cycle. -/
def execBitBMemHl (b : Nat) (s : State) : Result State :=
  readHl s fun v t => .next (withCpu t (setF t.cpu (bitFlags v b (flagC t.cpu))))

/-- `RES b,r` (R301). -/
def execResBR (b : Nat) (r : Reg8) (s : State) : Result State :=
  .next (withCpu s (setReg s.cpu r (resBit (getReg s.cpu r) b)))

/-- `RES b,(HL)` (R302): the write happens even when the bit was clear. -/
def execResBMemHl (b : Nat) (s : State) : Result State := readHl s fun v t => wr t.cpu.hl (resBit v b) t

/-- `SET b,r` (R303). -/
def execSetBR (b : Nat) (r : Reg8) (s : State) : Result State :=
  .next (withCpu s (setReg s.cpu r (setBit (getReg s.cpu r) b)))

/-- `SET b,(HL)` (R304). -/
def execSetBMemHl (b : Nat) (s : State) : Result State := readHl s fun v t => wr t.cpu.hl (setBit v b) t

end Sys2Proof.Machine
end

