-- ==== Sys2Proof/Machine/Prefix.lean ====
section
/-! DEFINITION. The prefix 0xCB as an instruction of its own: fetch the CB byte, then dispatch by the CB table (R148, R174,
R385). A step fetches prefix and CB byte together (`fetchInstr`); this is the same thing cut after the prefix. -/

namespace Sys2Proof.Machine

/-- The rotate or shift y of a register (R148). -/
def execShiftReg (y : Nat) (r : Reg8) (s : State) : Result State :=
  match y with
  | 0 => execRlcR r s
  | 1 => execRrcR r s
  | 2 => execRlR r s
  | 3 => execRrR r s
  | 4 => execSlaR r s
  | 5 => execSraR r s
  | 6 => execSwapR r s
  | _ => execSrlR r s

/-- The rotate or shift y of the byte at HL (R148). -/
def execShiftMemHl (y : Nat) (s : State) : Result State :=
  match y with
  | 0 => execRlcMemHl s
  | 1 => execRrcMemHl s
  | 2 => execRlMemHl s
  | 3 => execRrMemHl s
  | 4 => execSlaMemHl s
  | 5 => execSraMemHl s
  | 6 => execSwapMemHl s
  | _ => execSrlMemHl s

/-- `ExecuteCB(cb)` (R177). -/
def execCbByte (cb : Byte) (s : State) : Result State :=
  match reg8OfCode (fieldZ cb), fieldX cb with
  | some r, 0 => execShiftReg (fieldY cb) r s
  | some r, 1 => execBitBR (fieldY cb) r s
  | some r, 2 => execResBR (fieldY cb) r s
  | some r, _ => execSetBR (fieldY cb) r s
  | none, 0 => execShiftMemHl (fieldY cb) s
  | none, 1 => execBitBMemHl (fieldY cb) s
  | none, 2 => execResBMemHl (fieldY cb) s
  | none, _ => execSetBMemHl (fieldY cb) s

/-- `cb <- Fetch8(); ExecuteCB(cb)` (R171, R174). -/
def execPrefixCb (s : State) : Result State := andThen (fetch8 s) fun p => execCbByte p.1 p.2

end Sys2Proof.Machine
end

