-- ==== Sys2Proof/Machine/System.lean ====
section
/-! DEFINITION. The system instructions and the illegal opcodes (46_system.md). -/

namespace Sys2Proof.Machine

/-- `NOP` (R380). -/
def execNop (s : State) : Result State := .next s

/-- `STOP` (R381): PC advances past the unread byte, with no cycle. -/
def execStop (s : State) : Result State := .next (setPc s (s.cpu.pc + 1))

/-- `HALT` (R382). -/
def execHalt (s : State) : Result State := .next (withCpu s { s.cpu with halted := true, haltFresh := true })

/-- `DI` (R383). -/
def execDi (s : State) : Result State := .next (withCpu s { s.cpu with ime := false, eiScheduled := false })

/-- `EI` (R384). -/
def execEi (s : State) : Result State := .next (withCpu s { s.cpu with eiScheduled := true })

/-- The illegal opcode 0xD3 (R386). -/
def execIllegalD3 (s : State) : Result State := .next (recordUnknownOpcode 0xD3#8 s)

/-- The illegal opcode 0xDB (R386). -/
def execIllegalDB (s : State) : Result State := .next (recordUnknownOpcode 0xDB#8 s)

/-- The illegal opcode 0xDD (R386). -/
def execIllegalDD (s : State) : Result State := .next (recordUnknownOpcode 0xDD#8 s)

/-- The illegal opcode 0xE3 (R386). -/
def execIllegalE3 (s : State) : Result State := .next (recordUnknownOpcode 0xE3#8 s)

/-- The illegal opcode 0xE4 (R386). -/
def execIllegalE4 (s : State) : Result State := .next (recordUnknownOpcode 0xE4#8 s)

/-- The illegal opcode 0xEB (R386). -/
def execIllegalEB (s : State) : Result State := .next (recordUnknownOpcode 0xEB#8 s)

/-- The illegal opcode 0xEC (R386). -/
def execIllegalEC (s : State) : Result State := .next (recordUnknownOpcode 0xEC#8 s)

/-- The illegal opcode 0xED (R386). -/
def execIllegalED (s : State) : Result State := .next (recordUnknownOpcode 0xED#8 s)

/-- The illegal opcode 0xF4 (R386). -/
def execIllegalF4 (s : State) : Result State := .next (recordUnknownOpcode 0xF4#8 s)

/-- The illegal opcode 0xFC (R386). -/
def execIllegalFC (s : State) : Result State := .next (recordUnknownOpcode 0xFC#8 s)

/-- The illegal opcode 0xFD (R386). -/
def execIllegalFD (s : State) : Result State := .next (recordUnknownOpcode 0xFD#8 s)

end Sys2Proof.Machine
end

