-- ==== Sys2Proof/Machine/Place.lean ====
section
/-! DEFINITION. Placing instruction bytes where the next fetch reads them: the load from outside that `withFetchWord`
stands for. It writes stored bytes directly and is no instruction's effect. -/

namespace Sys2Proof.Machine

/-- A fetch of the place reads back what is stored there: a ROM byte inside the image, or RAM; VRAM and OAM only when the
CPU is never locked out of them (R470). -/
def placeable (s : State) (a : Word) : Bool :=
  match locOf s a with
  | some (.rom i) => decide (i < s.cart.imageLength)
  | some (.cartRam _) => true
  | some (.vram _) => !s.config.ppuAccessLockout
  | some (.oam _) => !s.config.ppuAccessLockout
  | some (.flat _) => true
  | none => false

/-- Store a byte at the place a bus address names. -/
def placeByte (s : State) (a : Word) (v : Byte) : State :=
  match locOf s a with
  | some (.rom i) => { s with cart := { s.cart with rom := storeWrite s.cart.rom i v } }
  | some (.cartRam i) => { s with cart := { s.cart with ram := storeWrite s.cart.ram i v } }
  | some (.vram b) => { s with ppu := { s.ppu with vram := storeWrite s.ppu.vram b v } }
  | some (.oam b) => { s with ppu := { s.ppu with oam := storeWrite s.ppu.oam b v } }
  | some (.flat b) => { s with flat := storeWrite s.flat b v }
  | none => s

/-- The three bytes from `a`. -/
def placeThree (s : State) (a : Word) (b0 b1 b2 : Byte) : State :=
  placeByte (placeByte (placeByte s a b0) (a + 1) b1) (a + 2) b2

/-- A machine about to fetch in the ordinary way: running, no fault, no double fetch armed, and PC at three bytes of plain
memory (work RAM at 0xC000 where the present PC is not). -/
def readyToFetch (s : State) : State :=
  let c := { s.cpu with halted := false, haltBugArmed := false }
  let t : State := { s with cpu := c, fault := none }
  if placeable t c.pc && placeable t (c.pc + 1) && placeable t (c.pc + 2) then t else setPc t 0xC000#16

/-- A word of the opcode table placed at the fetch address, the bytes above it zero. -/
def placeWord (s : State) (nbits w : Nat) : State :=
  let t := readyToFetch s
  match tableBytes nbits w with
  | [b0] => placeThree t t.cpu.pc b0 0 0
  | [b0, b1] => placeThree t t.cpu.pc b0 b1 0
  | [b0, b1, b2] => placeThree t t.cpu.pc b0 b1 b2
  | _ => t

end Sys2Proof.Machine
end

