-- ==== Sys2Proof/Machine/Step.lean ====
section
/-! DEFINITION. One step (R171), and the placing of a word for the next fetch. -/

namespace Sys2Proof.Machine

/-- One call of `Run()` (R171). A machine that holds a fault has no step: it answers that fault (R170; DESIGN CHOICE, log 11). A halted machine
spends one idle cycle (R176); any other fetches an instruction and runs it. The service call ends the step unless the
step recorded a fault. -/
def step (s : State) : Host.Outcome State Fault Refusal :=
  match s.fault with
  | some f => .fault f
  | none =>
    if s.cpu.halted then finishStep (haltedCycle s)
    else andThen (fetchInstr s) fun p => andThen (exec p.1 p.2) finishStep

/-- `s` with the instruction of an opcode-table word stored where `step` fetches its next instruction (DESIGN CHOICE, log 8). -/
def State.withFetchWord (s : State) (nbits w : Nat) : State := placeWord s nbits w

end Sys2Proof.Machine
end

