-- ==== Sys2Proof/Machine/Construct.lean ====
section
/-! DEFINITION. Construction, which is reset (R90 to R95, R431, R520): from `ROM_IMAGE` and the draws of R7 to a board, a
typed construction error, or a refusal. -/

namespace Sys2Proof.Machine

/-- The typed failures of construction (R431). -/
inductive ConstructionError
  /-- The type byte names no mapper of R92. Raised by `construct`. Safe: the spec's own error. -/
  | unsupportedCartridgeType (typeByte : Byte)
  /-- A range with high < low was registered (R72). Raised by `construct` for such a table; this block's table has none.
  Safe: the spec's own error. -/
  | invalidMmioRange (low high : Nat)
  deriving DecidableEq, Repr

/-- The images the spec gives no meaning (R430, D33). -/
inductive ConstructionRefusal
  /-- The image is shorter than 0x150 bytes (R90). Raised by `construct`. Safe. -/
  | imageTooShort (length : Nat)
  /-- The ROM-size code is not in R93's table. Raised by `construct`. Safe. -/
  | unknownRomSizeCode (code : Byte)
  /-- The RAM-size code is not in R94's table. Raised by `construct`. Safe. -/
  | unknownRamSizeCode (code : Byte)
  deriving DecidableEq, Repr

/-- The draws and parameters of R7 beside `ROM_IMAGE`. -/
structure Draws where
  /-- `INIT_REGS` as the four pairs (D3). -/
  af : Word
  bc : Word
  de : Word
  hl : Word
  /-- `INIT_DIV` (D4). -/
  divCounter : Word
  /-- `INIT_RAM`: bytes by bus address, of which 0x8000–0xFEFF are used (D6); a later entry of an address stands over an
  earlier one, and an address the list leaves out is drawn as 0x00 (log 3). -/
  ram : List (Nat × Byte)
  config : Config
  deriving DecidableEq, Repr

/-- The mapper a type byte selects, with its reset registers (R92, R100, R110, R120, D45). -/
def mapperOfType (t : Byte) : Option Mapper :=
  let n := t.toNat
  if n = 0x00 then some .romOnly
  else if 0x01 ≤ n ∧ n ≤ 0x03 then some (.mbc1 { ramEnable := false, bank1 := 1, bank2 := 0, mode := 0 })
  else if 0x0F ≤ n ∧ n ≤ 0x13 then some (.mbc3 { ramEnable := false, romBank := 1, ramSel := 0 })
  else if 0x19 ≤ n ∧ n ≤ 0x1E then
    some (.mbc5 { ramEnable := false, romLo := 1, romHi := 0, ramBank := 0, mode := 0 })
  else none

/-- The ROM bank count of a ROM-size code (R93). -/
def romBankCount (code : Byte) : Option Nat :=
  let n := code.toNat
  if n ≤ 0x08 then some (2 ^ (n + 1))
  else if n = 0x52 then some 72
  else if n = 0x53 then some 80
  else if n = 0x54 then some 96
  else none

/-- The RAM size in bytes and the RAM bank count of a RAM-size code (R94). -/
def ramSizeOf (code : Byte) : Option (Nat × Nat) :=
  match code.toNat with
  | 0 => some (0, 0)
  | 1 => some (2048, 1)
  | 2 => some (8192, 1)
  | 3 => some (32768, 4)
  | 4 => some (131072, 16)
  | 5 => some (65536, 8)
  | _ => none

/-- The title: the bytes from 0x134 up to the first 0x00 and at most up to 0x143 (R91). -/
def titleOf (image : List Byte) : List Byte := ((image.drop 0x134).take 16).takeWhile (fun b => b != 0x00#8)

/-- Header fields (R91). -/
def headerOf (image : List Byte) : Header :=
  { title := titleOf image
    typeByte := image.getD 0x147 0
    romSizeCode := image.getD 0x148 0
    ramSizeCode := image.getD 0x149 0 }

/-- Cartridge construction (R90), in the order of its five parts: header, mapper, sizes, buffers, registers. -/
def buildCartridge (image : List Byte) : Host.Outcome Cartridge ConstructionError ConstructionRefusal :=
  if image.length < 0x150 then .refused (.imageTooShort image.length)
  else
    let h := headerOf image
    match mapperOfType h.typeByte with
    | none => .fault (.unsupportedCartridgeType h.typeByte)
    | some m =>
      match romBankCount h.romSizeCode, ramSizeOf h.ramSizeCode with
      | none, _ => .refused (.unknownRomSizeCode h.romSizeCode)
      | some _, none => .refused (.unknownRamSizeCode h.ramSizeCode)
      | some banks, some ram =>
        .next
          { header := h, imageLength := image.length, rom := storeOfList 0 image, romBanks := banks
            ramBytes := ram.1, ramBanks := ram.2, ram := [], mapper := m }

/-- The first range of a table with high < low (R72). -/
def badRange (table : List MmioRange) : Option MmioRange :=
  match table with
  | [] => none
  | r :: t => if r.high < r.low then some r else badRange t

/-- The part of `INIT_RAM` whose addresses have an owner, as a store. -/
def drawFor (ram : List (Nat × Byte)) (owner : Option Component) : Memory :=
  storeOfEntries (ram.filter fun c =>
    decide (0x8000 ≤ c.1) && decide (c.1 < 0xFF00) && decide (routeIn rangeTable c.1 = owner))

/-- The reset state around a cartridge (R521). -/
def boardWith (cart : Cartridge) (d : Draws) : State :=
  let p := drawFor d.ram (some .ppu)
  { cpu := Cpu.resetWith d.af d.bc d.de d.hl
    intr := Intr.reset
    timer := Timer.resetWith d.divCounter
    ppu := Ppu.resetWith (p.filter fun c => decide (c.1 < 0xA000)) (p.filter fun c => decide (0xFE00 ≤ c.1))
    cart := cart
    joypad := Joypad.reset
    serial := Serial.reset
    flat := drawFor d.ram none
    fault := none
    clock := 0
    config := d.config }

/-- Construction with a range table (R520). -/
def constructWith (table : List MmioRange) (image : List Byte) (d : Draws) :
    Host.Outcome State ConstructionError ConstructionRefusal :=
  match buildCartridge image with
  | .next cart =>
    match badRange table with
    | some r => .fault (.invalidMmioRange r.low r.high)
    | none => .next (boardWith cart d)
  | .fault e => .fault e
  | .refused e => .refused e

/-- Construction of this block (R520). -/
def construct (image : List Byte) (d : Draws) : Host.Outcome State ConstructionError ConstructionRefusal :=
  constructWith rangeTable image d

/-- The draws `State.reset` stands for (log 1 to 3), with the parameters at R7's defaults. -/
def Draws.zero : Draws :=
  { af := 0, bc := 0, de := 0, hl := 0, divCounter := 0, ram := [], config := Config.default }

end Sys2Proof.Machine
end

