-- ==== Sys2Proof/Machine/HostOps.lean ====
section
/-! DEFINITION. What the host can do to the block between two steps (R181 to R184, R472, R473, R482). No step calls these;
a run of the block is a sequence of steps and of these calls. DEDUCED (log 12). -/

namespace Sys2Proof.Machine

/-- `Run()` (R171): one step; on a faulted machine it changes nothing (R170; log 11). -/
def run (s : State) : Result State :=
  match s.fault with
  | some _ => .next s
  | none => step s

/-- `AdvanceSystemTime()`: one `Tick()` with no CPU activity (R181). -/
def advanceSystemTime (s : State) : State := tick s

/-- Latch a new joypad state, raising the joypad interrupt if a selected line fell (R482). -/
def latchPress (j : Joypad) (s : State) : State :=
  { s with
    joypad := j
    intr := if lineFell (joypadLow s.joypad) (joypadLow j)
      then { s.intr with ifReg := requestInterrupt 4 s.intr.ifReg } else s.intr }

/-- `PressCross(k)` (R480, R482). -/
def pressCross (k : CrossKey) (s : State) : State :=
  latchPress { s.joypad with cross := setKey s.joypad.cross (crossBit k) true } s

/-- `PressButton(k)` (R480, R482). -/
def pressButton (k : ButtonKey) (s : State) : State :=
  latchPress { s.joypad with buttons := setKey s.joypad.buttons (buttonBit k) true } s

/-- `ReleaseCross(k)`: never an interrupt (R482). -/
def releaseCross (k : CrossKey) (s : State) : State :=
  { s with joypad := { s.joypad with cross := setKey s.joypad.cross (crossBit k) false } }

/-- `ReleaseButton(k)`: never an interrupt (R482). -/
def releaseButton (k : ButtonKey) (s : State) : State :=
  { s with joypad := { s.joypad with buttons := setKey s.joypad.buttons (buttonBit k) false } }

/-- `CheckEndOfFrame()` (R473). -/
def checkEndOfFrame (s : State) : Bool := s.ppu.endOfFrame

/-- `pixels[x][y]`. -/
def pixelAt (p : Ppu) (x y : Nat) : BitVec 2 := storeRead p.pixels (pixelIndex x y)

/-- The row-major buffer `out[y * 160 + x] = pixels[x][y]` of 23040 values (R472). -/
def frameBuffer (p : Ppu) : List (BitVec 2) := (List.range 23040).map fun i => pixelAt p (i % 160) (i / 160)

/-- `Draw()`: the buffer, and `endOfFrame <- 0` (R472). -/
def draw (s : State) : List (BitVec 2) × State :=
  (frameBuffer s.ppu, { s with ppu := { s.ppu with endOfFrame := false } })

/-- What a bounded `RunOneFrame()` gives. -/
inductive FrameOutcome
  /-- The frame ended: the buffer, and the state after `Draw()`. -/
  | frame (buffer : List (BitVec 2)) (s : State)
  /-- A fault ended the loop (R182). -/
  | fault (r : Fault) (s : State)
  /-- A step was refused. -/
  | refused (r : Refusal)
  /-- The bound on the number of steps was reached first. -/
  | unfinished (s : State)
  deriving DecidableEq, Repr

/-- `RunOneFrame()` (R182), with a bound on the number of steps: the spec's loop may never end (R474).
DESIGN CHOICE (log 13). A recorded fault is the answer even where a frame has ended too (R432, D15, D43).
DEDUCED (log 20). -/
def runOneFrame (fuel : Nat) (s : State) : FrameOutcome :=
  match s.fault with
  | some f => .fault f s
  | none =>
    if checkEndOfFrame s then .frame (draw s).1 (draw s).2
    else
      match fuel with
      | 0 => .unfinished s
      | n + 1 =>
        match step s with
        | .next t => runOneFrame n t
        | .fault r => .fault r s
        | .refused r => .refused r

/-- `GetComponents()` (R181). Which components it lists and in which order the spec does not say: the model lists the owners
of R72's range table, each once, in the order of their first ranges. DESIGN CHOICE (log 19). -/
def getComponents (_ : State) : List Component :=
  [.cartridge, .ppu, .echo, .joypad, .serial, .timer, .interruptController]

/-- `GetMappedRanges()` (R181). -/
def getMappedRanges (_ : State) : List MmioRange := rangeTable

end Sys2Proof.Machine
end

