-- ==== Sys2Proof/Safety.lean ====
section
/-! DEFINITION. The terms the claims are stated in: the machine's invariant, time, what an operation leaves alone, and the
tables of R535. Nothing here is called by the machine. -/

namespace Sys2Proof.Machine

/-! ### Time -/

/-- `n` machine cycles with no CPU activity (R172). -/
def ticks (n : Nat) (s : State) : State :=
  match n with
  | 0 => s
  | k + 1 => ticks k (tick s)

/-! ### The invariant -/

/-- Every store is canonical and inside its region (R48, R49, R53, R95). -/
structure StoresOk (s : State) : Prop where
  flat : Memory.wf 0x8000 0x10000 s.flat = true
  vram : Memory.wf 0x8000 0xA000 s.ppu.vram = true
  oam : Memory.wf 0xFE00 0xFEA0 s.ppu.oam = true
  rom : Memory.wf 0 s.cart.imageLength s.cart.rom = true
  ram : Memory.wf 0 s.cart.ramBytes s.cart.ram = true
  pixels : storeWfFrom 0 23040 s.ppu.pixels = true

/-- The mode that stands before line clock `clock` of line `line` is run, the display on: the table of R461 read after the
clock before it. `s3` is the latched `SCX & 7`. -/
def scanMode (line clock s3 : Nat) : PpuMode :=
  if clock = 0 then (if line = 0 ∨ 144 < line then .vblank else .hblank)
  else if 144 ≤ line then .vblank
  else if clock ≤ 80 then .oamRead
  else if clock ≤ 252 + s3 then .vramRead
  else .hblank

/-- The PPU is at a legal point of its scan (R461 to R463, R466). -/
structure ScanOk (ly0At : Nat) (p : Ppu) : Prop where
  line : p.line < 154
  lineClock : p.lineClock < 456
  offClock : p.offClock < 70224
  off : p.lcdWasOn = false → p.line = 0 ∧ p.lineClock = 0 ∧ p.ly = 0 ∧ p.mode = .hblank
  ly : p.lcdWasOn = true → p.ly = if p.line = 153 ∧ ly0At < p.lineClock then 0 else BitVec.ofNat 8 p.line
  mode : p.lcdWasOn = true → p.mode = scanMode p.line p.lineClock p.mode3Scx.toNat

/-- Two mappers are of one kind. -/
def sameKind (m n : Mapper) : Bool :=
  match m, n with
  | .romOnly, .romOnly => true
  | .mbc1 _, .mbc1 _ => true
  | .mbc3 _, .mbc3 _ => true
  | .mbc5 _, .mbc5 _ => true
  | _, _ => false

/-- The cartridge is the one its header describes (R92 to R94), and a bank register that cannot hold 0 does not (R101,
R111). -/
structure CartOk (c : Cartridge) : Prop where
  image : 0x150 ≤ c.imageLength
  romBanks : romBankCount c.header.romSizeCode = some c.romBanks
  ram : ramSizeOf c.header.ramSizeCode = some (c.ramBytes, c.ramBanks)
  kind : ∃ m, mapperOfType c.header.typeByte = some m ∧ sameKind m c.mapper = true
  mbc1 : ∀ m, c.mapper = .mbc1 m → m.bank1 ≠ 0
  mbc3 : ∀ m, c.mapper = .mbc3 m → m.romBank ≠ 0

/-- Between two steps no EI is scheduled (R383, R417), HALT's one-shot flag is clear (R415), and a halted CPU has no double
fetch armed (R413). -/
structure CpuOk (c : Cpu) : Prop where
  ei : c.eiScheduled = false
  fresh : c.haltFresh = false
  armed : c.halted = true → c.haltBugArmed = false

/-- The machine's invariant between two steps. -/
structure Inv (s : State) : Prop where
  stores : StoresOk s
  scan : ScanOk s.config.line153Ly0At s.ppu
  cart : CartOk s.cart
  cpu : CpuOk s.cpu

/-! ### What an operation leaves alone -/

/-- From `s` to `t` only A, F, B, C, D, E, H, L may have changed, in the whole machine, and of the seven that codes name only
those `w` admits. -/
def OnlyRegs (s t : State) (w : Reg8 → Prop) : Prop :=
  t = { s with cpu := { s.cpu with af := t.cpu.af, bc := t.cpu.bc, de := t.cpu.de, hl := t.cpu.hl } } ∧
    ∀ r, ¬w r → getReg t.cpu r = getReg s.cpu r

/-- The four flags. -/
def FlagsAre (t : State) (z n h c : Bool) : Prop :=
  flagZ t.cpu = z ∧ flagN t.cpu = n ∧ flagH t.cpu = h ∧ flagC t.cpu = c

/-- The flags of `t` are those of `s`. -/
def SameFlags (s t : State) : Prop := FlagsAre t (flagZ s.cpu) (flagN s.cpu) (flagH s.cpu) (flagC s.cpu)

/-- Every byte of plain memory, visible or banked out, is as it was. -/
def SameMemory (s t : State) : Prop := ∀ l, readLoc t l = readLoc s l

/-- `t` is `s` with A and the flags written: `(res, fl) <- …; A <- res; F <- fl` of R200. -/
structure WritesA (s t : State) (res : Byte) (z n h c : Bool) : Prop where
  frame : OnlyRegs s t (· = .a)
  result : regA t.cpu = res
  flags : FlagsAre t z n h c
  memory : SameMemory s t

/-- `t` is `s` with register `r` and the flags written. -/
structure WritesReg (s t : State) (r : Reg8) (res : Byte) (z n h c : Bool) : Prop where
  frame : OnlyRegs s t (· = r)
  result : getReg t.cpu r = res
  flags : FlagsAre t z n h c
  memory : SameMemory s t

/-- `t` is `s` with register `r` written and no flag. -/
structure LoadsReg (s t : State) (r : Reg8) (v : Byte) : Prop where
  frame : OnlyRegs s t (· = r)
  result : getReg t.cpu r = v
  flags : SameFlags s t
  memory : SameMemory s t

/-- `t` is what a store of `v` at bus address `a` leaves, made in the machine cycle that ends at `u`; `s` is the machine
before the instruction. The CPU part is `t`'s own. -/
structure Stores (s u t : State) (a : Word) (v : Byte) : Prop where
  write : memWrite (withCpu u t.cpu) a v = .next t
  placed : StoresOk s → ∀ l, storedLoc u a = some l → readLoc t l = v
  others : ∀ l, storedLoc u a ≠ some l → readLoc t l = readLoc s l

/-- `t` is what `Push16(w)` leaves when its first byte is written in machine cycle `k + 1` after `s` and its second in the
next (R10, R81): the high byte one below SP, then the low byte two below, SP following. -/
def Pushes (s : State) (k : Nat) (w : Word) (t : State) : Prop :=
  let sp1 := s.cpu.sp - 1
  let sp2 := s.cpu.sp - 2
  let u := ticks (k + 1) s
  ∃ m,
    memWrite (setSp u sp1) sp1 (hiByte w) = .next m ∧
    memWrite (setSp (tick m) sp2) sp2 (loByte w) = .next t ∧
    t.cpu = { s.cpu with sp := sp2 } ∧
    t.clock = s.clock + 4 * (k + 2) ∧
    (StoresOk s → ∀ l, storedLoc (tick m) sp2 = some l → readLoc t l = loByte w) ∧
    (StoresOk s → ∀ l, storedLoc u sp1 = some l → storedLoc (tick m) sp2 ≠ some l → readLoc t l = hiByte w) ∧
    (∀ l, storedLoc u sp1 ≠ some l → storedLoc (tick m) sp2 ≠ some l → readLoc t l = readLoc s l)

/-- Both bytes of a 16-bit pop, read in the two machine cycles after `s` (R10). -/
def Pops (s : State) (w : Word) : Prop :=
  ∃ l h, memRead (tick s) s.cpu.sp = .next l ∧ memRead (ticks 2 s) (s.cpu.sp + 1) = .next h ∧ w = joinBytes h l

/-! ### Fetching -/

/-- The bytes a step reads of an instruction: all of them, but only the first of STOP (R381). -/
def fetchedBytes (i : Instr) : List Byte :=
  match i with
  | .stop => [0x10#8]
  | _ => encode i

/-- The bus gives the bytes `bs` from address `a` on, one in each machine cycle after `s`. -/
def Fetches (s : State) (a : Word) (bs : List Byte) : Prop :=
  ∀ k b, bs[k]? = some b → memRead (ticks (k + 1) s) (a + BitVec.ofNat 16 k) = .next b

/-- `s` after a fetch of `n` bytes that left PC at `pc`. -/
def afterFetch (s : State) (n : Nat) (pc : Word) : State :=
  withCpu (ticks n s) { s.cpu with pc := pc, haltBugArmed := false, opcodePc := s.cpu.pc }

/-! ### The illegal opcodes (R153) -/

/-- The eleven bytes of R153. -/
def illegalOpcodes : List Byte :=
  [0xD3#8, 0xDB#8, 0xDD#8, 0xE3#8, 0xE4#8, 0xEB#8, 0xEC#8, 0xED#8, 0xF4#8, 0xFC#8, 0xFD#8]

/-- The illegal opcodes with their bytes. -/
def illegalForms : List (Instr × Byte) :=
  [ (.illegalD3, 0xD3#8), (.illegalDB, 0xDB#8), (.illegalDD, 0xDD#8), (.illegalE3, 0xE3#8), (.illegalE4, 0xE4#8),
    (.illegalEB, 0xEB#8), (.illegalEC, 0xEC#8), (.illegalED, 0xED#8), (.illegalF4, 0xF4#8), (.illegalFC, 0xFC#8),
    (.illegalFD, 0xFD#8) ]

/-! ### The timing table (R535) -/

/-- Bytes and M-cycles of a form; `taken` chooses between the two counts of a conditional form. The row PREFIX CB is one byte
and has no count of its own; it stands here with the count of its own fetch. -/
def timing (i : Instr) (taken : Bool) : Nat × Nat :=
  match i with
  | .nop | .incR _ | .decR _ | .rlca | .rrca | .rla | .rra | .daa | .cpl | .scf | .ccf | .ldRR _ _ | .halt
  | .addAR _ | .adcAR _ | .subR _ | .sbcAR _ | .andR _ | .xorR _ | .orR _ | .cpR _ | .jpHl | .di | .ei
  | .illegalD3 | .illegalDB | .illegalDD | .illegalE3 | .illegalE4 | .illegalEB | .illegalEC | .illegalED
  | .illegalF4 | .illegalFC | .illegalFD | .prefixCb => (1, 1)
  | .ldBcA | .ldDeA | .ldHliA | .ldHldA | .incDd _ | .decDd _ | .addHlDd _ | .ldABc | .ldADe | .ldAHli | .ldAHld
  | .ldRMemHl _ | .ldMemHlR _ | .addAMemHl | .adcAMemHl | .subMemHl | .sbcAMemHl | .andMemHl | .xorMemHl
  | .orMemHl | .cpMemHl | .ldCA | .ldAC | .ldSpHl => (1, 2)
  | .incMemHl | .decMemHl | .popQq _ => (1, 3)
  | .pushQq _ | .rstT _ | .ret | .reti => (1, 4)
  | .retCc _ => (1, if taken then 5 else 2)
  | .stop => (2, 1)
  | .ldRN _ _ | .addAN _ | .adcAN _ | .subN _ | .sbcAN _ | .andN _ | .xorN _ | .orN _ | .cpN _ => (2, 2)
  | .ldMemHlN _ | .jrE _ | .ldhNA _ | .ldhAN _ | .ldHlSpE _ => (2, 3)
  | .jrCcE _ _ => (2, if taken then 3 else 2)
  | .addSpE _ => (2, 4)
  | .ldDdNn _ _ => (3, 3)
  | .jpNn _ | .ldNnA _ | .ldANn _ => (3, 4)
  | .jpCcNn _ _ => (3, if taken then 4 else 3)
  | .ldNnSp _ => (3, 5)
  | .callNn _ => (3, 6)
  | .callCcNn _ _ => (3, if taken then 6 else 3)
  | .rlcR _ | .rrcR _ | .rlR _ | .rrR _ | .slaR _ | .sraR _ | .swapR _ | .srlR _ | .bitBR _ _ | .resBR _ _
  | .setBR _ _ => (2, 2)
  | .bitBMemHl _ => (2, 3)
  | .rlcMemHl | .rrcMemHl | .rlMemHl | .rrMemHl | .slaMemHl | .sraMemHl | .swapMemHl | .srlMemHl | .resBMemHl _
  | .setBMemHl _ => (2, 4)

/-- The condition of a conditional form; true of any other form. -/
def taken (i : Instr) (c : Cpu) : Bool :=
  match i with
  | .jrCcE cc _ | .jpCcNn cc _ | .callCcNn cc _ | .retCc cc => condHolds c cc
  | _ => true

/-! ### Operand forms -/

/-- The three operand forms of R209 complete, and each relates the state before the instruction's own effect, the state after
it and the operand by `R`: a register, an immediate, and the byte at HL, read one machine cycle on. -/
def OperandForms (reg : Reg8 → Instr) (imm : Byte → Instr) (mem : Instr) (R : State → State → Byte → Prop) : Prop :=
  ∀ s : State,
    (∀ r, ∃ t, exec (reg r) s = .next t ∧ R s t (getReg s.cpu r)) ∧
    (∀ n, ∃ t, exec (imm n) s = .next t ∧ R s t n) ∧
    (accessible s s.cpu.hl = true →
      ∃ v t, memRead (tick s) s.cpu.hl = .next v ∧ exec mem s = .next t ∧ R (tick s) t v)

/-- `(res, fl) <- ADC8(A, b, cin)` written to A and F (R202); with cin = 0, ADD8 (R201). -/
def AddsToA (s t : State) (b : Byte) (cin : Nat) : Prop :=
  let a := regA s.cpu
  let sum := a.toNat + b.toNat + cin
  WritesA s t (BitVec.ofNat 8 sum) (decide (sum % 256 = 0)) false
    (decide ((a &&& 0x0F#8).toNat + (b &&& 0x0F#8).toNat + cin > 0x0F)) (decide (sum > 0xFF))

/-- `(res, fl) <- SBC8(A, b, cin)` (R204), its result written to A unless `discard` (R208); with cin = 0, SUB8 (R203). -/
def SubtractsFromA (s t : State) (b : Byte) (cin : Nat) (discard : Bool) : Prop :=
  let a := regA s.cpu
  let diff : Int := (a.toNat : Int) - (b.toNat : Int) - (cin : Int)
  WritesA s t (if discard then a else BitVec.ofInt 8 diff) (decide (diff % 256 = 0)) true
    (decide ((a &&& 0x0F#8).toNat < (b &&& 0x0F#8).toNat + cin)) (decide (diff < 0))

/-- The eight rotates and shifts of the CB table: register form, (HL) form, and the result and the bit that leaves as
functions of the operand and the carry, as numbers (R275 to R282). -/
def shiftForms : List ((Reg8 → Instr) × Instr × (Nat → Nat → Nat × Nat)) :=
  [ (.rlcR, .rlcMemHl, fun v _ => ((2 * v + v / 128) % 256, v / 128)),
    (.rrcR, .rrcMemHl, fun v _ => (v / 2 + 128 * (v % 2), v % 2)),
    (.rlR, .rlMemHl, fun v c => ((2 * v + c) % 256, v / 128)),
    (.rrR, .rrMemHl, fun v c => (v / 2 + 128 * c, v % 2)),
    (.slaR, .slaMemHl, fun v _ => (2 * v % 256, v / 128)),
    (.sraR, .sraMemHl, fun v _ => (v / 2 + 128 * (v / 128), v % 2)),
    (.swapR, .swapMemHl, fun v _ => (v % 16 * 16 + v / 16, 0)),
    (.srlR, .srlMemHl, fun v _ => (v / 2, v % 2)) ]

/-- The loads of A from memory: each form, the address it loads from and what is added to HL after the access (R316, R317,
R320, R322, R324, R326, R327). -/
def loadForms (c : Cpu) (n : Byte) (nn : Word) : List (Instr × Word × Word) :=
  [ (.ldABc, c.bc, 0), (.ldADe, c.de, 0), (.ldANn nn, nn, 0), (.ldhAN n, BitVec.ofNat 16 (0xFF00 + n.toNat), 0),
    (.ldAC, BitVec.ofNat 16 (0xFF00 + (getReg c .c).toNat), 0), (.ldAHli, c.hl, 1), (.ldAHld, c.hl, -1) ]

/-- The stores of one byte: each form, the address it stores to, the byte, and what is added to HL after the access (R314,
R315, R318, R319, R321, R323, R325, R328, R329). -/
def storeForms (c : Cpu) (r : Reg8) (n : Byte) (nn : Word) : List (Instr × Word × Byte × Word) :=
  [ (.ldMemHlR r, c.hl, getReg c r, 0), (.ldMemHlN n, c.hl, n, 0), (.ldBcA, c.bc, regA c, 0), (.ldDeA, c.de, regA c, 0),
    (.ldNnA nn, nn, regA c, 0), (.ldhNA n, BitVec.ofNat 16 (0xFF00 + n.toNat), regA c, 0),
    (.ldCA, BitVec.ofNat 16 (0xFF00 + (getReg c .c).toNat), regA c, 0), (.ldHliA, c.hl, regA c, 1),
    (.ldHldA, c.hl, regA c, -1) ]

/-- The condition codes of R146. -/
def Holds (cc : Cond) (s : State) : Prop :=
  match cc with
  | .nz => flagZ s.cpu = false
  | .z => flagZ s.cpu = true
  | .nc => flagC s.cpu = false
  | .c => flagC s.cpu = true

/-- The instructions that write SP (R24). -/
def writesSp (i : Instr) : Bool :=
  match i with
  | .pushQq _ | .popQq _ | .callNn _ | .callCcNn _ _ | .ret | .retCc _ | .reti | .rstT _ | .ldSpHl | .addSpE _
  | .ldDdNn .sp _ | .incDd .sp | .decDd .sp => true
  | _ => false

/-! ### The timer -/

/-- The counter bit that a value of TAC selects (R442, R448). -/
def counterBit (tac : Nat) : Nat :=
  match tac % 4 with
  | 0 => 9
  | 1 => 3
  | 2 => 5
  | _ => 7

/-! ### Construction -/

/-- The mapper of each type byte with its reset registers (R92, R100, R110, R120). -/
def mapperTable : List (Byte × Mapper) :=
  [(0x00#8, .romOnly)] ++
  [0x01#8, 0x02#8, 0x03#8].map (fun t => (t, .mbc1 { ramEnable := false, bank1 := 1, bank2 := 0, mode := 0 })) ++
  [0x0F#8, 0x10#8, 0x11#8, 0x12#8, 0x13#8].map (fun t => (t, .mbc3 { ramEnable := false, romBank := 1, ramSel := 0 })) ++
  [0x19#8, 0x1A#8, 0x1B#8, 0x1C#8, 0x1D#8, 0x1E#8].map (fun t =>
    (t, .mbc5 { ramEnable := false, romLo := 1, romHi := 0, ramBank := 0, mode := 0 }))

/-- The ROM banks of each ROM-size code (R93). -/
def romSizeTable : List (Byte × Nat) :=
  [ (0x00#8, 2), (0x01#8, 4), (0x02#8, 8), (0x03#8, 16), (0x04#8, 32), (0x05#8, 64), (0x06#8, 128), (0x07#8, 256),
    (0x08#8, 512), (0x52#8, 72), (0x53#8, 80), (0x54#8, 96) ]

/-- The RAM bytes and banks of each RAM-size code (R94). -/
def ramSizeTable : List (Byte × Nat × Nat) :=
  [ (0x00#8, 0, 0), (0x01#8, 2048, 1), (0x02#8, 8192, 1), (0x03#8, 32768, 4), (0x04#8, 131072, 16), (0x05#8, 65536, 8) ]

/-- The byte a draw of `INIT_RAM` gives an address: its last entry for it, and 0x00 where it has none (log 3). -/
def drawnByte (ram : List (Nat × Byte)) (a : Nat) : Byte :=
  match ram with
  | [] => 0x00#8
  | c :: t => if c.1 = a ∧ ∀ e ∈ t, e.1 ≠ a then c.2 else drawnByte t a

/-- What the registers read right after reset (R521). -/
def resetReads : List (Word × Byte) :=
  [ (0xFF00#16, 0xCF#8), (0xFF01#16, 0x00#8), (0xFF02#16, 0x00#8), (0xFF05#16, 0x00#8), (0xFF06#16, 0x00#8),
    (0xFF07#16, 0xF8#8), (0xFF0F#16, 0xE1#8), (0xFF40#16, 0x00#8), (0xFF41#16, 0x80#8), (0xFF42#16, 0x00#8),
    (0xFF43#16, 0x00#8), (0xFF44#16, 0x00#8), (0xFF45#16, 0x00#8), (0xFF47#16, 0x00#8), (0xFF48#16, 0x00#8),
    (0xFF49#16, 0x00#8), (0xFF4A#16, 0x00#8), (0xFF4B#16, 0x00#8), (0xFFFF#16, 0xE0#8) ]

/-! ### The scan of the PPU -/

/-- `n` PPU clocks (R460). -/
def ppuClocks (ly0At n : Nat) (p : Ppu) (f : BitVec 5) : Ppu × BitVec 5 := ppuUpdate ly0At n p f

/-- The clock of the frame that comes next: 0 to 70223 (R462). -/
def frameClock (p : Ppu) : Nat := p.line * 456 + p.lineClock

/-- A key of a group by its P1 bit (R480). -/
def keyDown (g : KeyGroup) (k : Nat) : Bool :=
  match k with
  | 0 => g.key0
  | 1 => g.key1
  | 2 => g.key2
  | _ => g.key3

end Sys2Proof.Machine
end

