-- ==== Sys2Proof/Certificates/Slice0/Obligations.lean ====
section
/-! DEFINITION. The statements about the model. `exec i s` runs the body of `i` at the state `s` its fetch left (R178), so that
"before" is the state after the fetch; `StepRunsDecoded` ties the two together. `tick s` is the state one machine cycle
later, which differs from `s` in the timer, the scan of the PPU, IF and the clock alone (`TickFrame`). -/

open Sys2Proof Sys2Proof.Machine

/-! ### Encoding -/

/-- Words written out from the opcode maps of R151 and R152 decode to their instructions. -/
def Obligations.DecodeWords : Prop :=
  decode [0x00#8] = .ok .nop ∧
  decode [0x31#8, 0xFE#8, 0xFF#8] = .ok (.ldDdNn .sp 0xFFFE#16) ∧
  decode [0x78#8] = .ok (.ldRR .a .b) ∧
  decode [0x76#8] = .ok .halt ∧
  decode [0x9E#8] = .ok .sbcAMemHl ∧
  decode [0xE6#8, 0x0F#8] = .ok (.andN 0x0F#8) ∧
  decode [0x38#8, 0xFE#8] = .ok (.jrCcE .c 0xFE#8) ∧
  decode [0xC4#8, 0x34#8, 0x12#8] = .ok (.callCcNn .nz 0x1234#16) ∧
  decode [0xF5#8] = .ok (.pushQq .af) ∧
  decode [0xEF#8] = .ok (.rstT 0x28#8) ∧
  decode [0xCB#8, 0x37#8] = .ok (.swapR .a) ∧
  decode [0xCB#8, 0xCB#8] = .ok (.setBR 1 .e) ∧
  decode [0xCB#8, 0x7E#8] = .ok (.bitBMemHl 7) ∧
  decode [0xED#8] = .ok .illegalED

/-- Decoding what the encoder writes gives the instruction back, whatever bytes follow; the bare prefix is read as itself
only with nothing after it. -/
def Obligations.DecodeEncode : Prop :=
  ∀ i : Instr, i.wf = true →
    decode (encode i) = .ok i ∧ (i ≠ .prefixCb → ∀ rest, decode (encode i ++ rest) = .ok i)

/-- Whatever the decoder reads is well formed, and its encoding is the head of the bytes read, except for STOP, whose second
byte is not looked at (R381). -/
def Obligations.EncodeDecode : Prop :=
  ∀ (bs : List Byte) (i : Instr), decode bs = .ok i →
    i.wf = true ∧ (if i = .stop then bs.head? = some 0x10#8 else encode i <+: bs)

/-! ### The step -/

/-- When the bytes from PC on decode to an instruction, a running machine's step is `exec` of it at the state the fetch
left, one machine cycle and one PC increment for each byte read (log 7), and then the service call of R171. -/
def Obligations.StepRunsDecoded : Prop :=
  ∀ (s : State) (bs : List Byte) (i : Instr),
    decode bs = .ok i → i ≠ .prefixCb → bs.length = (fetchedBytes i).length →
    s.fault = none → s.cpu.halted = false → s.cpu.haltBugArmed = false →
    Fetches s s.cpu.pc bs →
    step s = andThen (exec i (afterFetch s bs.length (s.cpu.pc + BitVec.ofNat 16 bs.length))) finishStep

/-- With the double fetch armed the opcode fetch does not advance PC, so that the opcode byte is read again as the first
operand byte (R171, R173, R175, R178). That all the bytes are fetched before `exec` is the model's arrangement (log 7), and
the noted opcode address its own field (log 6). -/
def Obligations.DoubleFetch : Prop :=
  ∀ (s : State) (op : Byte) (rest : List Byte) (i : Instr),
    decode (op :: rest) = .ok i → i ≠ .prefixCb → rest.length + 1 = (fetchedBytes i).length →
    s.fault = none → s.cpu.halted = false → s.cpu.haltBugArmed = true →
    memRead (tick s) s.cpu.pc = .next op → Fetches (tick s) s.cpu.pc rest →
    step s = andThen (exec i (afterFetch s (rest.length + 1) (s.cpu.pc + BitVec.ofNat 16 rest.length))) finishStep

/-- The bare prefix fetches its CB byte and runs the CB instruction (R174, R385; log 10); where the bytes at PC and at HL can
be accessed it completes. -/
def Obligations.PrefixRunsCb : Prop :=
  ∀ s : State, accessible s s.cpu.pc = true → accessible s s.cpu.hl = true →
    ∃ cb t, memRead (tick s) s.cpu.pc = .next cb ∧ exec .prefixCb s = .next t ∧
      exec (decodeCb cb) (setPc (tick s) (s.cpu.pc + 1)) = .next t

/-- `step` answers a fault exactly at a machine that holds one (R170; the form of the
answer is the model's choice, log 11); the only refusal is an access to the RAM window of an
MBC3 (R113, R126). -/
def Obligations.StepStops : Prop :=
  ∀ s : State,
    (∀ f, step s = .fault f ↔ s.fault = some f) ∧
    (∀ r, step s = .refused r →
      (∃ m, s.cart.mapper = .mbc3 m) ∧
        ∃ a : Word, r = .mbc3ClockAccess a ∧ 0xA000 ≤ a.toNat ∧ a.toNat < 0xC000)

/-! ### 8-bit arithmetic and logic -/

/-- ADD and ADC, every operand form: result, flags and frame (R201, R202). -/
def Obligations.AddAdc : Prop :=
  OperandForms .addAR .addAN .addAMemHl (fun s t b => AddsToA s t b 0) ∧
  OperandForms .adcAR .adcAN .adcAMemHl (fun s t b => AddsToA s t b (flagC s.cpu).toNat)

/-- SUB, SBC and CP, every operand form: result, flags and frame (R203, R204, R208). -/
def Obligations.SubSbcCp : Prop :=
  OperandForms .subR .subN .subMemHl (fun s t b => SubtractsFromA s t b 0 false) ∧
  OperandForms .sbcAR .sbcAN .sbcAMemHl (fun s t b => SubtractsFromA s t b (flagC s.cpu).toNat false) ∧
  OperandForms .cpR .cpN .cpMemHl (fun s t b => SubtractsFromA s t b 0 true)

/-- AND, XOR and OR, every operand form: result, flags and frame (R205 to R207). -/
def Obligations.AndXorOr : Prop :=
  OperandForms .andR .andN .andMemHl
    (fun s t b => WritesA s t (regA s.cpu &&& b) (decide (regA s.cpu &&& b = 0)) false true false) ∧
  OperandForms .xorR .xorN .xorMemHl
    (fun s t b => WritesA s t (regA s.cpu ^^^ b) (decide (regA s.cpu = b)) false false false) ∧
  OperandForms .orR .orN .orMemHl
    (fun s t b => WritesA s t (regA s.cpu ||| b) (decide (regA s.cpu = 0 ∧ b = 0)) false false false)

/-- INC and DEC of a register and of the byte at HL: result, flags with C kept, and frame (R234 to R237). -/
def Obligations.IncDec8 : Prop :=
  ∀ s : State,
    (∀ r, ∃ t, exec (.incR r) s = .next t ∧
      WritesReg s t r (BitVec.ofNat 8 ((getReg s.cpu r).toNat + 1)) (decide (getReg s.cpu r = 0xFF#8)) false
        (decide (getReg s.cpu r &&& 0x0F#8 = 0x0F#8)) (flagC s.cpu)) ∧
    (∀ r, ∃ t, exec (.decR r) s = .next t ∧
      WritesReg s t r (BitVec.ofNat 8 ((getReg s.cpu r).toNat + 255)) (decide (getReg s.cpu r = 0x01#8)) true
        (decide (getReg s.cpu r &&& 0x0F#8 = 0x00#8)) (flagC s.cpu)) ∧
    (accessible s s.cpu.hl = true →
      ∃ v, memRead (tick s) s.cpu.hl = .next v ∧
        (∃ t, exec .incMemHl s = .next t ∧ Stores s (ticks 2 s) t s.cpu.hl (BitVec.ofNat 8 (v.toNat + 1)) ∧
          t.cpu = { s.cpu with af := t.cpu.af } ∧ regA t.cpu = regA s.cpu ∧
          FlagsAre t (decide (v = 0xFF#8)) false (decide (v &&& 0x0F#8 = 0x0F#8)) (flagC s.cpu)) ∧
        (∃ t, exec .decMemHl s = .next t ∧ Stores s (ticks 2 s) t s.cpu.hl (BitVec.ofNat 8 (v.toNat + 255)) ∧
          t.cpu = { s.cpu with af := t.cpu.af } ∧ regA t.cpu = regA s.cpu ∧
          FlagsAre t (decide (v = 0x01#8)) true (decide (v &&& 0x0F#8 = 0x00#8)) (flagC s.cpu)))

/-- DAA by the branches of R238, and CPL, SCF and CCF (R239 to R241): result, flags and frame. -/
def Obligations.DaaCplScfCcf : Prop :=
  ∀ s : State,
    let a := regA s.cpu
    let c := flagC s.cpu
    (flagN s.cpu = false → ∃ t, exec .daa s = .next t ∧
      let low := flagH s.cpu = true ∨ (a &&& 0x0F#8).toNat > 0x09
      let high := c = true ∨ a.toNat > 0x99
      let res : Byte := a + (if low ∧ high then 0x66#8 else if high then 0x60#8 else if low then 0x06#8 else 0x00#8)
      WritesA s t res (decide (res = 0)) false false (decide high)) ∧
    (flagN s.cpu = true → ∃ t, exec .daa s = .next t ∧
      let res : Byte := a - (if flagH s.cpu then 0x06#8 else 0x00#8) - (if c then 0x60#8 else 0x00#8)
      WritesA s t res (decide (res = 0)) true false c) ∧
    (∃ t, exec .cpl s = .next t ∧ WritesA s t (~~~a) (flagZ s.cpu) true true c) ∧
    (∃ t, exec .scf s = .next t ∧ WritesA s t a (flagZ s.cpu) false false true) ∧
    (∃ t, exec .ccf s = .next t ∧ WritesA s t a (flagZ s.cpu) false false (!c))

/-! ### 16-bit arithmetic -/

/-- ADD HL,dd; INC dd; DEC dd: result, flags and frame (R251 to R253). -/
def Obligations.PairArithmetic : Prop :=
  ∀ (s : State) (dd : Pair),
    (∃ t, exec (.addHlDd dd) s = .next t ∧
      let a := s.cpu.hl
      let b := getPair s.cpu dd
      t = { tick s with cpu := { s.cpu with hl := BitVec.ofNat 16 (a.toNat + b.toNat), af := t.cpu.af } } ∧
      regA t.cpu = regA s.cpu ∧ SameMemory s t ∧
      FlagsAre t (flagZ s.cpu) false (decide ((a &&& 0x0FFF#16).toNat + (b &&& 0x0FFF#16).toNat > 0x0FFF))
        (decide (a.toNat + b.toNat > 0xFFFF))) ∧
    (∀ i v, i = .incDd dd ∧ v = (getPair s.cpu dd).toNat + 1 ∨ i = .decDd dd ∧ v = (getPair s.cpu dd).toNat + 65535 →
      ∃ t, exec i s = .next t ∧ getPair t.cpu dd = BitVec.ofNat 16 v ∧
        (∀ e, e ≠ dd → getPair t.cpu e = getPair s.cpu e) ∧ SameMemory s t ∧
        t = { tick s with
          cpu := { s.cpu with bc := t.cpu.bc, de := t.cpu.de, hl := t.cpu.hl, sp := t.cpu.sp } })

/-- ADD SP,e and LD HL,SP+e: the signed sum, the flags of the unsigned low-byte sum with Z and N clear, and the frame (R254,
R255). -/
def Obligations.SpArithmetic : Prop :=
  ∀ (s : State) (e : Byte),
    let sum : Word := BitVec.ofInt 16 ((s.cpu.sp.toNat : Int) + e.toInt)
    let h := decide ((s.cpu.sp &&& 0x000F#16).toNat + (e &&& 0x0F#8).toNat > 0x0F)
    let c := decide ((s.cpu.sp &&& 0x00FF#16).toNat + e.toNat > 0xFF)
    (∃ t, exec (.addSpE e) s = .next t ∧
      t = { ticks 2 s with cpu := { s.cpu with sp := sum, af := t.cpu.af } } ∧
      regA t.cpu = regA s.cpu ∧ SameMemory s t ∧ FlagsAre t false false h c) ∧
    (∃ t, exec (.ldHlSpE e) s = .next t ∧
      t = { tick s with cpu := { s.cpu with hl := sum, af := t.cpu.af } } ∧
      regA t.cpu = regA s.cpu ∧ SameMemory s t ∧ FlagsAre t false false h c)

/-! ### Rotates, shifts and bits -/

/-- RLCA, RRCA, RLA, RRA: the rotated A, Z, N and H always clear, C the bit that leaves, and the frame (R271 to R274). -/
def Obligations.AccumulatorRotates : Prop :=
  ∀ s : State,
    let a := (regA s.cpu).toNat
    let c := (flagC s.cpu).toNat
    (∃ t, exec .rlca s = .next t ∧
      WritesA s t (BitVec.ofNat 8 (2 * a + a / 128)) false false false (decide (a / 128 = 1))) ∧
    (∃ t, exec .rrca s = .next t ∧
      WritesA s t (BitVec.ofNat 8 (a / 2 + 128 * (a % 2))) false false false (decide (a % 2 = 1))) ∧
    (∃ t, exec .rla s = .next t ∧
      WritesA s t (BitVec.ofNat 8 (2 * a + c)) false false false (decide (a / 128 = 1))) ∧
    (∃ t, exec .rra s = .next t ∧
      WritesA s t (BitVec.ofNat 8 (a / 2 + 128 * c)) false false false (decide (a % 2 = 1)))

/-- The eight rotates and shifts of the CB table on a register: result, Z from it, N and H clear, C the bit that leaves,
and the frame (R275 to R282). -/
def Obligations.CbShiftRegister : Prop :=
  ∀ f ∈ shiftForms, ∀ (s : State) (r : Reg8), ∃ t, exec (f.1 r) s = .next t ∧
    let o := f.2.2 (getReg s.cpu r).toNat (flagC s.cpu).toNat
    WritesReg s t r (BitVec.ofNat 8 o.1) (decide (o.1 = 0)) false false (decide (o.2 = 1))

/-- The eight rotates and shifts of the CB table on the byte at HL: read in one machine cycle, written in the next, with
the register form's result and flags, and the frame. -/
def Obligations.CbShiftMemory : Prop :=
  ∀ f ∈ shiftForms, ∀ s : State, accessible s s.cpu.hl = true →
    ∃ v t, memRead (tick s) s.cpu.hl = .next v ∧ exec f.2.1 s = .next t ∧
      let o := f.2.2 v.toNat (flagC s.cpu).toNat
      Stores s (ticks 2 s) t s.cpu.hl (BitVec.ofNat 8 o.1) ∧
      t.cpu = { s.cpu with af := t.cpu.af } ∧ regA t.cpu = regA s.cpu ∧
      FlagsAre t (decide (o.1 = 0)) false false (decide (o.2 = 1))

/-- BIT b: Z is the complement of the tested bit, N clear, H set, C kept, and nothing else changes, in memory neither
(R299, R300). RES b and SET b change the one bit of a register or of the byte at HL, and no flag (R301 to R304). -/
def Obligations.BitResSet : Prop :=
  ∀ (s : State) (b : Nat), b < 8 →
    (∀ r, ∃ t, exec (.bitBR b r) s = .next t ∧
      WritesA s t (regA s.cpu) (decide ((getReg s.cpu r).toNat / 2 ^ b % 2 = 0)) false true (flagC s.cpu)) ∧
    (∀ r, ∃ t v, exec (.resBR b r) s = .next t ∧ LoadsReg s t r v ∧
      ∀ j, j < 8 → v.getLsbD j = if j = b then false else (getReg s.cpu r).getLsbD j) ∧
    (∀ r, ∃ t v, exec (.setBR b r) s = .next t ∧ LoadsReg s t r v ∧
      ∀ j, j < 8 → v.getLsbD j = if j = b then true else (getReg s.cpu r).getLsbD j) ∧
    (accessible s s.cpu.hl = true → ∃ u, memRead (tick s) s.cpu.hl = .next u ∧
      (∃ t, exec (.bitBMemHl b) s = .next t ∧
        WritesA (tick s) t (regA s.cpu) (decide (u.toNat / 2 ^ b % 2 = 0)) false true (flagC s.cpu)) ∧
      (∃ t v, exec (.resBMemHl b) s = .next t ∧ Stores s (ticks 2 s) t s.cpu.hl v ∧ t.cpu = s.cpu ∧
        ∀ j, j < 8 → v.getLsbD j = if j = b then false else u.getLsbD j) ∧
      (∃ t v, exec (.setBMemHl b) s = .next t ∧ Stores s (ticks 2 s) t s.cpu.hl v ∧ t.cpu = s.cpu ∧
        ∀ j, j < 8 → v.getLsbD j = if j = b then true else u.getLsbD j))

/-! ### Loads and the stack -/

/-- LD r,r'; LD r,n; LD dd,nn; LD SP,HL: the destination takes the value, and nothing else changes but time (R311, R312, R330,
R332). -/
def Obligations.RegisterLoads : Prop :=
  ∀ s : State,
    (∀ r q, ∃ t, exec (.ldRR r q) s = .next t ∧ LoadsReg s t r (getReg s.cpu q)) ∧
    (∀ r n, ∃ t, exec (.ldRN r n) s = .next t ∧ LoadsReg s t r n) ∧
    (∀ dd nn, ∃ t, exec (.ldDdNn dd nn) s = .next t ∧ getPair t.cpu dd = nn ∧
      (∀ e, e ≠ dd → getPair t.cpu e = getPair s.cpu e) ∧ SameMemory s t ∧
      t = { s with cpu := { s.cpu with bc := t.cpu.bc, de := t.cpu.de, hl := t.cpu.hl, sp := t.cpu.sp } }) ∧
    (∃ t, exec .ldSpHl s = .next t ∧ SameMemory s t ∧
      t = { tick s with cpu := { s.cpu with sp := s.cpu.hl } })

/-- The loads from memory read one byte a machine cycle on, at the address of their rule, into their destination alone; the
HL+ and HL- forms then move HL by one (R313, R316, R317, R320, R322, R324, R326, R327). -/
def Obligations.MemoryLoads : Prop :=
  ∀ s : State,
    (∀ n nn, ∀ f ∈ loadForms s.cpu n nn, accessible s f.2.1 = true →
      ∃ v t, memRead (tick s) f.2.1 = .next v ∧ exec f.1 s = .next t ∧ regA t.cpu = v ∧ SameFlags s t ∧ SameMemory s t ∧
        t = { tick s with cpu := { s.cpu with af := t.cpu.af, hl := s.cpu.hl + f.2.2 } }) ∧
    (∀ r, accessible s s.cpu.hl = true →
      ∃ v t, memRead (tick s) s.cpu.hl = .next v ∧ exec (.ldRMemHl r) s = .next t ∧ LoadsReg (tick s) t r v)

/-- The stores write one byte a machine cycle on, at the address of their rule, and change no other byte; no register
changes but HL in the HL+ and HL- forms (R314, R315, R318, R319, R321, R323, R325, R328, R329). LD (nn),SP writes the low
byte at nn and a cycle later the high byte at nn + 1 (R331, R78). -/
def Obligations.MemoryStores : Prop :=
  ∀ s : State,
    (∀ r n nn, ∀ f ∈ storeForms s.cpu r n nn, accessible s f.2.1 = true →
      ∃ t, exec f.1 s = .next t ∧ Stores s (tick s) t f.2.1 f.2.2.1 ∧
        t.cpu = { s.cpu with hl := s.cpu.hl + f.2.2.2 }) ∧
    (∀ nn : Word, accessible s nn = true → accessible s (nn + 1) = true →
      ∃ m t, exec (.ldNnSp nn) s = .next t ∧ t.cpu = s.cpu ∧
        Stores s (tick s) m nn (BitVec.ofNat 8 s.cpu.sp.toNat) ∧
        Stores m (tick m) t (nn + 1) (BitVec.ofNat 8 (s.cpu.sp.toNat / 256)))

/-- PUSH qq and POP qq: PUSH spends a cycle and pushes the pair, high byte first; POP reads low byte first and writes the
pair, AF read back with a zero low nibble; nothing else changes but SP (R333, R334). -/
def Obligations.PushPop : Prop :=
  ∀ (s : State) (qq : StackPair),
    (accessible s (s.cpu.sp - 1) = true → accessible s (s.cpu.sp - 2) = true →
      ∃ t, exec (.pushQq qq) s = .next t ∧ Pushes s 1 (getStackPair s.cpu qq) t) ∧
    (accessible s s.cpu.sp = true → accessible s (s.cpu.sp + 1) = true →
      ∃ w t, Pops s w ∧ exec (.popQq qq) s = .next t ∧
        getStackPair t.cpu qq = (if qq = .af then w &&& 0xFFF0#16 else w) ∧
        (∀ q, q ≠ qq → getStackPair t.cpu q = getStackPair s.cpu q) ∧ SameMemory s t ∧
        t = { ticks 2 s with
          cpu := { s.cpu with af := t.cpu.af, bc := t.cpu.bc, de := t.cpu.de, hl := t.cpu.hl, sp := s.cpu.sp + 2 } })

/-- With the stack in work RAM, high RAM or echo RAM, POP after PUSH gives any pair the value pushed from any pair and puts SP
back; the two bodies take 3 and 2 machine cycles, which with their fetches are the 4 and 3 of R535. -/
def Obligations.PushPopRoundTrip : Prop :=
  ∀ (s : State) (qq q : StackPair) (x y : Nat),
    StoresOk s → locOf s (s.cpu.sp - 1) = some (.flat x) → locOf s (s.cpu.sp - 2) = some (.flat y) →
    ∃ t u, exec (.pushQq qq) s = .next t ∧ exec (.popQq q) t = .next u ∧
      getStackPair u.cpu q = (if q = .af then getStackPair s.cpu qq &&& 0xFFF0#16 else getStackPair s.cpu qq) ∧
      u.cpu.sp = s.cpu.sp ∧ t.clock = s.clock + 12 ∧ u.clock = t.clock + 8

/-! ### Control transfer -/

/-- JP nn, JP HL, JR e, and JP cc and JR cc on both paths: only PC changes, and time by the taken path's cycle (R351 to
R355). -/
def Obligations.Jumps : Prop :=
  ∀ (s : State) (nn : Word) (e : Byte) (cc : Cond),
    let target : Word := BitVec.ofInt 16 ((s.cpu.pc.toNat : Int) + e.toInt)
    (∃ t, exec (.jpNn nn) s = .next t ∧ t = { tick s with cpu := { s.cpu with pc := nn } } ∧ SameMemory s t) ∧
    (∃ t, exec .jpHl s = .next t ∧ t = { s with cpu := { s.cpu with pc := s.cpu.hl } } ∧ SameMemory s t) ∧
    (∃ t, exec (.jrE e) s = .next t ∧ t = { tick s with cpu := { s.cpu with pc := target } } ∧ SameMemory s t) ∧
    (Holds cc s →
      (∃ t, exec (.jpCcNn cc nn) s = .next t ∧ t = { tick s with cpu := { s.cpu with pc := nn } } ∧ SameMemory s t) ∧
      (∃ t, exec (.jrCcE cc e) s = .next t ∧ t = { tick s with cpu := { s.cpu with pc := target } } ∧
        SameMemory s t)) ∧
    (¬Holds cc s → exec (.jpCcNn cc nn) s = .next s ∧ exec (.jrCcE cc e) s = .next s)

/-- CALL nn, RST t, and CALL cc on both paths: one cycle, then the address after the instruction is pushed, then PC is the
target; nothing else changes (R356, R357, R361). -/
def Obligations.Calls : Prop :=
  ∀ (s : State) (nn : Word) (t8 : Byte) (cc : Cond),
    (accessible s (s.cpu.sp - 1) = true → accessible s (s.cpu.sp - 2) = true →
      (∃ u t, Pushes s 1 s.cpu.pc u ∧ exec (.callNn nn) s = .next t ∧
        t = { u with cpu := { s.cpu with sp := s.cpu.sp - 2, pc := nn } }) ∧
      (∃ u t, Pushes s 1 s.cpu.pc u ∧ exec (.rstT t8) s = .next t ∧
        t = { u with cpu := { s.cpu with sp := s.cpu.sp - 2, pc := BitVec.ofNat 16 t8.toNat } }) ∧
      (Holds cc s → ∃ u t, Pushes s 1 s.cpu.pc u ∧ exec (.callCcNn cc nn) s = .next t ∧
        t = { u with cpu := { s.cpu with sp := s.cpu.sp - 2, pc := nn } })) ∧
    (¬Holds cc s → exec (.callCcNn cc nn) s = .next s)

/-- RET, RETI, and RET cc on both paths: PC is popped, low byte first, then a cycle; RETI sets IME at once and leaves the EI
schedule; nothing else changes (R358 to R360). -/
def Obligations.Returns : Prop :=
  ∀ (s : State) (cc : Cond),
    (accessible s s.cpu.sp = true → accessible s (s.cpu.sp + 1) = true →
      (∃ w t, Pops s w ∧ exec .ret s = .next t ∧ SameMemory s t ∧
        t = { ticks 3 s with cpu := { s.cpu with sp := s.cpu.sp + 2, pc := w } }) ∧
      (∃ w t, Pops s w ∧ exec .reti s = .next t ∧ SameMemory s t ∧
        t = { ticks 3 s with cpu := { s.cpu with sp := s.cpu.sp + 2, pc := w, ime := true } }) ∧
      (Holds cc s → ∃ w t, Pops (tick s) w ∧ exec (.retCc cc) s = .next t ∧ SameMemory s t ∧
        t = { ticks 4 s with cpu := { s.cpu with sp := s.cpu.sp + 2, pc := w } })) ∧
    (¬Holds cc s → exec (.retCc cc) s = .next (tick s))

/-! ### System instructions and the fault -/

/-- NOP changes nothing; STOP skips its second byte; HALT sets `halted` and `haltFresh`; DI clears IME and the EI schedule; EI
sets the schedule; none of them changes anything else or takes a cycle beyond its fetch (R380 to R384). -/
def Obligations.SystemInstructions : Prop :=
  ∀ s : State,
    exec .nop s = .next s ∧
    (∃ t, exec .stop s = .next t ∧ t = { s with cpu := { s.cpu with pc := BitVec.ofNat 16 (s.cpu.pc.toNat + 1) } } ∧
      SameMemory s t) ∧
    (∃ t, exec .halt s = .next t ∧ t = { s with cpu := { s.cpu with halted := true, haltFresh := true } } ∧
      SameMemory s t) ∧
    (∃ t, exec .di s = .next t ∧ t = { s with cpu := { s.cpu with ime := false, eiScheduled := false } } ∧
      SameMemory s t) ∧
    (∃ t, exec .ei s = .next t ∧ t = { s with cpu := { s.cpu with eiScheduled := true } } ∧ SameMemory s t)

/-- EI's latency: whatever is pending, the call that ends the EI step takes no interrupt and only then sets IME, so that the
next instruction runs; a DI there leaves IME clear with no interrupt taken, while after any instruction that leaves the
machine as it was (NOP) a pending interrupt is taken (R384, R417, R526). -/
def Obligations.EiLatency : Prop :=
  ∀ s : State, s.fault = none → s.cpu.halted = false → s.cpu.ime = false →
    ∃ t u, exec .ei s = .next t ∧ finishStep t = .next u ∧
      u = { s with cpu := { s.cpu with ime := true, eiScheduled := false, haltFresh := false } } ∧
      (∃ v w, exec .di u = .next v ∧ finishStep v = .next w ∧
        w = { s with cpu := { s.cpu with ime := false, eiScheduled := false, haltFresh := false } }) ∧
      (∀ i, i < 5 → (s.intr.ifReg &&& s.intr.ieReg).getLsbD i = true →
        accessible s (s.cpu.sp - 1) = true → accessible s (s.cpu.sp - 2) = true →
        ∃ w, andThen (exec .nop u) finishStep = .next w ∧ w.cpu.ime = false ∧ w.clock = s.clock + 20 ∧
          ∃ j, j ≤ i ∧ w.cpu.pc = BitVec.ofNat 16 (0x40 + 8 * j))

/-- The illegal opcodes: exactly the eleven bytes of R153 decode to them; their body records the byte and the address of the
opcode and changes nothing else, no service call follows, and no step after (R386, R432, R170). In a step, PC is left as
the fetch left it. That `step` answers the fault and `run` the same state is the model's choice (log 11), as is the field
`opcodePc` (log 6). -/
def Obligations.IllegalOpcodes : Prop :=
  (∀ (op : Byte) (rest : List Byte) (i : Instr), decode (op :: rest) = .ok i →
    (op ∈ illegalOpcodes ↔ (i, op) ∈ illegalForms) ∧ ∀ b, (i, b) ∈ illegalForms → b = op) ∧
  (∀ (i : Instr) (op : Byte) (s : State), (i, op) ∈ illegalForms →
    ∃ t, exec i s = .next t ∧ t = { s with fault := some (.unknownOpcode op s.cpu.opcodePc) } ∧ SameMemory s t ∧
      finishStep t = .next t ∧ step t = .fault (.unknownOpcode op s.cpu.opcodePc) ∧ run t = .next t) ∧
  (∀ (s : State) (op : Byte), op ∈ illegalOpcodes → s.fault = none → s.cpu.halted = false →
    memRead (tick s) s.cpu.pc = .next op →
    step s = .next { tick s with
      cpu := { s.cpu with
        pc := if s.cpu.haltBugArmed then s.cpu.pc else s.cpu.pc + 1
        haltBugArmed := false
        opcodePc := s.cpu.pc }
      fault := some (.unknownOpcode op s.cpu.pc) })

/-! ### The interrupt-service call -/

/-- With IME set, the lowest pending bit i is taken: IME and bit i of IF are cleared before the cycles, PC is pushed in cycles
3 and 4, PC becomes 0x40 + 8 i, and the call takes 5 machine cycles, or 6 from HALT, which ends (R400, R402, R410 to
R412). -/
def Obligations.InterruptEntry : Prop :=
  ∀ (s : State) (i : Nat), i < 5 → s.cpu.ime = true →
    (s.intr.ifReg &&& s.intr.ieReg).getLsbD i = true →
    (∀ j, j < i → (s.intr.ifReg &&& s.intr.ieReg).getLsbD j = false) →
    accessible s (s.cpu.sp - 1) = true → accessible s (s.cpu.sp - 2) = true →
    ∃ a u t,
      a = { s with cpu := { s.cpu with ime := false }, intr := { s.intr with ifReg := a.intr.ifReg } } ∧
      (∀ j, a.intr.ifReg.getLsbD j = (s.intr.ifReg.getLsbD j && decide (j ≠ i))) ∧
      Pushes a 2 s.cpu.pc u ∧
      interruptServiceRoutine s = .next t ∧
      t = { ticks (if s.cpu.halted then 2 else 1) u with
        cpu := { s.cpu with
          sp := s.cpu.sp - 2
          pc := BitVec.ofNat 16 (0x40 + 8 * i)
          ime := s.cpu.eiScheduled
          eiScheduled := false
          halted := false
          haltFresh := false } } ∧
      SameMemory u t ∧
      t.clock = s.clock + (if s.cpu.halted then 24 else 20)

/-- The service call without entry, and the halted step. With nothing pending, or with IME clear and the CPU running, the call
takes no cycle and does only R415 and R417. With IME clear, something pending and the CPU halted, it takes one cycle, ends
HALT and arms the double fetch by the table of R414. A halted step is one cycle and then the call (R176). -/
def Obligations.ServiceWithoutEntry : Prop :=
  ∀ s : State,
    (s.intr.ifReg &&& s.intr.ieReg = 0 ∨ s.cpu.ime = false ∧ s.cpu.halted = false →
      interruptServiceRoutine s = .next { s with
        cpu := { s.cpu with haltFresh := false, ime := s.cpu.ime || s.cpu.eiScheduled, eiScheduled := false } }) ∧
    (s.intr.ifReg &&& s.intr.ieReg ≠ 0 → s.cpu.ime = false → s.cpu.halted = true →
      interruptServiceRoutine s = .next { tick s with
        cpu := { s.cpu with
          halted := false
          haltBugArmed := decide (s.config.haltBugMode = .docLiteral ∧ s.cpu.haltFresh = false ∨
            s.config.haltBugMode = .hardware ∧ s.cpu.haltFresh = true)
          haltFresh := false
          ime := s.cpu.eiScheduled
          eiScheduled := false } }) ∧
    (s.fault = none → s.cpu.halted = true → step s = interruptServiceRoutine (tick s))

/-! ### Whole-machine rules -/

/-- The table of R535: an instruction's encoding has the bytes, and its fetch and body together take the machine cycles, of
its row. The row PREFIX CB has bytes alone. -/
def Obligations.TimingTable : Prop :=
  (∀ i b, (encode i).length = (timing i b).1) ∧
  ∀ (i : Instr) (s t : State), i ≠ .prefixCb → exec i s = .next t →
    t.clock + 4 * (fetchedBytes i).length = s.clock + 4 * (timing i (taken i s.cpu)).2

/-- Only the instructions a rule names write each piece of hidden CPU state, SP and the fault; time and interrupts write no
register A to L or F (R23, R24, R28 to R33). -/
def Obligations.WhoWritesCpuState : Prop :=
  (∀ (i : Instr) (s t : State), exec i s = .next t →
    (t.cpu.ime ≠ s.cpu.ime → i = .di ∨ i = .reti) ∧
    (t.cpu.eiScheduled ≠ s.cpu.eiScheduled → i = .di ∨ i = .ei) ∧
    (t.cpu.halted ≠ s.cpu.halted ∨ t.cpu.haltFresh ≠ s.cpu.haltFresh → i = .halt) ∧
    (t.cpu.sp ≠ s.cpu.sp → writesSp i = true) ∧
    (t.fault ≠ s.fault → ∃ op, (i, op) ∈ illegalForms) ∧
    t.cpu.haltBugArmed = s.cpu.haltBugArmed ∧ t.cpu.opcodePc = s.cpu.opcodePc) ∧
  (∀ s t : State, interruptServiceRoutine s = .next t →
    t.cpu.af = s.cpu.af ∧ t.cpu.bc = s.cpu.bc ∧ t.cpu.de = s.cpu.de ∧ t.cpu.hl = s.cpu.hl ∧ t.fault = s.fault)

/-- No step changes the cartridge's header, ROM or sizes, the joypad latch or the parameters; every step takes from 1 to 11
machine cycles (R82, R52, R483, R182, R537). -/
def Obligations.StepKeepsRom : Prop :=
  ∀ s t : State, step s = .next t →
    t.cart.header = s.cart.header ∧ t.cart.imageLength = s.cart.imageLength ∧ t.cart.rom = s.cart.rom ∧
    t.cart.romBanks = s.cart.romBanks ∧ t.cart.ramBytes = s.cart.ramBytes ∧ t.cart.ramBanks = s.cart.ramBanks ∧
    t.joypad.cross = s.joypad.cross ∧ t.joypad.buttons = s.joypad.buttons ∧ t.config = s.config ∧
    s.clock + 4 ≤ t.clock ∧ t.clock ≤ s.clock + 44

/-- Every instruction completes on every cartridge but an MBC3 with a clock register selected and its RAM enabled (R126,
R433). -/
def Obligations.EveryInstructionCompletes : Prop :=
  ∀ (i : Instr) (s : State), clockSelected s.cart = false → ∃ t, exec i s = .next t

/-- A machine cycle with no bus access changes the timer's running part, the PPU's scan, request bits of IF and the clock,
and nothing else; it clears no request bit, raises no serial or joypad request, and raises the timer's exactly when an
overflow is pending (R172, R401, R443, R490). -/
def Obligations.TickFrame : Prop :=
  ∀ s : State,
    let t := tick s
    t = { s with
      timer := { t.timer with tma := s.timer.tma, tac := s.timer.tac }
      ppu := { t.ppu with
        lcdc := s.ppu.lcdc, statEnables := s.ppu.statEnables, scy := s.ppu.scy, scx := s.ppu.scx, lyc := s.ppu.lyc
        bgp := s.ppu.bgp, obp0 := s.ppu.obp0, obp1 := s.ppu.obp1, wy := s.ppu.wy, wx := s.ppu.wx
        vram := s.ppu.vram, oam := s.ppu.oam }
      intr := { s.intr with ifReg := t.intr.ifReg }
      clock := s.clock + 4 } ∧
    SameMemory s t ∧
    (∀ j, s.intr.ifReg.getLsbD j = true → t.intr.ifReg.getLsbD j = true) ∧
    t.intr.ifReg.getLsbD 2 = (s.intr.ifReg.getLsbD 2 || s.timer.pendingOverflow) ∧
    t.intr.ifReg.getLsbD 3 = s.intr.ifReg.getLsbD 3 ∧ t.intr.ifReg.getLsbD 4 = s.intr.ifReg.getLsbD 4

/-! ### The bus -/

/-- The owner of every address by the map of R71, and no two ranges of the table of R72 overlap. -/
def Obligations.MemoryMap : Prop :=
  rangeTable.Pairwise (fun q r => q.high < r.low ∨ r.high < q.low) ∧
  ∀ a : Word, route a =
    if a.toNat < 0x8000 then some .cartridge
    else if a.toNat < 0xA000 then some .ppu
    else if a.toNat < 0xC000 then some .cartridge
    else if a.toNat < 0xE000 then none
    else if a.toNat < 0xFE00 then some .echo
    else if a.toNat < 0xFEA0 then some .ppu
    else if a = 0xFF00#16 then some .joypad
    else if a = 0xFF01#16 ∨ a = 0xFF02#16 then some .serial
    else if 0xFF04 ≤ a.toNat ∧ a.toNat ≤ 0xFF07 then some .timer
    else if a = 0xFF0F#16 ∨ a = 0xFFFF#16 then some .interruptController
    else if 0xFF40 ≤ a.toNat ∧ a.toNat ≤ 0xFF4B ∧ a ≠ 0xFF46#16 then some .ppu
    else none

/-- A store to plain memory above ROM: a read of every address that names the byte gives the value stored, and a read of any
other address gives what it gave (R74, R76, R85). A write below 0x8000 changes no memory byte (R82). Under the lockout of
R470 a read gives 0xFF and a write does nothing. -/
def Obligations.StoreThenLoad : Prop :=
  ∀ (s : State) (a : Word) (v : Byte),
    (∀ l, StoresOk s → 0x8000 ≤ a.toNat → storedLoc s a = some l →
      ∃ t, memWrite s a v = .next t ∧
        ∀ b, memRead t b = if locOf s b = some l then .next v else memRead s b) ∧
    (a.toNat < 0x8000 → ∃ t, memWrite s a v = .next t ∧ SameMemory s t ∧
      t = { s with cart := { s.cart with mapper := t.cart.mapper } }) ∧
    (s.config.ppuAccessLockout = true → s.ppu.lcdc.getLsbD 7 = true →
      0x8000 ≤ a.toNat ∧ a.toNat < 0xA000 ∧ s.ppu.mode = .vramRead ∨
        0xFE00 ≤ a.toNat ∧ a.toNat < 0xFEA0 ∧ (s.ppu.mode = .oamRead ∨ s.ppu.mode = .vramRead) →
      memRead s a = .next 0xFF#8 ∧ memWrite s a v = .next s)

/-- Echo RAM and the 0x1E00 bytes of work RAM below it are one storage (R77). -/
def Obligations.EchoRam : Prop :=
  ∀ (s : State) (a : Word) (v : Byte), 0xE000 ≤ a.toNat → a.toNat ≤ 0xFDFF →
    memRead s a = .next (storeRead s.flat (a.toNat - 0x2000)) ∧
    memWrite s a v = .next { s with flat := storeWrite s.flat (a.toNat - 0x2000) v } ∧
    memRead s (a - 0x2000#16) = memRead s a ∧ memWrite s (a - 0x2000#16) v = memWrite s a v

/-! ### Device registers -/

/-- IF and IE store the low five bits and read with the upper three set; SB and SC store and read every bit, and no write
starts a transfer or raises anything (R34, R35, R51, R490). -/
def Obligations.InterruptAndSerialRegisters : Prop :=
  ∀ (s : State) (v : Byte),
    (∃ t, memWrite s 0xFF0F#16 v = .next t ∧ memRead t 0xFF0F#16 = .next (0xE0#8 ||| v) ∧
      t = { s with intr := { s.intr with ifReg := BitVec.ofNat 5 v.toNat } }) ∧
    (∃ t, memWrite s 0xFFFF#16 v = .next t ∧ memRead t 0xFFFF#16 = .next (0xE0#8 ||| v) ∧
      t = { s with intr := { s.intr with ieReg := BitVec.ofNat 5 v.toNat } }) ∧
    (∃ t, memWrite s 0xFF01#16 v = .next t ∧ memRead t 0xFF01#16 = .next v ∧
      t = { s with serial := { s.serial with sb := v } }) ∧
    (∃ t, memWrite s 0xFF02#16 v = .next t ∧ memRead t 0xFF02#16 = .next v ∧
      t = { s with serial := { s.serial with sc := v } })

/-- Writes of the timer's registers: DIV resets the counter and lets the edge detector count (R444); TIMA is discarded and
TMA copied into TIMA while an overflow is pending (R445, R446); TAC stores three bits and checks no edge (R447). Reads give
the counter's high byte, TIMA, TMA, and TAC with its upper five bits set (R36 to R39). -/
def Obligations.TimerRegisters : Prop :=
  ∀ (s : State) (v : Byte),
    (∃ t, memWrite s 0xFF04#16 v = .next t ∧ t = { s with timer := { t.timer with tma := s.timer.tma, tac := s.timer.tac } } ∧
      memRead t 0xFF04#16 = .next 0x00#8 ∧ t.timer.divCounter = 0 ∧ t.timer.edgeMemo = false ∧
      t.timer.tima = (if s.timer.edgeMemo then BitVec.ofNat 8 (s.timer.tima.toNat + 1) else s.timer.tima) ∧
      t.timer.pendingOverflow = (s.timer.pendingOverflow || (s.timer.edgeMemo && decide (s.timer.tima = 0xFF#8)))) ∧
    (∃ t, memWrite s 0xFF05#16 v = .next t ∧
      t = { s with timer := { s.timer with tima := if s.timer.pendingOverflow then s.timer.tima else v } } ∧
      memRead t 0xFF05#16 = .next t.timer.tima) ∧
    (∃ t, memWrite s 0xFF06#16 v = .next t ∧
      t = { s with timer := { s.timer with
        tma := v, tima := if s.timer.pendingOverflow then v else s.timer.tima } } ∧
      memRead t 0xFF06#16 = .next v) ∧
    (∃ t, memWrite s 0xFF07#16 v = .next t ∧
      t = { s with timer := { s.timer with tac := BitVec.ofNat 3 v.toNat } } ∧
      memRead t 0xFF07#16 = .next (0xF8#8 ||| v)) ∧
    memRead s 0xFF04#16 = .next (BitVec.ofNat 8 (s.timer.divCounter.toNat / 256))

/-- The PPU's registers through the bus: nine read back what was written, with no effect on any other I/O register and no
interrupt; STAT stores bits 6 to 3 and reads 1 in bit 7, the coincidence flag and the mode below; LY ignores writes (R41 to
R47, R471). -/
def Obligations.PpuRegisters : Prop :=
  ∀ (s : State) (v : Byte),
    (∀ a ∈ [0xFF40#16, 0xFF42#16, 0xFF43#16, 0xFF45#16, 0xFF47#16, 0xFF48#16, 0xFF49#16, 0xFF4A#16, 0xFF4B#16],
      ∃ t, memWrite s a v = .next t ∧ memRead t a = .next v ∧ t.intr = s.intr ∧
        ∀ b : Word, 0xFF00 ≤ b.toNat → b ≠ a → memRead t b = memRead s b) ∧
    (∃ t, memWrite s 0xFF41#16 v = .next t ∧ t.intr = s.intr ∧
      memRead t 0xFF41#16 = .next (0x80#8 ||| (v &&& 0x78#8) ||| (if s.ppu.coincidence then 0x04#8 else 0x00#8) |||
        (match s.ppu.mode with
          | .hblank => 0x00#8
          | .vblank => 0x01#8
          | .oamRead => 0x02#8
          | .vramRead => 0x03#8)) ∧
      ∀ b : Word, b ≠ 0xFF41#16 → memRead t b = memRead s b) ∧
    memWrite s 0xFF44#16 v = .next s ∧ memRead s 0xFF44#16 = .next s.ppu.ly

/-- P1 reads 1 in bits 7 and 6, the stored selects in bits 5 and 4, and in each low bit 0 exactly if a pressed key of a
selected group drives it; a write stores the selects alone (R481). A key press latches its key alone and raises IF bit 4
exactly when some low bit of P1 goes from 1 to 0 under the present selection; a release raises nothing (R482). -/
def Obligations.Joypad : Prop :=
  ∀ (s : State) (k : CrossKey) (g : ButtonKey),
    (∃ v, memRead s 0xFF00#16 = .next v ∧ v.getLsbD 7 = true ∧ v.getLsbD 6 = true ∧
      v.getLsbD 5 = s.joypad.select.getLsbD 1 ∧ v.getLsbD 4 = s.joypad.select.getLsbD 0 ∧
      ∀ j, j < 4 → (v.getLsbD j = false ↔
        s.joypad.select.getLsbD 0 = false ∧ keyDown s.joypad.cross j = true ∨
          s.joypad.select.getLsbD 1 = false ∧ keyDown s.joypad.buttons j = true)) ∧
    (∀ v, ∃ t, memWrite s 0xFF00#16 v = .next t ∧
      t = { s with joypad := { s.joypad with select := BitVec.ofNat 2 (v.toNat / 16) } }) ∧
    (∀ t, t = pressCross k s ∨ t = pressButton g s → ∃ before after,
      memRead s 0xFF00#16 = .next before ∧ memRead t 0xFF00#16 = .next after ∧
      t = { s with
        joypad := { s.joypad with cross := t.joypad.cross, buttons := t.joypad.buttons }
        intr := { s.intr with ifReg :=
          if before &&& ~~~after &&& 0x0F#8 = 0 then s.intr.ifReg else s.intr.ifReg ||| 0x10#5 } }) ∧
    (∀ j, j < 4 →
      keyDown (pressCross k s).joypad.cross j = (keyDown s.joypad.cross j || decide (j = crossBit k)) ∧
      keyDown (pressCross k s).joypad.buttons j = keyDown s.joypad.buttons j ∧
      keyDown (pressButton g s).joypad.buttons j = (keyDown s.joypad.buttons j || decide (j = buttonBit g)) ∧
      keyDown (pressButton g s).joypad.cross j = keyDown s.joypad.cross j ∧
      keyDown (releaseCross k s).joypad.cross j = (keyDown s.joypad.cross j && decide (j ≠ crossBit k)) ∧
      keyDown (releaseButton g s).joypad.buttons j = (keyDown s.joypad.buttons j && decide (j ≠ buttonBit g))) ∧
    releaseCross k s = { s with joypad := { s.joypad with cross := (releaseCross k s).joypad.cross } } ∧
    releaseButton g s = { s with joypad := { s.joypad with buttons := (releaseButton g s).joypad.buttons } }

/-! ### Timer -/

/-- The divider gains four a machine cycle, whatever TAC holds and whether or not the CPU is halted, and wraps at 65536
(R441). -/
def Obligations.DividerAdvances : Prop :=
  ∀ (s : State) (n : Nat),
    (ticks n s).timer.divCounter = BitVec.ofNat 16 (s.timer.divCounter.toNat + 4 * n) ∧
    memRead (ticks n s) 0xFF04#16 = .next (BitVec.ofNat 8 ((s.timer.divCounter.toNat + 4 * n) % 65536 / 256))

/-- One machine cycle of the timer, from every state (R440 to R443): a pending overflow ends with TIMA reloaded from TMA, the
counter gains four, and TIMA then counts exactly when the edge memory holds 1 and the selected bit, gated by TAC bit 2, is now
0, which may leave an overflow pending. So a falling edge at TIMA = 0xFF gives 0x00 and a pending overflow with no request
yet; the next machine cycle loads TMA and raises IF bit 2. -/
def Obligations.TimerOverflow : Prop :=
  ∀ s : State,
    (let t := s.timer
     let signal := decide ((t.divCounter.toNat + 4) / 2 ^ counterBit t.tac.toNat % 2 = 1) && t.tac.getLsbD 2
     let before := if t.pendingOverflow then t.tma else t.tima
     let edge := t.edgeMemo && !signal
     (tick s).timer =
       { divCounter := BitVec.ofNat 16 (t.divCounter.toNat + 4)
         tima := if edge then BitVec.ofNat 8 (before.toNat + 1) else before
         tma := t.tma
         tac := t.tac
         edgeMemo := signal
         pendingOverflow := edge && decide (before = 0xFF#8) } ∧
     (tick s).intr.ifReg.getLsbD 2 = (s.intr.ifReg.getLsbD 2 || t.pendingOverflow)) ∧
    (s.timer.edgeMemo = true → s.timer.tima = 0xFF#8 → s.timer.pendingOverflow = false →
      timerSignal { s.timer with divCounter := s.timer.divCounter + 4 } = false →
      (tick s).timer.tima = 0x00#8 ∧ (tick s).timer.pendingOverflow = true ∧
      (tick s).intr.ifReg.getLsbD 2 = s.intr.ifReg.getLsbD 2 ∧
      (tick (tick s)).timer.tima = s.timer.tma ∧ (tick (tick s)).timer.pendingOverflow = false ∧
      (tick (tick s)).intr.ifReg.getLsbD 2 = true)

/-- The table of R448: with the timer enabled and its edge memory in step with the signal, TIMA counts once in every period,
from any phase of the counter. Out of step after a write to TAC (R447): the write counts nothing, and the next machine cycle
counts once exactly if the edge memory holds 1 and the signal under the new TAC, the counter advanced, is 0, as it always is
with the timer disabled; with no edge, TIMA stays. -/
def Obligations.TimerPeriod : Prop :=
  ∀ s : State,
    (s.timer.tac.getLsbD 2 = true → s.timer.edgeMemo = timerSignal s.timer →
      s.timer.pendingOverflow = false → s.timer.tima ≠ 0xFF#8 →
      let cycles := match s.timer.tac.toNat % 4 with
        | 0 => 256
        | 1 => 4
        | 2 => 16
        | _ => 64
      (ticks cycles s).timer.tima = BitVec.ofNat 8 (s.timer.tima.toNat + 1)) ∧
    (∀ v : Byte, s.timer.pendingOverflow = false →
      ∃ t, memWrite s 0xFF07#16 v = .next t ∧ t.timer = { s.timer with tac := BitVec.ofNat 3 v.toNat } ∧
        let signal := decide ((s.timer.divCounter.toNat + 4) / 2 ^ counterBit v.toNat % 2 = 1 ∧ v.toNat / 4 % 2 = 1)
        (tick t).timer.edgeMemo = signal ∧
        (tick t).timer.tima =
          (if s.timer.edgeMemo = true ∧ signal = false then BitVec.ofNat 8 (s.timer.tima.toNat + 1) else s.timer.tima)) ∧
    (∀ n, s.timer.tac.getLsbD 2 = false → s.timer.edgeMemo = false → s.timer.pendingOverflow = false →
      (ticks n s).timer.tima = s.timer.tima ∧ (ticks n s).timer.pendingOverflow = false)

/-! ### PPU -/

/-- What one PPU clock requests and what it writes. With the display off it requests nothing; with it on, bit 0 at the start
of line 144, and bit 1 on an event of an enabled source that has not fired on this line: entering mode 0, 1 or 2, or a rising
coincidence. No other bit of IF changes (R464, R465, R466, R467). With the display on, `mode3Scx` takes `SCX & 7` at clock 80
of a visible line and is otherwise kept (R461), the coincidence flag becomes LY = LYC, after clock `LINE153_LY0_AT` of line
153 with LY 0 (R463, R464), `statFired` is emptied at clock 0 and takes each source that fires (R465), the mode, the scan
point and LY move as R461 to R463 say, and no register and no other hidden state changes but the pixels. -/
def Obligations.PpuRequests : Prop :=
  ∀ (ly0At : Nat) (p : Ppu) (f : BitVec 5),
    (lcdOn p = false → (ppuClock ly0At p f).2 = f) ∧
    (lcdOn p = true → p.lcdWasOn = true →
      let q := (ppuClock ly0At p f).1
      let g := (ppuClock ly0At p f).2
      let fresh := decide (p.lineClock = 0)
      let ly := if p.line = 153 ∧ p.lineClock = ly0At then 0#8 else p.ly
      let m0 := decide (p.line < 144 ∧ p.lineClock = 252 + p.mode3Scx.toNat ∧ p.mode ≠ .hblank) &&
        p.statEnables.getLsbD 0 && !p.statFired.m0
      let m1 := decide (p.line = 144 ∧ p.lineClock = 0 ∧ p.mode ≠ .vblank) && p.statEnables.getLsbD 1
      let m2 := decide (p.line < 144 ∧ p.lineClock = 0 ∧ p.mode ≠ .oamRead) && p.statEnables.getLsbD 2
      let lyc := decide (ly = p.lyc) && !p.coincidence && p.statEnables.getLsbD 3 && (fresh || !p.statFired.lyc)
      let line := if p.lineClock = 455 then (p.line + 1) % 154 else p.line
      g.getLsbD 0 = (f.getLsbD 0 || decide (p.line = 144 ∧ p.lineClock = 0)) ∧
      g.getLsbD 1 = (f.getLsbD 1 || m0 || m1 || m2 || lyc) ∧
      (∀ j, 2 ≤ j → g.getLsbD j = f.getLsbD j) ∧
      q = { p with
        mode3Scx := if p.line < 144 ∧ p.lineClock = 80 then BitVec.ofNat 3 p.scx.toNat else p.mode3Scx
        coincidence := decide (ly = p.lyc)
        statFired :=
          { m0 := !fresh && p.statFired.m0 || m0
            m1 := !fresh && p.statFired.m1 || m1
            m2 := !fresh && p.statFired.m2 || m2
            lyc := !fresh && p.statFired.lyc || lyc }
        mode :=
          if p.line = 144 ∧ p.lineClock = 0 then .vblank
          else if 144 ≤ p.line then p.mode
          else if p.lineClock = 0 then .oamRead
          else if p.lineClock = 80 then .vramRead
          else if p.lineClock = 252 + p.mode3Scx.toNat then .hblank
          else p.mode
        endOfFrame := p.endOfFrame || decide (p.line = 144 ∧ p.lineClock = 0)
        lineClock := if p.lineClock = 455 then 0 else p.lineClock + 1
        line := line
        ly := if p.lineClock = 455 then BitVec.ofNat 8 line else ly
        pixels := q.pixels })

/-- With the display on, each PPU clock moves the scan one clock on, around a frame of 154 lines of 456 clocks; a frame of
clocks brings it back, and a frame end is set by VBlank's clock, clock 0 of line 144, in whichever frame the clocks run reach it,
and by no other (R462, R467, R474). -/
def Obligations.FrameTiming : Prop :=
  ∀ (ly0At : Nat) (p : Ppu) (f : BitVec 5) (n : Nat),
    lcdOn p = true → p.lcdWasOn = true → p.line < 154 → p.lineClock < 456 →
    let q := (ppuClocks ly0At n p f).1
    q.line < 154 ∧ q.lineClock < 456 ∧ frameClock q = (frameClock p + n) % 70224 ∧
    (q.endOfFrame = true ↔ p.endOfFrame = true ∨ ∃ m, m < n ∧ (frameClock p + m) % 70224 = 65664)

/-- The display off and its turning on (R466, R474). Off: no request and no pixel; line, line clock, LY and mode are 0 from the
first clock on; `offClock` counts from 0 there and ends a frame every 70224 clocks; the coincidence flag follows LY = LYC.
The first clock with bit 7 set runs clock 0 of line 0 in mode 2, with no m2 event and `statFired` emptied. The display is off
at reset. -/
def Obligations.DisplayOff : Prop :=
  ∀ (ly0At : Nat) (p : Ppu) (f : BitVec 5),
    (∀ n, lcdOn p = false → p.offClock < 70224 → 0 < n →
      let q := (ppuClocks ly0At n p f).1
      let start := if p.lcdWasOn then 0 else p.offClock
      (ppuClocks ly0At n p f).2 = f ∧ q.pixels = p.pixels ∧ q.lcdWasOn = false ∧
      (p.lcdWasOn = true ∨ p.line = 0 ∧ p.lineClock = 0 ∧ p.ly = 0 ∧ p.mode = .hblank →
        q.line = 0 ∧ q.lineClock = 0 ∧ q.ly = 0 ∧ q.mode = .hblank) ∧
      q.coincidence = decide (q.ly = p.lyc) ∧
      q.offClock = (start + n) % 70224 ∧ q.endOfFrame = (p.endOfFrame || decide (70224 ≤ start + n))) ∧
    (lcdOn p = true → p.lcdWasOn = false →
      let q := (ppuClock ly0At p f).1
      let fires := decide (p.lyc = 0) && !p.coincidence && p.statEnables.getLsbD 3
      q.line = 0 ∧ q.lineClock = 1 ∧ q.ly = 0 ∧ q.mode = .oamRead ∧ q.lcdWasOn = true ∧
      q.statFired = { m0 := false, m1 := false, m2 := false, lyc := fires } ∧
      q.coincidence = decide (p.lyc = 0) ∧ q.pixels = p.pixels ∧ q.endOfFrame = p.endOfFrame ∧
      (ppuClock ly0At p f).2 = if fires then f ||| 0x02#5 else f) ∧
    (∀ vram oam, lcdOn (Ppu.resetWith vram oam) = false)

/-- In mode 3 of a visible line, column x is resolved at line clock 92 + `SCX & 7` + x by the fetch of R469 and nothing else is
drawn; before the first column's clock of the line and after the last one's no pixel changes (R468, R469). -/
def Obligations.ColumnSchedule : Prop :=
  ∀ (ly0At : Nat) (p : Ppu) (f : BitVec 5) (x : Nat), x < 160 →
    lcdOn p = true → p.lcdWasOn = true → p.line < 144 → storeWfFrom 0 23040 p.pixels = true →
    let q := (ppuClock ly0At p f).1
    let px := (x + p.scx.toNat) % 256
    let py := (p.ly.toNat + p.scy.toNat) % 256
    let map := if p.lcdc.getLsbD 3 then 0x9C00 else 0x9800
    let idx := storeRead p.vram (map + 32 * (py / 8) + px / 8)
    let tile := if p.lcdc.getLsbD 4 then 0x8000 + 16 * idx.toNat
      else if idx.getLsbD 7 then 0x8000 + 16 * idx.toNat else 0x9000 + 16 * idx.toNat
    let low := (storeRead p.vram (tile + 2 * (py % 8))).toNat / 2 ^ (7 - px % 8) % 2
    let high := (storeRead p.vram (tile + 2 * (py % 8) + 1)).toNat / 2 ^ (7 - px % 8) % 2
    (p.mode = .vramRead → p.lineClock = 92 + p.mode3Scx.toNat + x →
      pixelAt q x p.line = (if p.lcdc.getLsbD 0 then BitVec.ofNat 2 (p.bgp.toNat / 4 ^ (2 * high + low)) else 0) ∧
      ∀ x' y', y' < 144 → (x', y') ≠ (x, p.line) → pixelAt q x' y' = pixelAt p x' y') ∧
    (p.lineClock < 92 + p.mode3Scx.toNat ∨ 252 + p.mode3Scx.toNat ≤ p.lineClock → q.pixels = p.pixels)

/-- `Draw()` gives the 23040 pixels by rows, clears the end-of-frame flag and changes nothing else; `CheckEndOfFrame()` then
answers no (R472, R473). -/
def Obligations.DrawTransposes : Prop :=
  ∀ s : State,
    (draw s).1.length = 23040 ∧
    (∀ x y, x < 160 → y < 144 → (draw s).1[y * 160 + x]? = some (pixelAt s.ppu x y)) ∧
    (draw s).2 = { s with ppu := { s.ppu with endOfFrame := false } } ∧ checkEndOfFrame (draw s).2 = false

/-- `RunOneFrame()` on a halted machine with every interrupt masked and the display off ends in a frame within 17557 steps
(R182, R474; the bound on steps is the model's, log 13). On a machine that holds a fault it returns the fault, whether or not a
frame has ended, and so it does after a step that records one (R432; that the fault is looked at first is log 20). -/
def Obligations.HaltedFrameEnds : Prop :=
  (∀ s : State, s.fault = none → s.cpu.halted = true → s.intr.ieReg = 0 → lcdOn s.ppu = false →
    s.ppu.offClock < 70224 → ∃ buffer t, runOneFrame 17557 s = .frame buffer t ∧ t.ppu.endOfFrame = false) ∧
  (∀ (s : State) (fuel : Nat) (r : Fault), s.fault = some r → runOneFrame fuel s = .fault r s) ∧
  (∀ (s t : State) (fuel : Nat) (r : Fault), s.fault = none → s.ppu.endOfFrame = false → step s = .next t →
    t.fault = some r → runOneFrame (fuel + 1) s = .fault r t)

/-! ### Cartridge -/

/-- RomOnly: reads below 0x8000 give the ROM, the RAM window reads 0xFF, and no write does anything (R97). -/
def Obligations.RomOnlyCartridge : Prop :=
  ∀ (s : State) (a : Word) (v : Byte), s.cart.mapper = .romOnly →
    (a.toNat < 0x8000 → memRead s a = .next (romByte s.cart a.toNat) ∧ memWrite s a v = .next s) ∧
    (0xA000 ≤ a.toNat → a.toNat < 0xC000 → memRead s a = .next 0xFF#8 ∧ memWrite s a v = .next s)

/-- MBC1: the control writes of R101, the two ROM windows of R102 and the RAM window of R103 and R98. -/
def Obligations.Mbc1Cartridge : Prop :=
  ∀ (s : State) (a : Word) (v : Byte) (m : Mbc1), s.cart.mapper = .mbc1 m →
    (a.toNat < 0x8000 → ∃ t, memWrite s a v = .next t ∧ t = { s with cart := { s.cart with mapper := t.cart.mapper } } ∧
      t.cart.mapper = .mbc1
        { ramEnable := if a.toNat < 0x2000 then decide (v.toNat % 16 = 0x0A) else m.ramEnable
          bank1 := if 0x2000 ≤ a.toNat ∧ a.toNat < 0x4000 then
            BitVec.ofNat 5 (if v.toNat % 32 = 0 then 1 else v.toNat % 32) else m.bank1
          bank2 := if 0x4000 ≤ a.toNat ∧ a.toNat < 0x6000 then BitVec.ofNat 2 v.toNat else m.bank2
          mode := if 0x6000 ≤ a.toNat then BitVec.ofNat 1 v.toNat else m.mode }) ∧
    (a.toNat < 0x4000 → memRead s a = .next (romByte s.cart
      ((if m.mode = 1 then (m.bank2.toNat <<< 5) % s.cart.romBanks else 0) * 0x4000 + a.toNat))) ∧
    (0x4000 ≤ a.toNat → a.toNat < 0x8000 →
      let b := ((m.bank2.toNat <<< 5) ||| m.bank1.toNat) % s.cart.romBanks
      memRead s a = .next (romByte s.cart ((if b = 0 then 1 else b) * 0x4000 + (a.toNat - 0x4000)))) ∧
    (0xA000 ≤ a.toNat → a.toNat < 0xC000 →
      let k := if m.mode = 1 ∧ s.cart.ramBanks ≠ 0 then m.bank2.toNat % s.cart.ramBanks else 0
      let i := k * 0x2000 + (a.toNat - 0xA000)
      if m.ramEnable = true ∧ i < s.cart.ramBytes then
        memRead s a = .next (storeRead s.cart.ram i) ∧
          memWrite s a v = .next { s with cart := { s.cart with ram := storeWrite s.cart.ram i v } }
      else memRead s a = .next 0xFF#8 ∧ memWrite s a v = .next s)

/-- MBC3: the control writes of R111, the ROM windows of R112 and the RAM window of R113, with its refused clock
registers. -/
def Obligations.Mbc3Cartridge : Prop :=
  ∀ (s : State) (a : Word) (v : Byte) (m : Mbc3), s.cart.mapper = .mbc3 m →
    (a.toNat < 0x8000 → ∃ t, memWrite s a v = .next t ∧ t = { s with cart := { s.cart with mapper := t.cart.mapper } } ∧
      t.cart.mapper = .mbc3
        { ramEnable := if a.toNat < 0x2000 then decide (v.toNat % 16 = 0x0A) else m.ramEnable
          romBank := if 0x2000 ≤ a.toNat ∧ a.toNat < 0x4000 then
            BitVec.ofNat 7 (if v.toNat % 128 = 0 then 1 else v.toNat % 128) else m.romBank
          ramSel := if 0x4000 ≤ a.toNat ∧ a.toNat < 0x6000 then BitVec.ofNat 4 v.toNat else m.ramSel }) ∧
    (a.toNat < 0x4000 → memRead s a = .next (romByte s.cart a.toNat)) ∧
    (0x4000 ≤ a.toNat → a.toNat < 0x8000 →
      let b := m.romBank.toNat % s.cart.romBanks
      memRead s a = .next (romByte s.cart ((if b = 0 then 1 else b) * 0x4000 + (a.toNat - 0x4000)))) ∧
    (0xA000 ≤ a.toNat → a.toNat < 0xC000 →
      let k := if s.cart.ramBanks = 0 then 0 else m.ramSel.toNat % s.cart.ramBanks
      let i := k * 0x2000 + (a.toNat - 0xA000)
      if m.ramEnable = true ∧ 0x08 ≤ m.ramSel.toNat ∧ m.ramSel.toNat ≤ 0x0C then
        memRead s a = .refused (.mbc3ClockAccess a) ∧ memWrite s a v = .refused (.mbc3ClockAccess a)
      else if m.ramEnable = true ∧ m.ramSel.toNat ≤ 0x07 ∧ i < s.cart.ramBytes then
        memRead s a = .next (storeRead s.cart.ram i) ∧
          memWrite s a v = .next { s with cart := { s.cart with ram := storeWrite s.cart.ram i v } }
      else memRead s a = .next 0xFF#8 ∧ memWrite s a v = .next s)

/-- MBC5: the control writes of R121, the switchable window of R122 in which bank 0 reads bank 1, the fixed window of R123 and
the RAM window of R124. -/
def Obligations.Mbc5Cartridge : Prop :=
  ∀ (s : State) (a : Word) (v : Byte) (m : Mbc5), s.cart.mapper = .mbc5 m →
    let b := ((m.romHi.toNat <<< 8) ||| m.romLo.toNat) % s.cart.romBanks
    let bank := if b = 0 then 1 else b
    (a.toNat < 0x8000 → ∃ t, memWrite s a v = .next t ∧ t = { s with cart := { s.cart with mapper := t.cart.mapper } } ∧
      t.cart.mapper = .mbc5
        { ramEnable := if a.toNat < 0x2000 then decide (v.toNat % 16 = 0x0A) else m.ramEnable
          romLo := if 0x2000 ≤ a.toNat ∧ a.toNat < 0x3000 then v else m.romLo
          romHi := if 0x3000 ≤ a.toNat ∧ a.toNat < 0x4000 then BitVec.ofNat 1 v.toNat else m.romHi
          ramBank := if 0x4000 ≤ a.toNat ∧ a.toNat < 0x6000 then BitVec.ofNat 4 v.toNat else m.ramBank
          mode := if 0x6000 ≤ a.toNat then BitVec.ofNat 1 v.toNat else m.mode }) ∧
    (a.toNat < 0x4000 → memRead s a = .next (romByte s.cart
      ((if m.mode = 1 then bank / 0x20 * 0x20 else 0) * 0x4000 + a.toNat))) ∧
    (0x4000 ≤ a.toNat → a.toNat < 0x8000 →
      memRead s a = .next (romByte s.cart (bank * 0x4000 + (a.toNat - 0x4000)))) ∧
    (0xA000 ≤ a.toNat → a.toNat < 0xC000 →
      let k := if s.cart.ramBanks = 0 then 0 else m.ramBank.toNat % s.cart.ramBanks
      let i := k * 0x2000 + (a.toNat - 0xA000)
      if m.ramEnable = true ∧ i < s.cart.ramBytes then
        memRead s a = .next (storeRead s.cart.ram i) ∧
          memWrite s a v = .next { s with cart := { s.cart with ram := storeWrite s.cart.ram i v } }
      else memRead s a = .next 0xFF#8 ∧ memWrite s a v = .next s)

/-! ### Construction and the invariant -/

/-- Construction (R90, R520): an image shorter than 0x150 bytes is refused, an unknown type byte is the typed error before the
sizes are looked at (R92, R431), an unknown size code is refused (R93, R94), and any other image gives a board; a table with a
range whose high end is below its low end gives none (R72). A board that results has every item of the reset state of R521: the
draws of R7 where that leaves them open, in flat RAM, VRAM and OAM too (R49, R54), the image, padded with 0xFF, as its ROM
(R95), and the mapper of the type byte with its reset registers. `drawnByte` reads a draw as a list of bytes (log 3), and
`opcodePc`, which is the model's own, is left unstated (log 6). -/
def Obligations.Construction : Prop :=
  ∀ (image : List Byte) (d : Draws),
    let typ := image.getD 0x147 0
    let romCode := image.getD 0x148 0
    let ramCode := image.getD 0x149 0
    let knownType := ∃ m, (typ, m) ∈ mapperTable
    let knownRom := ∃ n, (romCode, n) ∈ romSizeTable
    let knownRam := ∃ n k, (ramCode, n, k) ∈ ramSizeTable
    (image.length < 0x150 → construct image d = .refused (.imageTooShort image.length)) ∧
    (0x150 ≤ image.length → ¬knownType → construct image d = .fault (.unsupportedCartridgeType typ)) ∧
    (0x150 ≤ image.length → knownType → ¬knownRom ∨ ¬knownRam → ∃ r, construct image d = .refused r) ∧
    (0x150 ≤ image.length → knownType → knownRom → knownRam → ∃ s, construct image d = .next s) ∧
    (∀ table : List MmioRange, (∃ r ∈ table, r.high < r.low) → ∀ s, constructWith table image d ≠ .next s) ∧
    ∀ s, construct image d = .next s →
      s.cpu =
        { af := d.af, bc := d.bc, de := d.de, hl := d.hl, sp := 0xFFFE#16, pc := 0x0100#16
          ime := false, eiScheduled := false, halted := false, haltFresh := false, haltBugArmed := false
          opcodePc := s.cpu.opcodePc } ∧
      s.fault = none ∧ s.clock = 0 ∧ s.config = d.config ∧
      s.timer =
        { divCounter := d.divCounter, tima := 0, tma := 0, tac := 0, edgeMemo := false, pendingOverflow := false } ∧
      s.ppu =
        { lcdc := 0, statEnables := 0, scy := 0, scx := 0, lyc := 0, bgp := 0, obp0 := 0, obp1 := 0, wy := 0, wx := 0
          line := 0, lineClock := 0, ly := 0, mode := .hblank, coincidence := false, mode3Scx := 0, lcdWasOn := false
          offClock := 0, endOfFrame := false, statFired := { m0 := false, m1 := false, m2 := false, lyc := false }
          pixels := s.ppu.pixels, vram := s.ppu.vram, oam := s.ppu.oam } ∧
      (∀ x y, pixelAt s.ppu x y = 0) ∧
      s.joypad.select = 0 ∧ (∀ k, keyDown s.joypad.cross k = false ∧ keyDown s.joypad.buttons k = false) ∧
      (∀ a v, (a, v) ∈ resetReads → memRead s a = .next v) ∧
      (∀ a : Word, 0x8000 ≤ a.toNat → a.toNat < 0xA000 ∨ 0xC000 ≤ a.toNat → a.toNat < 0xFF00 →
        memRead s a = .next (drawnByte d.ram
          (if 0xE000 ≤ a.toNat ∧ a.toNat < 0xFE00 then a.toNat - 0x2000 else a.toNat))) ∧
      (∀ a : Word, 0xFF00 ≤ a.toNat → route a = none → memRead s a = .next 0x00#8) ∧
      (∀ i, storeRead s.cart.ram i = 0) ∧ (∀ i, romByte s.cart i = image.getD i 0xFF#8) ∧
      s.cart.header.typeByte = typ ∧ s.cart.header.romSizeCode = romCode ∧ s.cart.header.ramSizeCode = ramCode ∧
      s.cart.header.title = ((image.drop 0x134).take 16).takeWhile (fun b => b != 0x00#8) ∧
      (typ, s.cart.mapper) ∈ mapperTable ∧ (romCode, s.cart.romBanks) ∈ romSizeTable ∧
      (ramCode, s.cart.ramBytes, s.cart.ramBanks) ∈ ramSizeTable

/-- The invariant holds at reset, whose open values are the model's choice (logs 1 to 4 and 6). -/
def Obligations.ResetInv : Prop := Inv State.reset

/-- The invariant holds of every board that construction gives. -/
def Obligations.ConstructInv : Prop :=
  ∀ (image : List Byte) (d : Draws) (s : State), construct image d = .next s → Inv s

/-- Every step keeps the invariant: stores canonical and inside their regions, the scan of the PPU at a legal point with the
mode and LY its line clock gives (R461, R463), the cartridge the one its header describes, and no EI scheduled, HALT flag
fresh or double fetch armed in HALT between steps. -/
def Obligations.StepKeepsInv : Prop := ∀ s t : State, Inv s → step s = .next t → Inv t
end

