-- ==== Sys2Proof/Laws/Memory.lean ====
section
/-! SUPPORT. The laws of a store: read after write, and that every operation keeps the canonical form. -/

namespace Sys2Proof.Machine

variable {w : Nat}

/-- In a well-formed store no index below the bound is listed. -/
theorem storeRead_of_lt {m : Store w} {lo hi a : Nat} (h : storeWfFrom lo hi m = true) (ha : a < lo) :
    storeRead m a = unlisted w := by
  induction m generalizing lo with
  | nil => rfl
  | cons c t ih =>
    obtain ⟨k, v⟩ := c
    simp only [storeWfFrom, Bool.and_eq_true, decide_eq_true_eq] at h
    have hk : k ≠ a := by omega
    simp only [storeRead, if_neg hk]
    exact ih h.2 (by omega)

/-- A weaker lower bound still holds. -/
theorem storeWfFrom_mono {m : Store w} {lo lo' hi : Nat} (hlo : lo' ≤ lo) (h : storeWfFrom lo hi m = true) :
    storeWfFrom lo' hi m = true := by
  cases m with
  | nil => rfl
  | cons c t =>
    obtain ⟨k, v⟩ := c
    simp only [storeWfFrom, Bool.and_eq_true, decide_eq_true_eq] at h ⊢
    exact ⟨⟨⟨by omega, h.1.1.2⟩, h.1.2⟩, h.2⟩

/-- A write inside the region keeps the canonical form. -/
theorem storeWrite_wf {m : Store w} {lo hi a : Nat} {v : BitVec w} (h : storeWfFrom lo hi m = true) (hlo : lo ≤ a)
    (hhi : a < hi) : storeWfFrom lo hi (storeWrite m a v) = true := by
  induction m generalizing lo with
  | nil =>
    by_cases hv : v = unlisted w <;> simp [storeWrite, storeWfFrom, hv]
    exact ⟨hlo, hhi⟩
  | cons c t ih =>
    obtain ⟨k, u⟩ := c
    have h' := h
    simp only [storeWfFrom, Bool.and_eq_true, decide_eq_true_eq] at h'
    simp only [storeWrite]
    split
    · split
      · exact h
      · rename_i hak hv
        simp only [storeWfFrom, Bool.and_eq_true, decide_eq_true_eq]
        exact ⟨⟨⟨hlo, hhi⟩, hv⟩, ⟨⟨by omega, h'.1.1.2⟩, h'.1.2⟩, h'.2⟩
    · split
      · split
        · exact storeWfFrom_mono (by omega) h'.2
        · rename_i hak hv
          simp only [storeWfFrom, Bool.and_eq_true, decide_eq_true_eq]
          subst hak
          exact ⟨⟨⟨hlo, hhi⟩, hv⟩, h'.2⟩
      · simp only [storeWfFrom, Bool.and_eq_true, decide_eq_true_eq]
        exact ⟨⟨⟨h'.1.1.1, h'.1.1.2⟩, h'.1.2⟩, ih h'.2 (by omega)⟩

/-- A read at another index is not changed by a write. -/
@[simp] theorem storeRead_storeWrite_ne (m : Store w) {a b : Nat} (v : BitVec w) (h : b ≠ a) :
    storeRead (storeWrite m a v) b = storeRead m b := by
  induction m with
  | nil => by_cases hv : v = unlisted w <;> simp [storeWrite, storeRead, hv, h.symm]
  | cons c t ih =>
    obtain ⟨k, u⟩ := c
    simp only [storeWrite]
    split
    · split
      · rfl
      · simp [storeRead, h.symm]
    · split
      · rename_i hk
        subst hk
        split <;> simp [storeRead, h.symm]
      · simp [storeRead, ih]

/-- A read after a write at the same index gives the value written, the store being in canonical form. -/
theorem storeRead_storeWrite_same {m : Store w} {lo hi : Nat} (a : Nat) (v : BitVec w)
    (h : storeWfFrom lo hi m = true) : storeRead (storeWrite m a v) a = v := by
  induction m generalizing lo with
  | nil => by_cases hv : v = unlisted w <;> simp [storeWrite, storeRead, hv]
  | cons c t ih =>
    obtain ⟨k, u⟩ := c
    simp only [storeWfFrom, Bool.and_eq_true, decide_eq_true_eq] at h
    simp only [storeWrite]
    split
    · rename_i hak
      split
      · rename_i hv
        have hk : k ≠ a := by omega
        rw [storeRead, if_neg hk, storeRead_of_lt h.2 (by omega), hv]
      · simp [storeRead]
    · split
      · rename_i hak
        split
        · rename_i hv
          rw [storeRead_of_lt h.2 (by omega), hv]
        · simp [storeRead]
      · rename_i hne
        rw [storeRead, if_neg (by omega)]
        exact ih h.2

/-- Two well-formed stores that read alike are the same list. -/
theorem storeRead_ext {m n : Store w} {lo hi : Nat} (hm : storeWfFrom lo hi m = true) (hn : storeWfFrom lo hi n = true)
    (h : ∀ a, storeRead m a = storeRead n a) : m = n := by
  induction m generalizing lo n with
  | nil =>
    cases n with
    | nil => rfl
    | cons c t =>
      obtain ⟨k, v⟩ := c
      simp only [storeWfFrom, Bool.and_eq_true, decide_eq_true_eq] at hn
      have := h k
      simp only [storeRead, if_true] at this
      exact absurd this.symm hn.1.2
  | cons c t ih =>
    obtain ⟨k, v⟩ := c
    simp only [storeWfFrom, Bool.and_eq_true, decide_eq_true_eq] at hm
    cases n with
    | nil =>
      have := h k
      simp only [storeRead, if_true] at this
      exact absurd this hm.1.2
    | cons d u =>
      obtain ⟨j, x⟩ := d
      simp only [storeWfFrom, Bool.and_eq_true, decide_eq_true_eq] at hn
      have hkj : k = j := by
        rcases Nat.lt_trichotomy k j with hlt | heq | hlt
        · have := h k
          rw [storeRead, if_pos rfl, storeRead, if_neg (by omega), storeRead_of_lt hn.2 (by omega)] at this
          exact absurd this hm.1.2
        · exact heq
        · have := h j
          rw [storeRead, if_neg (by omega), storeRead_of_lt hm.2 (by omega), storeRead, if_pos rfl] at this
          exact absurd this.symm hn.1.2
      subst hkj
      have hv : v = x := by simpa [storeRead] using h k
      subst hv
      congr 1
      refine ih hm.2 hn.2 fun a => ?_
      by_cases ha : k = a
      · subst ha
        rw [storeRead_of_lt hm.2 (by omega), storeRead_of_lt hn.2 (by omega)]
      · simpa [storeRead, ha] using h a

/-- `Memory.wf` through a write. -/
theorem Memory.wf_write {m : Memory} {lo hi a : Nat} {v : Byte} (h : Memory.wf lo hi m = true) (hlo : lo ≤ a)
    (hhi : a < hi) : Memory.wf lo hi (storeWrite m a v) = true := storeWrite_wf h hlo hhi

/-- The store of a list of values is canonical and reads the list back. -/
theorem storeOfList_wf (i hi : Nat) (l : List (BitVec w)) (h : i + l.length ≤ hi) :
    storeWfFrom i hi (storeOfList i l) = true := by
  induction l generalizing i with
  | nil => rfl
  | cons v t ih =>
    simp only [List.length_cons] at h
    have ht := ih (i + 1) (by omega)
    by_cases hv : v = unlisted w
    · simp only [storeOfList, if_pos hv]
      exact storeWfFrom_mono (by omega) ht
    · simp only [storeOfList, if_neg hv, storeWfFrom, Bool.and_eq_true, decide_eq_true_eq]
      exact ⟨⟨⟨le_refl _, by omega⟩, hv⟩, ht⟩

theorem storeRead_storeOfList (i : Nat) (l : List (BitVec w)) (j : Nat) (h : j < l.length) :
    storeRead (storeOfList i l) (i + j) = l[j] := by
  induction l generalizing i j with
  | nil => simp at h
  | cons v t ih =>
    cases j with
    | zero =>
      by_cases hv : v = unlisted w
      · simp only [storeOfList, if_pos hv, Nat.add_zero, List.getElem_cons_zero]
        rw [storeRead_of_lt (storeOfList_wf (i + 1) (i + 1 + t.length) t (le_refl _)) (by omega), hv]
      · simp [storeOfList, hv, storeRead]
    | succ j =>
      have ht := ih (i + 1) j (by simpa using h)
      have e : i + 1 + j = i + (j + 1) := by omega
      rw [e] at ht
      by_cases hv : v = unlisted w
      · simpa [storeOfList, hv] using ht
      · simpa [storeOfList, hv, storeRead] using ht

/-- The store of a list of entries is canonical. -/
theorem storeOfEntries_wf (lo hi : Nat) (l : List (Nat × BitVec w)) (h : ∀ c ∈ l, lo ≤ c.1 ∧ c.1 < hi) :
    storeWfFrom lo hi (storeOfEntries l) = true := by
  have key : ∀ (l : List (Nat × BitVec w)) (m : Store w), storeWfFrom lo hi m = true →
      (∀ c ∈ l, lo ≤ c.1 ∧ c.1 < hi) →
      storeWfFrom lo hi (l.foldl (fun m c => storeWrite m c.1 c.2) m) = true := by
    intro l
    induction l with
    | nil => intro m hm _; exact hm
    | cons c t ih =>
      intro m hm hl
      refine ih _ (storeWrite_wf hm (hl c (by simp)).1 (hl c (by simp)).2) fun d hd => hl d (by simp [hd])
  exact key l [] rfl h

end Sys2Proof.Machine
end

