-- ==== Sys2Proof/Laws/Ppu.lean ====
section
/-! SUPPORT. What the PPU's clock leaves alone. -/

namespace Sys2Proof.Machine

/-- What the CPU and the host own in the PPU: its registers and its two memories. No PPU clock writes any of it. -/
structure SamePorts (p q : Ppu) : Prop where
  lcdc : q.lcdc = p.lcdc
  statEnables : q.statEnables = p.statEnables
  scy : q.scy = p.scy
  scx : q.scx = p.scx
  lyc : q.lyc = p.lyc
  bgp : q.bgp = p.bgp
  obp0 : q.obp0 = p.obp0
  obp1 : q.obp1 = p.obp1
  wy : q.wy = p.wy
  wx : q.wx = p.wx
  vram : q.vram = p.vram
  oam : q.oam = p.oam

theorem SamePorts.refl (p : Ppu) : SamePorts p p := by constructor <;> rfl

theorem SamePorts.trans {p q r : Ppu} (h : SamePorts p q) (k : SamePorts q r) : SamePorts p r := by
  cases h; cases k; constructor <;> simp_all

theorem statSource_ports (src : StatSource) (p : Ppu) (f : BitVec 5) : SamePorts p (statSource src p f).1 := by
  unfold statSource; split <;> constructor <;> rfl

theorem enterMode_ports (m : PpuMode) (src : Option StatSource) (p : Ppu) (f : BitVec 5) :
    SamePorts p (enterMode m src p f).1 := by
  unfold enterMode
  split
  · exact .refl p
  · cases src with
    | none => constructor <;> rfl
    | some s => exact SamePorts.trans (q := { p with mode := m }) (by constructor <;> rfl) (statSource_ports ..)

theorem resolveColumn_ports (p : Ppu) : SamePorts p (resolveColumn p) := by
  unfold resolveColumn; split <;> constructor <;> rfl

theorem ppuOffClock_ports (p : Ppu) : SamePorts p (ppuOffClock p) := by
  unfold ppuOffClock
  constructor <;> (dsimp only; split <;> split <;> rfl)

theorem ppuTurnOn_ports (p : Ppu) : SamePorts p (ppuTurnOn p) := by
  unfold ppuTurnOn; split <;> constructor <;> rfl

theorem ppuLineStart_ports (p : Ppu) : SamePorts p (ppuLineStart p) := by
  unfold ppuLineStart; split <;> constructor <;> rfl

theorem ppuEnterScan_ports (p : Ppu) (f : BitVec 5) : SamePorts p (ppuEnterScan p f).1 := by
  unfold ppuEnterScan
  split
  · exact enterMode_ports ..
  · split
    · exact (enterMode_ports .vramRead none p f).trans (by constructor <;> rfl)
    · exact .refl p

theorem ppuEnterHblank_ports (p : Ppu) (f : BitVec 5) : SamePorts p (ppuEnterHblank p f).1 := by
  unfold ppuEnterHblank
  split
  · exact enterMode_ports ..
  · exact .refl p

theorem ppuEnterVblank_ports (p : Ppu) (f : BitVec 5) : SamePorts p (ppuEnterVblank p f).1 :=
  (enterMode_ports .vblank (some .m1) p f).trans (by constructor <;> rfl)

theorem ppuLineEvents_ports (p : Ppu) (f : BitVec 5) : SamePorts p (ppuLineEvents p f).1 := by
  unfold ppuLineEvents
  split
  · exact ((ppuEnterScan_ports p f).trans (resolveColumn_ports _)).trans (ppuEnterHblank_ports ..)
  · split
    · exact ppuEnterVblank_ports p f
    · exact .refl p

theorem ppuLine153_ports (n : Nat) (p : Ppu) : SamePorts p (ppuLine153 n p) := by
  unfold ppuLine153; split <;> constructor <;> rfl

theorem ppuCoincidence_ports (p : Ppu) (f : BitVec 5) : SamePorts p (ppuCoincidence p f).1 := by
  unfold ppuCoincidence
  dsimp only
  split
  · exact (statSource_ports .lyc p f).trans (by constructor <;> rfl)
  · constructor <;> rfl

theorem ppuAdvance_ports (p : Ppu) : SamePorts p (ppuAdvance p) := by
  unfold ppuAdvance; split <;> constructor <;> rfl

theorem ppuOnClock_ports (n : Nat) (p : Ppu) (f : BitVec 5) : SamePorts p (ppuOnClock n p f).1 :=
  (((((ppuTurnOn_ports p).trans (ppuLineStart_ports _)).trans (ppuLineEvents_ports _ f)).trans
    (ppuLine153_ports n _)).trans (ppuCoincidence_ports ..)).trans (ppuAdvance_ports _)

/-- A PPU clock writes no register that the bus can write, and no VRAM or OAM byte (R460). -/
theorem ppuClock_ports (n : Nat) (p : Ppu) (f : BitVec 5) : SamePorts p (ppuClock n p f).1 := by
  unfold ppuClock
  split
  · exact ppuOnClock_ports ..
  · exact ppuOffClock_ports p

/-- The same of any number of clocks. -/
theorem ppuUpdate_ports (n k : Nat) (p : Ppu) (f : BitVec 5) : SamePorts p (ppuUpdate n k p f).1 := by
  induction k generalizing p f with
  | zero => exact .refl p
  | succ k ih => exact (ppuClock_ports n p f).trans (ih _ _)

/-! ### Requests -/

@[simp] theorem requestInterrupt_bit (i j : Nat) (f : BitVec 5) (hi : i < 5) :
    (requestInterrupt i f).getLsbD j = (f.getLsbD j || decide (j = i)) := by
  unfold requestInterrupt
  by_cases hj : j < 5
  · simp only [BitVec.getLsbD_or, BitVec.getLsbD_shiftLeft, BitVec.getLsbD_one]
    by_cases h : j = i
    · subst h; simp [hj]
    · have : ¬(j - i = 0 ∧ ¬j < i) := by omega
      by_cases h1 : j < i
      · simp [h1, h]
      · have : j - i ≠ 0 := by omega
        simp [h, h1, this]
  · have hne : j ≠ i := by omega
    simp [BitVec.getLsbD_of_ge _ _ (by omega : 5 ≤ j), hne]

/-- No bit of IF is lost. -/
def KeepsBits (f g : BitVec 5) : Prop := ∀ j, f.getLsbD j = true → g.getLsbD j = true

theorem KeepsBits.refl (f : BitVec 5) : KeepsBits f f := fun _ h => h

theorem KeepsBits.trans {f g h : BitVec 5} (a : KeepsBits f g) (b : KeepsBits g h) : KeepsBits f h :=
  fun j hj => b j (a j hj)

theorem requestInterrupt_keeps (i : Nat) (f : BitVec 5) : KeepsBits f (requestInterrupt i f) := by
  intro j hj
  simp [requestInterrupt, hj]

theorem statSource_keeps (src : StatSource) (p : Ppu) (f : BitVec 5) : KeepsBits f (statSource src p f).2 := by
  unfold statSource
  split
  · exact requestInterrupt_keeps 1 f
  · exact .refl f

theorem enterMode_keeps (m : PpuMode) (src : Option StatSource) (p : Ppu) (f : BitVec 5) :
    KeepsBits f (enterMode m src p f).2 := by
  unfold enterMode
  split
  · exact .refl f
  · cases src with
    | none => exact .refl f
    | some s => exact statSource_keeps _ _ _

theorem ppuLineEvents_keeps (p : Ppu) (f : BitVec 5) : KeepsBits f (ppuLineEvents p f).2 := by
  unfold ppuLineEvents
  split
  · refine KeepsBits.trans (g := (ppuEnterScan p f).2) ?_ ?_
    · unfold ppuEnterScan
      split
      · exact enterMode_keeps _ _ _ _
      · split
        · exact enterMode_keeps _ _ _ _
        · exact .refl f
    · dsimp only
      unfold ppuEnterHblank
      split
      · exact enterMode_keeps _ _ _ _
      · exact .refl _
  · split
    · exact (enterMode_keeps .vblank (some .m1) p f).trans (requestInterrupt_keeps 0 _)
    · exact .refl f

theorem ppuCoincidence_keeps (p : Ppu) (f : BitVec 5) : KeepsBits f (ppuCoincidence p f).2 := by
  unfold ppuCoincidence
  dsimp only
  split
  · exact statSource_keeps _ _ _
  · exact .refl f

/-- A PPU clock only sets bits of IF (R172). -/
theorem ppuClock_keeps (n : Nat) (p : Ppu) (f : BitVec 5) : KeepsBits f (ppuClock n p f).2 := by
  unfold ppuClock
  split
  · exact (ppuLineEvents_keeps _ f).trans (ppuCoincidence_keeps _ _)
  · exact .refl f

/-- The same of any number of clocks. -/
theorem ppuUpdate_keeps (n k : Nat) (p : Ppu) (f : BitVec 5) : KeepsBits f (ppuUpdate n k p f).2 := by
  induction k generalizing p f with
  | zero => exact .refl f
  | succ k ih => exact (ppuClock_keeps n p f).trans (ih _ _)

end Sys2Proof.Machine
end

