-- ==== Sys2Proof/Laws/State.lean ====
section
/-! SUPPORT. One lemma per field per update of the state, so that no proof unfolds a record update. -/

namespace Sys2Proof.Machine

section Updates

variable (s : State) (c : Cpu) (w : Word)

/-! ### `withCpu` -/

@[simp] theorem withCpu_cpu : (withCpu s c).cpu = c := rfl
@[simp] theorem withCpu_intr : (withCpu s c).intr = s.intr := rfl
@[simp] theorem withCpu_timer : (withCpu s c).timer = s.timer := rfl
@[simp] theorem withCpu_ppu : (withCpu s c).ppu = s.ppu := rfl
@[simp] theorem withCpu_cart : (withCpu s c).cart = s.cart := rfl
@[simp] theorem withCpu_joypad : (withCpu s c).joypad = s.joypad := rfl
@[simp] theorem withCpu_serial : (withCpu s c).serial = s.serial := rfl
@[simp] theorem withCpu_flat : (withCpu s c).flat = s.flat := rfl
@[simp] theorem withCpu_fault : (withCpu s c).fault = s.fault := rfl
@[simp] theorem withCpu_clock : (withCpu s c).clock = s.clock := rfl
@[simp] theorem withCpu_config : (withCpu s c).config = s.config := rfl
@[simp] theorem withCpu_withCpu (d : Cpu) : withCpu (withCpu s c) d = withCpu s d := rfl
@[simp] theorem withCpu_self : withCpu s s.cpu = s := rfl

/-! ### `setPc` and `setSp` are `withCpu` -/

theorem setPc_eq_withCpu : setPc s w = withCpu s { s.cpu with pc := w } := rfl
theorem setSp_eq_withCpu : setSp s w = withCpu s { s.cpu with sp := w } := rfl

@[simp] theorem setPc_cpu : (setPc s w).cpu = { s.cpu with pc := w } := rfl
@[simp] theorem setPc_intr : (setPc s w).intr = s.intr := rfl
@[simp] theorem setPc_timer : (setPc s w).timer = s.timer := rfl
@[simp] theorem setPc_ppu : (setPc s w).ppu = s.ppu := rfl
@[simp] theorem setPc_cart : (setPc s w).cart = s.cart := rfl
@[simp] theorem setPc_joypad : (setPc s w).joypad = s.joypad := rfl
@[simp] theorem setPc_serial : (setPc s w).serial = s.serial := rfl
@[simp] theorem setPc_flat : (setPc s w).flat = s.flat := rfl
@[simp] theorem setPc_fault : (setPc s w).fault = s.fault := rfl
@[simp] theorem setPc_clock : (setPc s w).clock = s.clock := rfl
@[simp] theorem setPc_config : (setPc s w).config = s.config := rfl

@[simp] theorem setSp_cpu : (setSp s w).cpu = { s.cpu with sp := w } := rfl
@[simp] theorem setSp_intr : (setSp s w).intr = s.intr := rfl
@[simp] theorem setSp_timer : (setSp s w).timer = s.timer := rfl
@[simp] theorem setSp_ppu : (setSp s w).ppu = s.ppu := rfl
@[simp] theorem setSp_cart : (setSp s w).cart = s.cart := rfl
@[simp] theorem setSp_joypad : (setSp s w).joypad = s.joypad := rfl
@[simp] theorem setSp_serial : (setSp s w).serial = s.serial := rfl
@[simp] theorem setSp_flat : (setSp s w).flat = s.flat := rfl
@[simp] theorem setSp_fault : (setSp s w).fault = s.fault := rfl
@[simp] theorem setSp_clock : (setSp s w).clock = s.clock := rfl
@[simp] theorem setSp_config : (setSp s w).config = s.config := rfl

/-! ### `tick` -/

@[simp] theorem tick_cpu : (tick s).cpu = s.cpu := rfl
@[simp] theorem tick_ieReg : (tick s).intr.ieReg = s.intr.ieReg := rfl
@[simp] theorem tick_timer : (tick s).timer = timerUpdate 4 s.timer := rfl
@[simp] theorem tick_cart : (tick s).cart = s.cart := rfl
@[simp] theorem tick_joypad : (tick s).joypad = s.joypad := rfl
@[simp] theorem tick_serial : (tick s).serial = s.serial := rfl
@[simp] theorem tick_flat : (tick s).flat = s.flat := rfl
@[simp] theorem tick_fault : (tick s).fault = s.fault := rfl
@[simp] theorem tick_clock : (tick s).clock = s.clock + 4 := rfl
@[simp] theorem tick_config : (tick s).config = s.config := rfl

/-- The CPU takes no part in a tick. -/
@[simp] theorem tick_withCpu : tick (withCpu s c) = withCpu (tick s) c := rfl
@[simp] theorem tick_setPc : tick (setPc s w) = setPc (tick s) w := rfl
@[simp] theorem tick_setSp : tick (setSp s w) = setSp (tick s) w := rfl
@[simp] theorem idle_eq_tick : idle s = tick s := rfl

/-! ### Other updates -/

@[simp] theorem acceptInterrupt_cpu (i : Nat) : (acceptInterrupt i s).cpu = { s.cpu with ime := false } := rfl
@[simp] theorem acceptInterrupt_cart (i : Nat) : (acceptInterrupt i s).cart = s.cart := rfl
@[simp] theorem acceptInterrupt_ppu (i : Nat) : (acceptInterrupt i s).ppu = s.ppu := rfl
@[simp] theorem acceptInterrupt_flat (i : Nat) : (acceptInterrupt i s).flat = s.flat := rfl
@[simp] theorem acceptInterrupt_clock (i : Nat) : (acceptInterrupt i s).clock = s.clock := rfl
@[simp] theorem acceptInterrupt_config (i : Nat) : (acceptInterrupt i s).config = s.config := rfl
@[simp] theorem acceptInterrupt_fault (i : Nat) : (acceptInterrupt i s).fault = s.fault := rfl

/-- The end of a service call touches the CPU alone. -/
theorem endServiceCall_eq : endServiceCall s = withCpu s
    { s.cpu with haltFresh := false, ime := s.cpu.ime || s.cpu.eiScheduled, eiScheduled := false } := rfl

/-- A wake without service is one tick and a change of the CPU. -/
theorem wakeWithoutService_eq : wakeWithoutService s = withCpu (tick s)
    { s.cpu with halted := false, haltBugArmed := armsHaltBug s.config.haltBugMode s.cpu.haltFresh } := rfl

/-- Recording a fault touches `fault` alone. -/
theorem recordUnknownOpcode_eq (op : Byte) :
    recordUnknownOpcode op s = { s with fault := some (.unknownOpcode op s.cpu.opcodePc) } := rfl

end Updates

/-! ### Sequencing -/

@[simp] theorem andThen_next {α β : Type} (a : α) (f : α → Result β) : andThen (.next a) f = f a := rfl
@[simp] theorem andThen_fault {α β : Type} (r : Fault) (f : α → Result β) : andThen (.fault r) f = .fault r := rfl
@[simp] theorem andThen_refused {α β : Type} (r : Refusal) (f : α → Result β) :
    andThen (.refused r) f = .refused r := rfl

/-- A sequence answers next only through its first part. -/
theorem andThen_eq_next {α β : Type} {x : Result α} {f : α → Result β} {b : β} :
    andThen x f = .next b ↔ ∃ a, x = .next a ∧ f a = .next b := by
  cases x <;> simp

/-- Sequencing is associative. -/
theorem andThen_assoc {α β γ : Type} (x : Result α) (f : α → Result β) (g : β → Result γ) :
    andThen (andThen x f) g = andThen x fun a => andThen (f a) g := by
  cases x <;> rfl

end Sys2Proof.Machine
end

