-- ==== Sys2Proof/Laws/Bus.lean ====
section
/-! SUPPORT. What a bus access can do: one lemma each for reading, for writing, and for the byte of plain memory behind an
address. -/

namespace Sys2Proof.Machine

/-! ### The router, region by region (R72) -/

section Regions

variable {a : Word}

/-- The walk down the range table, written out. -/
theorem route_table (a : Word) : route a =
    if 0x0000 ≤ a.toNat ∧ a.toNat ≤ 0x7FFF then some .cartridge
    else if 0xA000 ≤ a.toNat ∧ a.toNat ≤ 0xBFFF then some .cartridge
    else if 0x8000 ≤ a.toNat ∧ a.toNat ≤ 0x9FFF then some .ppu
    else if 0xE000 ≤ a.toNat ∧ a.toNat ≤ 0xFDFF then some .echo
    else if 0xFE00 ≤ a.toNat ∧ a.toNat ≤ 0xFE9F then some .ppu
    else if 0xFF00 ≤ a.toNat ∧ a.toNat ≤ 0xFF00 then some .joypad
    else if 0xFF01 ≤ a.toNat ∧ a.toNat ≤ 0xFF02 then some .serial
    else if 0xFF04 ≤ a.toNat ∧ a.toNat ≤ 0xFF07 then some .timer
    else if 0xFF0F ≤ a.toNat ∧ a.toNat ≤ 0xFF0F then some .interruptController
    else if 0xFF40 ≤ a.toNat ∧ a.toNat ≤ 0xFF45 then some .ppu
    else if 0xFF47 ≤ a.toNat ∧ a.toNat ≤ 0xFF4B then some .ppu
    else if 0xFFFF ≤ a.toNat ∧ a.toNat ≤ 0xFFFF then some .interruptController
    else none := rfl

theorem route_rom (h : a.toNat < 0x8000) : route a = some .cartridge := by
  rw [route_table, if_pos (by omega)]

theorem route_cartRam (h : 0xA000 ≤ a.toNat) (h' : a.toNat < 0xC000) : route a = some .cartridge := by
  rw [route_table, if_neg (by omega), if_pos (by omega)]

theorem route_vram (h : 0x8000 ≤ a.toNat) (h' : a.toNat < 0xA000) : route a = some .ppu := by
  rw [route_table, if_neg (by omega), if_neg (by omega), if_pos (by omega)]

theorem route_echo (h : 0xE000 ≤ a.toNat) (h' : a.toNat < 0xFE00) : route a = some .echo := by
  rw [route_table, if_neg (by omega), if_neg (by omega), if_neg (by omega), if_pos (by omega)]

theorem route_oam (h : 0xFE00 ≤ a.toNat) (h' : a.toNat < 0xFEA0) : route a = some .ppu := by
  rw [route_table, if_neg (by omega), if_neg (by omega), if_neg (by omega), if_neg (by omega), if_pos (by omega)]

/-- What claims an address is a range of the table. -/
theorem routeIn_some {table : List MmioRange} {n : Nat} {c : Component} (h : routeIn table n = some c) :
    ∃ r ∈ table, r.owner = c ∧ r.low ≤ n ∧ n ≤ r.high := by
  induction table with
  | nil => cases h
  | cons r t ih =>
    by_cases hr : r.low ≤ n ∧ n ≤ r.high
    · rw [routeIn, if_pos hr] at h
      exact ⟨r, by simp, Option.some.inj h, hr⟩
    · rw [routeIn, if_neg hr] at h
      obtain ⟨q, hq, hrest⟩ := ih h
      exact ⟨q, by simp [hq], hrest⟩

/-- What no range claims is in none of them. -/
theorem routeIn_none {table : List MmioRange} {n : Nat} (h : routeIn table n = none) :
    ∀ r ∈ table, n < r.low ∨ r.high < n := by
  induction table with
  | nil => simp
  | cons r t ih =>
    by_cases hr : r.low ≤ n ∧ n ≤ r.high
    · rw [routeIn, if_pos hr] at h; cases h
    · rw [routeIn, if_neg hr] at h
      intro q hq
      rcases List.mem_cons.mp hq with rfl | hq
      · omega
      · exact ih h q hq

/-- An address in no range has no owner. -/
theorem routeIn_eq_none {table : List MmioRange} {n : Nat} (h : ∀ r ∈ table, ¬(r.low ≤ n ∧ n ≤ r.high)) :
    routeIn table n = none := by
  induction table with
  | nil => rfl
  | cons r t ih =>
    rw [routeIn, if_neg (h r List.mem_cons_self)]
    exact ih fun q hq => h q (List.mem_cons_of_mem r hq)

/-- Work RAM is unclaimed (R76). -/
theorem route_workRam (h : 0xC000 ≤ a.toNat) (h' : a.toNat < 0xE000) : route a = none :=
  routeIn_eq_none fun r hr => by fin_cases hr <;> dsimp only <;> omega

/-- High RAM is unclaimed (R76). -/
theorem route_highRam (h : 0xFF80 ≤ a.toNat) (h' : a.toNat < 0xFFFF) : route a = none :=
  routeIn_eq_none fun r hr => by fin_cases hr <;> dsimp only <;> omega

/-- The bytes between OAM and the I/O registers are unclaimed (R76). -/
theorem route_belowIo (h : 0xFEA0 ≤ a.toNat) (h' : a.toNat < 0xFF00) : route a = none :=
  routeIn_eq_none fun r hr => by fin_cases hr <;> dsimp only <;> omega

/-- An address the cartridge owns is in ROM or in the RAM window. -/
theorem of_route_cartridge (h : route a = some .cartridge) :
    a.toNat < 0x8000 ∨ 0xA000 ≤ a.toNat ∧ a.toNat < 0xC000 := by
  obtain ⟨r, hr, ho, h1, h2⟩ := routeIn_some h
  fin_cases hr <;> first | (dsimp only at h1 h2; omega) | cases ho

/-- An address the PPU owns is in VRAM, in OAM, or a register. -/
theorem of_route_ppu (h : route a = some .ppu) :
    0x8000 ≤ a.toNat ∧ a.toNat < 0xA000 ∨ 0xFE00 ≤ a.toNat ∧ a.toNat < 0xFEA0 ∨
      0xFF40 ≤ a.toNat ∧ a.toNat < 0xFF4C := by
  obtain ⟨r, hr, ho, h1, h2⟩ := routeIn_some h
  fin_cases hr <;> first | (dsimp only at h1 h2; omega) | cases ho

/-- An address of the echo aliaser. -/
theorem of_route_echo (h : route a = some .echo) : 0xE000 ≤ a.toNat ∧ a.toNat < 0xFE00 := by
  obtain ⟨r, hr, ho, h1, h2⟩ := routeIn_some h
  fin_cases hr <;> first | (dsimp only at h1 h2; omega) | cases ho

/-- An unclaimed address is at or above 0xC000. -/
theorem of_route_none (h : route a = none) : 0xC000 ≤ a.toNat := by
  have hn := routeIn_none h
  simp only [rangeTable, List.mem_cons, List.not_mem_nil, or_false, forall_eq_or_imp, forall_eq] at hn
  omega

end Regions

/-! ### The CPU takes no part in an access -/

@[simp] theorem memRead_withCpu (s : State) (c : Cpu) (a : Word) : memRead (withCpu s c) a = memRead s a := rfl
@[simp] theorem memRead_setPc (s : State) (w a : Word) : memRead (setPc s w) a = memRead s a := rfl
@[simp] theorem memRead_setSp (s : State) (w a : Word) : memRead (setSp s w) a = memRead s a := rfl
@[simp] theorem accessible_withCpu (s : State) (c : Cpu) (a : Word) : accessible (withCpu s c) a = accessible s a := rfl
@[simp] theorem accessible_setPc (s : State) (w a : Word) : accessible (setPc s w) a = accessible s a := rfl
@[simp] theorem accessible_setSp (s : State) (w a : Word) : accessible (setSp s w) a = accessible s a := rfl
@[simp] theorem accessible_tick (s : State) (a : Word) : accessible (tick s) a = accessible s a := rfl
@[simp] theorem readLoc_withCpu (s : State) (c : Cpu) (l : Loc) : readLoc (withCpu s c) l = readLoc s l := by cases l <;> rfl
@[simp] theorem locOf_withCpu (s : State) (c : Cpu) (a : Word) : locOf (withCpu s c) a = locOf s a := rfl
@[simp] theorem storedLoc_withCpu (s : State) (c : Cpu) (a : Word) : storedLoc (withCpu s c) a = storedLoc s a := rfl

/-! ### Time changes no memory -/

theorem tick_ports (s : State) : SamePorts s.ppu (tick s).ppu := ppuUpdate_ports ..

@[simp] theorem tick_vram (s : State) : (tick s).ppu.vram = s.ppu.vram := (tick_ports s).vram
@[simp] theorem tick_oam (s : State) : (tick s).ppu.oam = s.ppu.oam := (tick_ports s).oam

@[simp] theorem readLoc_tick (s : State) (l : Loc) : readLoc (tick s) l = readLoc s l := by
  cases l <;> simp [readLoc]

@[simp] theorem locOf_tick (s : State) (a : Word) : locOf (tick s) a = locOf s a := rfl

/-- Time only sets bits of IF. -/
theorem tick_keepsIf (s : State) : KeepsBits s.intr.ifReg (tick s).intr.ifReg := by
  unfold tick
  dsimp only
  refine KeepsBits.trans (g := if timerRequests s.timer then requestInterrupt 2 s.intr.ifReg else s.intr.ifReg) ?_
    (ppuUpdate_keeps _ _ _ _)
  split
  · exact requestInterrupt_keeps 2 _
  · exact .refl _

section Ticks

variable (n : Nat) (s : State)

@[simp] theorem ticks_zero : ticks 0 s = s := rfl
theorem ticks_succ : ticks (n + 1) s = ticks n (tick s) := rfl
theorem ticks_succ' : ticks (n + 1) s = tick (ticks n s) := by
  induction n generalizing s with
  | zero => rfl
  | succ n ih => exact ih (tick s)

theorem ticks_add (m : Nat) : ticks (m + n) s = ticks m (ticks n s) := by
  induction n generalizing s with
  | zero => rfl
  | succ n ih => exact ih (tick s)

@[simp] theorem ticks_cpu : (ticks n s).cpu = s.cpu := by induction n generalizing s <;> simp_all [ticks]
@[simp] theorem ticks_cart : (ticks n s).cart = s.cart := by induction n generalizing s <;> simp_all [ticks]
@[simp] theorem ticks_fault : (ticks n s).fault = s.fault := by induction n generalizing s <;> simp_all [ticks]
@[simp] theorem ticks_config : (ticks n s).config = s.config := by induction n generalizing s <;> simp_all [ticks]
@[simp] theorem ticks_flat : (ticks n s).flat = s.flat := by induction n generalizing s <;> simp_all [ticks]
@[simp] theorem ticks_joypad : (ticks n s).joypad = s.joypad := by induction n generalizing s <;> simp_all [ticks]
@[simp] theorem ticks_serial : (ticks n s).serial = s.serial := by induction n generalizing s <;> simp_all [ticks]
@[simp] theorem ticks_clock : (ticks n s).clock = s.clock + 4 * n := by
  induction n generalizing s with
  | zero => rfl
  | succ n ih => rw [ticks_succ, ih, tick_clock]; omega
@[simp] theorem ticks_withCpu (c : Cpu) : ticks n (withCpu s c) = withCpu (ticks n s) c := by
  induction n generalizing s <;> simp_all [ticks]
@[simp] theorem readLoc_ticks (l : Loc) : readLoc (ticks n s) l = readLoc s l := by
  induction n generalizing s <;> simp_all [ticks]
@[simp] theorem locOf_ticks (a : Word) : locOf (ticks n s) a = locOf s a := by
  induction n generalizing s <;> simp_all [ticks]
@[simp] theorem accessible_ticks (a : Word) : accessible (ticks n s) a = accessible s a := by
  induction n generalizing s <;> simp_all [ticks]

end Ticks

/-! ### Reading -/

/-- In the RAM window an accessible address has no clock register behind it. -/
theorem clockSelected_of_accessible {s : State} {a : Word} (h : accessible s a = true)
    (hr : a.toNat < 0x8000 ∨ 0xA000 ≤ a.toNat ∧ a.toNat < 0xC000) (ha : ¬a.toNat < 0x8000) :
    clockSelected s.cart = false := by
  have hw := hr.resolve_left ha
  cases hc : clockSelected s.cart with
  | false => rfl
  | true =>
    have e1 : decide (40960 ≤ a.toNat) = true := decide_eq_true hw.1
    have e2 : decide (a.toNat < 49152) = true := decide_eq_true hw.2
    simp [accessible, hc, e1, e2] at h

/-- An accessible address can be read. -/
theorem memRead_of_accessible {s : State} {a : Word} (h : accessible s a = true) : ∃ v, memRead s a = .next v := by
  unfold memRead
  cases hr : route a with
  | none => exact ⟨_, rfl⟩
  | some c =>
    cases c with
    | cartridge =>
      dsimp only [cartRead]
      split
      · exact ⟨_, rfl⟩
      · rename_i ha
        rw [clockSelected_of_accessible h (of_route_cartridge hr) ha]
        simp only [Bool.false_eq_true, if_false]
        split <;> exact ⟨_, rfl⟩
    | _ => exact ⟨_, rfl⟩

/-- A read stops only by the refusal of R113. -/
theorem memRead_stops {s : State} {a : Word} :
    (∃ v, memRead s a = .next v) ∨ memRead s a = .refused (.mbc3ClockAccess a) ∧ accessible s a = false := by
  cases h : accessible s a with
  | true => exact .inl (memRead_of_accessible h)
  | false =>
    refine .inr ⟨?_, rfl⟩
    simp [accessible] at h
    obtain ⟨⟨hc, h1⟩, h2⟩ := h
    rw [memRead, route_cartRam h1 h2]
    dsimp only [cartRead]
    rw [if_neg (by omega), hc]
    rfl

/-- The byte of plain memory at an address is what a read there gives, but for the lockout of R470. -/
theorem memRead_of_locOf {s : State} {a : Word} {l : Loc} (h : locOf s a = some l)
    (hv : ∀ b, l = .vram b → vramLocked s.config s.ppu = false)
    (ho : ∀ b, l = .oam b → oamLocked s.config s.ppu = false) : memRead s a = .next (readLoc s l) := by
  unfold locOf at h
  unfold memRead
  cases hr : route a with
  | none =>
    simp only [hr] at h
    split at h
    · rename_i h8; cases h; simp [h8, readLoc]
    · cases h
  | some c =>
    cases c <;> simp only [hr] at h
    case cartridge =>
      dsimp only [cartRead]
      split at h
      · rename_i h8; cases h; simp [h8, readLoc]
      · rename_i h8
        split at h
        · cases h
        · rename_i hc
          cases hx : ramIndex s.cart a.toNat with
          | none => simp [hx] at h
          | some i => simp only [hx] at h; cases h; simp [h8, hc, readLoc]
    case ppu =>
      split at h
      · rename_i h8; cases h; simp [ppuRead, h8, readLoc, hv]
      · rename_i h8
        split at h
        · rename_i hf; cases h; simp [ppuRead, h8, hf, readLoc, ho]
        · cases h
    case echo => cases h; rfl
    all_goals cases h

/-! ### Writing -/

/-- A RAM index lies in the RAM buffer (R98). -/
theorem ramIndex_lt {c : Cartridge} {a i : Nat} (h : ramIndex c a = some i) : i < c.ramBytes := by
  have hat : ∀ (e : Bool) (b : Nat), ramIndexAt c e b a = some i → i < c.ramBytes := by
    intro e b hb
    rw [ramIndexAt, Option.ite_none_right_eq_some] at hb
    obtain ⟨⟨-, -, hlt⟩, hb⟩ := hb
    rw [← Option.some.inj hb]
    exact hlt
  unfold ramIndex at h
  split at h
  · cases h
  · exact hat _ _ h
  · split at h
    · exact hat _ _ h
    · cases h
  · exact hat _ _ h

/-- What a cartridge write is, when it is not refused. -/
theorem cartWrite_cases {c d : Cartridge} {a : Word} {v : Byte} (h : cartWrite c a v = .next d) :
    a.toNat < 0x8000 ∧ d = { c with mapper := mapperWrite c.mapper a.toNat v } ∨
      0x8000 ≤ a.toNat ∧ clockSelected c = false ∧
        ((∃ i, ramIndex c a.toNat = some i ∧ d = { c with ram := storeWrite c.ram i v }) ∨
          ramIndex c a.toNat = none ∧ d = c) := by
  unfold cartWrite at h
  split at h
  · rename_i h8; cases h; exact .inl ⟨h8, rfl⟩
  · rename_i h8
    split at h
    · cases h
    · rename_i hc
      refine .inr ⟨by omega, by simpa using hc, ?_⟩
      split at h
      · rename_i i hi; cases h; exact .inl ⟨i, hi, rfl⟩
      · rename_i hi; cases h; exact .inr ⟨hi, rfl⟩

/-- A cartridge write changes the mapper's registers and cartridge RAM at most. -/
theorem cartWrite_frame {c d : Cartridge} {a : Word} {v : Byte} (h : cartWrite c a v = .next d) :
    ∃ m r, d = { c with mapper := m, ram := r } := by
  obtain ⟨-, rfl⟩ | ⟨-, -, ⟨i, -, rfl⟩ | ⟨-, rfl⟩⟩ := cartWrite_cases h
  · exact ⟨mapperWrite c.mapper a.toNat v, c.ram, rfl⟩
  · exact ⟨c.mapper, storeWrite c.ram i v, rfl⟩
  · exact ⟨d.mapper, d.ram, rfl⟩

/-- A property of both branches is a property of the choice. -/
theorem ite_of_both {α : Type} {P : α → Prop} {c : Prop} [Decidable c] {x y : α} (hx : P x) (hy : P y) :
    P (if c then x else y) := by
  split <;> assumption

/-- `q` has the scan state of `p`: what the PPU's clock owns. -/
structure SameScan (p q : Ppu) : Prop where
  line : q.line = p.line
  lineClock : q.lineClock = p.lineClock
  ly : q.ly = p.ly
  mode : q.mode = p.mode
  coincidence : q.coincidence = p.coincidence
  mode3Scx : q.mode3Scx = p.mode3Scx
  lcdWasOn : q.lcdWasOn = p.lcdWasOn
  offClock : q.offClock = p.offClock
  endOfFrame : q.endOfFrame = p.endOfFrame
  statFired : q.statFired = p.statFired
  pixels : q.pixels = p.pixels

theorem SameScan.refl (p : Ppu) : SameScan p p := by constructor <;> rfl

/-- A register write leaves the scan, VRAM and OAM alone. -/
theorem ppuRegWrite_scan (p : Ppu) (a : Word) (v : Byte) :
    SameScan p (ppuRegWrite p a v) ∧ (ppuRegWrite p a v).vram = p.vram ∧ (ppuRegWrite p a v).oam = p.oam := by
  unfold ppuRegWrite
  repeat' apply ite_of_both (P := fun q : Ppu => SameScan p q ∧ q.vram = p.vram ∧ q.oam = p.oam)
  all_goals exact ⟨by constructor <;> rfl, rfl, rfl⟩

/-- A PPU write leaves the scan alone. -/
theorem ppuWrite_scan (cfg : Config) (p : Ppu) (a : Word) (v : Byte) : SameScan p (ppuWrite cfg p a v) := by
  unfold ppuWrite
  split
  · split
    · exact .refl p
    · constructor <;> rfl
  · split
    · split
      · exact .refl p
      · constructor <;> rfl
    · exact (ppuRegWrite_scan p a v).1

/-- What any write leaves alone, whatever its address. -/
structure WriteFrame (s t : State) : Prop where
  cpu : t.cpu = s.cpu
  fault : t.fault = s.fault
  clock : t.clock = s.clock
  config : t.config = s.config
  header : t.cart.header = s.cart.header
  imageLength : t.cart.imageLength = s.cart.imageLength
  rom : t.cart.rom = s.cart.rom
  romBanks : t.cart.romBanks = s.cart.romBanks
  ramBytes : t.cart.ramBytes = s.cart.ramBytes
  ramBanks : t.cart.ramBanks = s.cart.ramBanks
  cross : t.joypad.cross = s.joypad.cross
  buttons : t.joypad.buttons = s.joypad.buttons
  scan : SameScan s.ppu t.ppu

theorem WriteFrame.refl (s : State) : WriteFrame s s := by
  constructor <;> first | rfl | exact .refl _

theorem memWrite_frame {s t : State} {a : Word} {v : Byte} (h : memWrite s a v = .next t) : WriteFrame s t := by
  unfold memWrite at h
  cases hr : route a with
  | none =>
    simp only [hr] at h
    cases h
    split <;> constructor <;> first | rfl | exact .refl _
  | some c =>
    cases c <;> simp only [hr] at h
    case cartridge =>
      split at h <;> cases h
      rename_i d hd
      obtain ⟨m, r, rfl⟩ := cartWrite_frame hd
      constructor <;> first | rfl | exact .refl _
    case ppu =>
      cases h
      constructor <;> first | rfl | exact ppuWrite_scan ..
    all_goals (cases h; constructor <;> first | rfl | exact .refl _)

/-- An accessible address can be written. -/
theorem memWrite_of_accessible {s : State} {a : Word} (v : Byte) (h : accessible s a = true) :
    ∃ t, memWrite s a v = .next t := by
  unfold memWrite
  cases hr : route a with
  | none => exact ⟨_, rfl⟩
  | some c =>
    cases c with
    | cartridge =>
      have hc : ∃ d, cartWrite s.cart a v = .next d := by
        unfold cartWrite
        split
        · exact ⟨_, rfl⟩
        · rename_i ha
          rw [clockSelected_of_accessible h (of_route_cartridge hr) ha]
          simp only [Bool.false_eq_true, if_false]
          split <;> exact ⟨_, rfl⟩
      obtain ⟨d, hd⟩ := hc
      exact ⟨_, by rw [hd]⟩
    | _ => exact ⟨_, rfl⟩

end Sys2Proof.Machine
end

