-- ==== Sys2Proof/Laws/Clock.lean ====
section
/-! SUPPORT. Each part of a PPU clock as one equation over the fields it writes (R460). -/

namespace Sys2Proof.Machine

/-- Resolving a column writes the pixel buffer alone. -/
theorem resolveColumn_eq (p : Ppu) : ∃ P, resolveColumn p = { p with pixels := P } := by
  unfold resolveColumn; split
  · exact ⟨_, rfl⟩
  · exact ⟨p.pixels, rfl⟩

/-- Entering mode `m` fires its source `src`. -/
def entryFires (m : PpuMode) (src : StatSource) (p : Ppu) : Bool :=
  decide (p.mode ≠ m ∧ statEnabled p src = true ∧ hasFired p.statFired src = false)

/-- `EnterMode` with a source: the mode, and the source's firing where the mode changes. -/
theorem enterMode_some_eq (m : PpuMode) (src : StatSource) (p : Ppu) (f : BitVec 5) :
    enterMode m (some src) p f =
      ({ p with mode := m, statFired := if entryFires m src p then markFired p.statFired src else p.statFired },
        if entryFires m src p then requestInterrupt 1 f else f) := by
  unfold entryFires
  unfold enterMode
  by_cases hm : p.mode = m
  · simp [hm]; rw [← hm]
  · simp only [hm, if_false]
    unfold statSource
    have e1 : statEnabled { p with mode := m } src = statEnabled p src := by cases src <;> rfl
    rw [e1]; dsimp only
    cases h1 : statEnabled p src <;> cases h2 : hasFired p.statFired src <;> simp [hm]

/-- The coincidence source fires at this clock. -/
def coincidenceFires (p : Ppu) : Bool :=
  decide (p.ly = p.lyc) && !p.coincidence && p.statEnables.getLsbD 3 && !p.statFired.lyc

/-- The coincidence flag and its source. -/
theorem ppuCoincidence_eq (p : Ppu) (f : BitVec 5) : ppuCoincidence p f =
    ({ p with
      coincidence := decide (p.ly = p.lyc)
      statFired := { p.statFired with lyc := p.statFired.lyc || coincidenceFires p } },
    if coincidenceFires p then requestInterrupt 1 f else f) := by
  unfold ppuCoincidence statSource statEnabled hasFired markFired coincidenceFires
  obtain ⟨a1,a2,a3,a4,a5,a6,a7,a8,a9,a10,l,lc,ly,md,co,m3,lw,oc,eo,⟨f0,f1,f2,f3⟩,px,vr,oa⟩ := p
  dsimp only
  cases co <;> cases f3 <;> cases a2.getLsbD 3 <;> by_cases h : ly = a5 <;> simp [h]

/-- LY on line 153. -/
theorem ppuLine153_eq (n : Nat) (p : Ppu) : ppuLine153 n p =
    { p with ly := if p.line = 153 ∧ p.lineClock = n then 0#8 else p.ly } := by
  unfold ppuLine153; split <;> rfl

/-- The move to the next clock of the frame. -/
theorem ppuAdvance_eq (p : Ppu) : ppuAdvance p = { p with
   lineClock := if p.lineClock = 455 then 0 else p.lineClock + 1
   line := if p.lineClock = 455 then (p.line + 1) % 154 else p.line
   ly := if p.lineClock = 455 then BitVec.ofNat 8 ((p.line + 1) % 154) else p.ly } := by
  unfold ppuAdvance clocksPerLine linesPerFrame
  by_cases h : p.lineClock = 455
  · rw [if_pos (by omega)]; simp [h]
  · rw [if_neg (by omega)]; simp [h]

/-- The events of a line clock, `statFired` being empty at clock 0. -/
theorem ppuLineEvents_eq (p : Ppu) (f : BitVec 5) (hc : p.lineClock = 0 → p.statFired = .empty) :
   ∃ P, let m0 := decide (p.line < 144 ∧ p.lineClock = 252 + p.mode3Scx.toNat ∧ p.mode ≠ .hblank) &&
        p.statEnables.getLsbD 0 && !p.statFired.m0
      let m1 := decide (p.line = 144 ∧ p.lineClock = 0 ∧ p.mode ≠ .vblank) && p.statEnables.getLsbD 1
      let m2 := decide (p.line < 144 ∧ p.lineClock = 0 ∧ p.mode ≠ .oamRead) && p.statEnables.getLsbD 2
     ppuLineEvents p f = ({ p with
       mode := if p.line = 144 ∧ p.lineClock = 0 then .vblank
          else if 144 ≤ p.line then p.mode
          else if p.lineClock = 0 then .oamRead
          else if p.lineClock = 80 then .vramRead
          else if p.lineClock = 252 + p.mode3Scx.toNat then .hblank
          else p.mode
       mode3Scx := if p.line < 144 ∧ p.lineClock = 80 then BitVec.ofNat 3 p.scx.toNat else p.mode3Scx
       endOfFrame := p.endOfFrame || decide (p.line = 144 ∧ p.lineClock = 0)
       statFired := { p.statFired with
         m0 := p.statFired.m0 || m0, m1 := p.statFired.m1 || m1, m2 := p.statFired.m2 || m2 }
       pixels := P },
       let g := if m0 || m1 || m2 then requestInterrupt 1 f else f
       if p.line = 144 ∧ p.lineClock = 0 then requestInterrupt 0 g else g) := by
  have hs : p.mode3Scx.toNat < 8 := p.mode3Scx.isLt
  have hx : p.scx.extractLsb' 0 3 = BitVec.ofNat 3 p.scx.toNat := by
    apply BitVec.eq_of_toNat_eq; simp
  unfold ppuLineEvents
  by_cases hl : p.line < 144
  · have n1 : ¬ p.line = 144 := by omega
    have n2 : ¬ 144 ≤ p.line := by omega
    simp only [hl, if_true, n1, n2, false_and, if_false, true_and]
    unfold ppuEnterScan
    by_cases h0 : p.lineClock = 0
    · simp only [h0, if_true]
      rw [enterMode_some_eq]; dsimp only
      obtain ⟨P, hP⟩ := resolveColumn_eq { p with
        mode := .oamRead
        statFired := if entryFires .oamRead .m2 p then markFired p.statFired .m2 else p.statFired }
      refine ⟨P, ?_⟩
      rw [hP]
      unfold ppuEnterHblank
      rw [if_neg (by dsimp only; omega)]
      have hc' := hc h0
      unfold entryFires statEnabled hasFired markFired
      rw [hc']
      unfold StatFired.empty
      by_cases hm : p.mode = .oamRead <;> cases p.statEnables.getLsbD 2 <;> simp [hm, h0] <;> omega
    · by_cases h80 : p.lineClock = 80
      · rw [if_neg h0, if_pos h80]
        obtain ⟨P, hP⟩ := resolveColumn_eq { p with mode := .vramRead, mode3Scx := p.scx.extractLsb' 0 3 }
        have e : enterMode .vramRead none p f = ({ p with mode := .vramRead}, f) := by
          unfold enterMode; split
          · rename_i h; rw [← h]
          · rfl
        refine ⟨P, ?_⟩
        rw [e]; dsimp only; rw [hP]
        unfold ppuEnterHblank
        have : (p.scx.extractLsb' 0 3).toNat < 8 := BitVec.isLt _
        rw [if_neg (by dsimp only; omega)]
        have : ¬ 80 = 252 + p.mode3Scx.toNat := by omega
        simp [hx, this, h80]
      · simp only [h0, h80, if_false]
        obtain ⟨P, hP⟩ := resolveColumn_eq p
        refine ⟨P, ?_⟩
        rw [hP]
        unfold ppuEnterHblank
        by_cases hh : p.lineClock = 252 + p.mode3Scx.toNat
        · rw [if_pos hh, enterMode_some_eq]
          unfold entryFires statEnabled hasFired markFired
          by_cases hm : p.mode = .hblank <;> cases p.statEnables.getLsbD 0 <;> cases hf : p.statFired.m0 <;>
            simp [hm, hh]
          all_goals rw [← hf]
        · rw [if_neg hh]; simp [hh]
  · simp only [hl, if_false]
    refine ⟨p.pixels, ?_⟩
    by_cases h : p.line = 144 ∧ p.lineClock = 0
    · simp only [h, and_self, if_true]
      unfold ppuEnterVblank
      rw [enterMode_some_eq]
      have hc' := hc h.2
      unfold entryFires statEnabled hasFired markFired
      rw [hc']
      unfold StatFired.empty
      by_cases hm : p.mode = .vblank <;> cases p.statEnables.getLsbD 1 <;> simp [hm, h.1, h.2]
    · rw [if_neg h]
      have : 144 ≤ p.line := by omega
      have h3 : ¬ (p.line = 144 ∧ p.lineClock = 0 ∧ p.mode ≠ .vblank) := fun x => h ⟨x.1, x.2.1⟩
      simp only [this, h, false_and, if_false, if_true, h3, decide_false, Bool.false_and, Bool.or_false,
        Bool.false_eq_true]

end Sys2Proof.Machine
end

