-- ==== Sys2Proof/Laws/Construct.lean ====
section
/-! SUPPORT. What construction gives, and what the stores of a draw read as. -/

namespace Sys2Proof.Machine

/-- The last entry of a draw stands over the ones before it. -/
theorem drawnByte_append (l : List (Nat × Byte)) (c : Nat × Byte) (a : Nat) :
    drawnByte (l ++ [c]) a = if c.1 = a then c.2 else drawnByte l a := by
  induction l with
  | nil => simp [drawnByte]
  | cons d t ih =>
    simp only [List.cons_append, drawnByte, ih]
    by_cases hc : c.1 = a
    · have : ¬ ∀ e ∈ t ++ [c], e.1 ≠ a := fun h => h c (by simp) hc
      rw [if_neg (fun x => this x.2), if_pos hc, if_pos hc]
    · simp only [hc, if_false]
      have : (∀ e ∈ t ++ [c], e.1 ≠ a) ↔ (∀ e ∈ t, e.1 ≠ a) := by
        constructor
        · intro h e he; exact h e (by simp [he])
        · intro h e he; simp at he; rcases he with he | rfl
          · exact h e he
          · exact hc
      simp only [this]

/-- The store of a draw reads as the draw. -/
theorem storeRead_storeOfEntries (l : List (Nat × Byte)) (a hi : Nat) (hl : ∀ c ∈ l, c.1 < hi) :
    storeRead (storeOfEntries l) a = drawnByte l a := by
  induction l using List.reverseRecOn with
  | nil => rfl
  | append_singleton t c ih =>
    have ht := ih (fun d hd => hl d (by simp [hd]))
    unfold storeOfEntries at ht ⊢
    rw [List.foldl_append, drawnByte_append]
    simp only [List.foldl_cons, List.foldl_nil]
    have hwf := storeOfEntries_wf 0 hi t (fun d hd => ⟨by omega, hl d (by simp [hd])⟩)
    unfold storeOfEntries at hwf
    split
    · rename_i h; subst h; exact storeRead_storeWrite_same _ _ hwf
    · rename_i h; rw [storeRead_storeWrite_ne _ _ (fun x => h x.symm)]; exact ht

/-- Entries of other addresses do not matter. -/
theorem drawnByte_filter (l : List (Nat × Byte)) (q : Nat → Bool) (a : Nat) (h : q a = true) :
    drawnByte (l.filter fun c => q c.1) a = drawnByte l a := by
  induction l with
  | nil => rfl
  | cons c t ih =>
    have hall : (∀ e ∈ t.filter (fun c => q c.1), e.1 ≠ a) ↔ ∀ e ∈ t, e.1 ≠ a := by
      constructor
      · intro hh e he hea
        exact hh e (List.mem_filter.mpr ⟨he, by rw [hea]; exact h⟩) hea
      · intro hh e he; exact hh e (List.mem_filter.mp he).1
    by_cases hc : q c.1 = true
    · rw [List.filter_cons_of_pos (by simpa using hc)]
      simp only [drawnByte, ih, hall]
    · rw [List.filter_cons_of_neg (by simpa using hc)]
      have : c.1 ≠ a := fun x => hc (by rw [x]; exact h)
      rw [ih, drawnByte, if_neg (fun x => this x.1)]

/-- The part of a draw an owner takes reads as the draw at that owner's addresses. -/
theorem drawFor_read (ram : List (Nat × Byte)) (o : Option Component) (a : Nat) (h1 : 0x8000 ≤ a) (h2 : a < 0xFF00)
    (h3 : routeIn rangeTable a = o) : storeRead (drawFor ram o) a = drawnByte ram a := by
  unfold drawFor
  rw [storeRead_storeOfEntries _ _ 0xFF00]
  · apply drawnByte_filter ram fun n =>
      decide (0x8000 ≤ n) && decide (n < 0xFF00) && decide (routeIn rangeTable n = o)
    simp [h1, h2, h3]
  · intro c hc; simp at hc; omega

/-- A filter that keeps an index keeps what it reads as. -/
theorem storeRead_filter (m : Memory) (q : Nat → Bool) (a : Nat) (h : q a = true) :
    storeRead (m.filter fun c => q c.1) a = storeRead m a := by
  induction m with
  | nil => rfl
  | cons c t ih =>
    obtain ⟨k, v⟩ := c
    by_cases hc : q k = true
    · rw [List.filter_cons_of_pos (by simpa using hc)]; simp only [storeRead, ih]
    · rw [List.filter_cons_of_neg (by simpa using hc)]
      have : k ≠ a := fun x => hc (by rw [x]; exact h)
      rw [ih, storeRead, if_neg this]

/-- A board comes only of a valid image, and is the reset state around its cartridge. -/
theorem construct_next (image : List Byte) (d : Draws) (s : State) (h : construct image d = .next s) :
    ∃ m b r, 0x150 ≤ image.length ∧ mapperOfType (image.getD 0x147 0) = some m ∧
      romBankCount (image.getD 0x148 0) = some b ∧ ramSizeOf (image.getD 0x149 0) = some r ∧
      s = boardWith { header := headerOf image, imageLength := image.length, rom := storeOfList 0 image, romBanks := b
                      ramBytes := r.1, ramBanks := r.2, ram := [], mapper := m } d := by
  unfold construct constructWith buildCartridge at h
  by_cases hl : image.length < 0x150
  · rw [if_pos hl] at h; cases h
  · rw [if_neg hl] at h
    dsimp only [headerOf] at h
    cases h1 : mapperOfType (image.getD 0x147 0) with
    | none => rw [h1] at h; cases h
    | some m =>
      cases h2 : romBankCount (image.getD 0x148 0) with
      | none => rw [h1, h2] at h; cases h
      | some b =>
        cases h3 : ramSizeOf (image.getD 0x149 0) with
        | none => rw [h1, h2, h3] at h; cases h
        | some r =>
          rw [h1, h2, h3] at h
          refine ⟨m, b, r, by omega, rfl, rfl, rfl, ?_⟩
          cases h; rfl

end Sys2Proof.Machine
end

