-- ==== Sys2Proof/Laws/Operands.lean ====
section
/-! SUPPORT. What the register accessors and the flag byte do, and what a write-back of A, of a register or of the flags
amounts to in the terms of `Safety.lean`. -/

namespace Sys2Proof.Machine

/-! ### Halves of a word -/

@[simp] theorem hiByte_joinBytes (h l : Byte) : hiByte (joinBytes h l) = h := by
  unfold hiByte joinBytes
  ext i hi
  rw [BitVec.getElem_extractLsb', BitVec.getLsbD_append]
  simp [BitVec.getLsbD_eq_getElem hi]

@[simp] theorem loByte_joinBytes (h l : Byte) : loByte (joinBytes h l) = l := by
  unfold loByte joinBytes
  ext i hi
  rw [BitVec.getElem_extractLsb', BitVec.getLsbD_append]
  simp [hi]

@[simp] theorem joinBytes_hiByte_loByte (w : Word) : joinBytes (hiByte w) (loByte w) = w := by
  unfold loByte joinBytes hiByte
  ext i hi
  rw [← BitVec.getLsbD_eq_getElem, BitVec.getLsbD_append, ← BitVec.getLsbD_eq_getElem hi]
  split
  · rename_i h
    simp [h]
  · rename_i h
    rw [BitVec.getLsbD_extractLsb', Nat.add_sub_cancel' (Nat.le_of_not_lt h)]
    simp
    omega

/-! ### The flag byte -/

@[simp] theorem flagByte_z (z n h c : Bool) : (flagByte z n h c)[7] = z := by
  cases z <;> cases n <;> cases h <;> cases c <;> rfl

@[simp] theorem flagByte_n (z n h c : Bool) : (flagByte z n h c)[6] = n := by
  cases z <;> cases n <;> cases h <;> cases c <;> rfl

@[simp] theorem flagByte_h (z n h c : Bool) : (flagByte z n h c)[5] = h := by
  cases z <;> cases n <;> cases h <;> cases c <;> rfl

@[simp] theorem flagByte_c (z n h c : Bool) : (flagByte z n h c)[4] = c := by
  cases z <;> cases n <;> cases h <;> cases c <;> rfl

/-- After `F <- flagByte z n h c` the four flags are those. -/
theorem flagsAre_setF {t : State} (c : Cpu) {z n h cy : Bool} (e : t.cpu = setF c (flagByte z n h cy)) :
    FlagsAre t z n h cy := by
  simp [FlagsAre, flagZ, flagN, flagH, flagC, regF, setF, e]

/-! ### Registers by code -/

theorem getReg_setReg_same (c : Cpu) (r : Reg8) (v : Byte) : getReg (setReg c r v) r = v := by
  cases r <;> simp [getReg, setReg, setA, regA]

theorem getReg_setReg_ne (c : Cpu) {r q : Reg8} (v : Byte) (h : q ≠ r) : getReg (setReg c r v) q = getReg c q := by
  cases r <;> cases q <;> simp_all [getReg, setReg, setA, regA]

@[simp] theorem getReg_setF (c : Cpu) (fl : Byte) (q : Reg8) : getReg (setF c fl) q = getReg c q := by
  cases q <;> simp [getReg, setF, regA]

@[simp] theorem regF_setReg (c : Cpu) (r : Reg8) (v : Byte) : regF (setReg c r v) = regF c := by
  cases r <;> simp [regF, setReg, setA]

/-! ### Write-backs -/

/-- `(res, fl) <- …; A <- res; F <- fl`. -/
theorem writeAluOut_writesA (s : State) (o : AluOut) {res : Byte} {z n h c : Bool} (hr : o.res = res)
    (hf : o.fl = flagByte z n h c) : WritesA s (withCpu s (writeAluOut s.cpu o)) res z n h c := by
  refine ⟨⟨rfl, fun r hr => ?_⟩, ?_, ?_, fun l => by simp⟩
  · cases r <;> first | rfl | exact absurd rfl hr
  · simp [regA, writeAluOut, setF, setA, hr]
  · simp [FlagsAre, flagZ, flagN, flagH, flagC, regF, writeAluOut, setF, hf]

/-- `F <- fl`, A kept. -/
theorem setF_writesA (s : State) (fl : Byte) {z n h c : Bool} (hf : fl = flagByte z n h c) :
    WritesA s (withCpu s (setF s.cpu fl)) (regA s.cpu) z n h c := by
  refine ⟨⟨rfl, fun r hr => ?_⟩, ?_, ?_, fun l => by simp⟩
  · cases r <;> first | rfl | exact absurd rfl hr
  · simp [regA, setF]
  · simp [FlagsAre, flagZ, flagN, flagH, flagC, regF, setF, hf]

/-- A register and the flags written. -/
theorem setReg_setF_writesReg (s : State) (r : Reg8) (v : Byte) (z n h c : Bool) :
    WritesReg s (withCpu s (setF (setReg s.cpu r v) (flagByte z n h c))) r v z n h c := by
  refine ⟨⟨?_, fun q hq => ?_⟩, ?_, flagsAre_setF _ rfl, fun l => by simp⟩
  · cases r <;> rfl
  · simp [getReg_setReg_ne _ _ hq]
  · simp [getReg_setReg_same]

/-- A register written and no flag. -/
theorem setReg_loadsReg (s : State) (r : Reg8) (v : Byte) : LoadsReg s (withCpu s (setReg s.cpu r v)) r v := by
  refine ⟨⟨?_, fun q hq => ?_⟩, ?_, ?_, fun l => by simp⟩
  · cases r <;> rfl
  · simp [getReg_setReg_ne _ _ hq]
  · simp [getReg_setReg_same]
  · simp [SameFlags, FlagsAre, flagZ, flagN, flagH, flagC]

end Sys2Proof.Machine
end

