-- ==== Sys2Proof/Laws/Ops.lean ====
section
/-! SUPPORT. What the shared operations do, said once: a store, a bus cycle, a fetch, a push and a pop. -/

namespace Sys2Proof.Machine

/-! ### A store and the byte behind its address -/

/-- What a write does to plain memory and to nothing else. -/
theorem memWrite_cases {s t : State} {a : Word} {v : Byte} (h : memWrite s a v = .next t) :
    (∃ d, route a = some .cartridge ∧ cartWrite s.cart a v = .next d ∧ t = { s with cart := d }) ∨
    (route a = some .ppu ∧ t = { s with ppu := ppuWrite s.config s.ppu a v }) ∨
    (route a = some .echo ∧ t = { s with flat := storeWrite s.flat (echoTarget a.toNat) v }) ∨
    (route a = some .joypad ∧ t = { s with joypad := joypadWrite s.joypad v }) ∨
    (route a = some .serial ∧ t = { s with serial := serialWrite s.serial a v }) ∨
    (route a = some .timer ∧ t = { s with timer := timerWrite s.timer a v }) ∨
    (route a = some .interruptController ∧ t = { s with intr := intrWrite s.intr a v }) ∨
    (route a = none ∧ t = { s with flat := storeWrite s.flat a.toNat v }) := by
  unfold memWrite at h
  cases hr : route a with
  | none =>
    simp only [hr] at h
    have h8 : 0x8000 ≤ a.toNat := by have := of_route_none hr; omega
    rw [if_pos h8] at h
    cases h
    simp
  | some c =>
    cases c <;> simp only [hr] at h
    case cartridge =>
      split at h <;> cases h
      rename_i d hd
      exact .inl ⟨d, rfl, hd, rfl⟩
    all_goals (cases h; simp)

/-- The CPU takes no part in a write. -/
theorem memWrite_withCpu {s t : State} {a : Word} {v : Byte} (c : Cpu) (h : memWrite s a v = .next t) :
    memWrite (withCpu s c) a v = .next (withCpu t c) := by
  unfold memWrite at h ⊢
  cases hr : route a with
  | none =>
    simp only [hr] at h ⊢
    cases h
    split <;> rfl
  | some k =>
    cases k <;> simp only [hr] at h ⊢
    case cartridge =>
      rw [withCpu_cart]
      split at h <;> cases h
      rename_i d hd
      rfl
    all_goals (cases h; rfl)

/-- A store changes no byte of plain memory but the one its address names (R74, R82, R470). -/
theorem memWrite_others {s t : State} {a : Word} {v : Byte} (h : memWrite s a v = .next t) (l : Loc)
    (hl : storedLoc s a ≠ some l) : readLoc t l = readLoc s l := by
  obtain ⟨d, hr, hd, rfl⟩ | ⟨hr, rfl⟩ | ⟨hr, rfl⟩ | ⟨hr, rfl⟩ | ⟨hr, rfl⟩ | ⟨hr, rfl⟩ | ⟨hr, rfl⟩ | ⟨hr, rfl⟩ :=
    memWrite_cases h
  · obtain ⟨h8, rfl⟩ | ⟨h8, hc, ⟨i, hi, rfl⟩ | ⟨hi, rfl⟩⟩ := cartWrite_cases hd
    · cases l <;> rfl
    · have hs : storedLoc s a = some (.cartRam i) := by
        simp [storedLoc, locOf, hr, hc, hi, show ¬a.toNat < 0x8000 by omega]
      cases l <;> try rfl
      rename_i j
      exact storeRead_storeWrite_ne _ _ fun e => hl (by rw [hs, e])
    · rfl
  · have hscan := of_route_ppu hr
    unfold ppuWrite
    split
    · rename_i hA
      split
      · rfl
      · rename_i hk
        have hs : storedLoc s a = some (.vram a.toNat) := by simp [storedLoc, locOf, hr, hA, hk]
        cases l <;> try rfl
        exact storeRead_storeWrite_ne _ _ fun e => hl (by rw [hs, e])
    · rename_i hA
      split
      · rename_i hF
        split
        · rfl
        · rename_i hk
          have hs : storedLoc s a = some (.oam a.toNat) := by simp [storedLoc, locOf, hr, hA, hF, hk]
          cases l <;> try rfl
          exact storeRead_storeWrite_ne _ _ fun e => hl (by rw [hs, e])
      · obtain ⟨-, hv, ho⟩ := ppuRegWrite_scan s.ppu a v
        cases l <;> simp [readLoc, hv, ho]
  · have hs : storedLoc s a = some (.flat (echoTarget a.toNat)) := by simp [storedLoc, locOf, hr]
    cases l <;> try rfl
    exact storeRead_storeWrite_ne _ _ fun e => hl (by rw [hs, e])
  iterate 4 (cases l <;> rfl)
  · have h8 : 0x8000 ≤ a.toNat := by have := of_route_none hr; omega
    have hs : storedLoc s a = some (.flat a.toNat) := by simp [storedLoc, locOf, hr, h8]
    cases l <;> try rfl
    exact storeRead_storeWrite_ne _ _ fun e => hl (by rw [hs, e])

/-- The byte a store's address names holds the byte stored. -/
theorem memWrite_placed {s t : State} {a : Word} {v : Byte} (hok : StoresOk s) (h : memWrite s a v = .next t) (l : Loc)
    (hl : storedLoc s a = some l) : readLoc t l = v := by
  obtain ⟨d, hr, hd, rfl⟩ | ⟨hr, rfl⟩ | ⟨hr, rfl⟩ | ⟨hr, rfl⟩ | ⟨hr, rfl⟩ | ⟨hr, rfl⟩ | ⟨hr, rfl⟩ | ⟨hr, rfl⟩ :=
    memWrite_cases h
  · obtain ⟨h8, rfl⟩ | ⟨h8, hc, ⟨i, hi, rfl⟩ | ⟨hi, rfl⟩⟩ := cartWrite_cases hd
    · simp [storedLoc, locOf, hr, h8] at hl
    · simp [storedLoc, locOf, hr, hc, hi, show ¬a.toNat < 0x8000 by omega] at hl
      subst hl
      exact storeRead_storeWrite_same i v hok.ram
    · simp [storedLoc, locOf, hr, hc, hi, show ¬a.toNat < 0x8000 by omega] at hl
  · by_cases hA : a.toNat < 0xA000
    · cases hk : vramLocked s.config s.ppu with
      | true => simp [storedLoc, locOf, hr, hA, hk] at hl
      | false =>
        simp [storedLoc, locOf, hr, hA, hk] at hl
        subst hl
        simp only [readLoc, ppuWrite, hA, hk, if_true, Bool.false_eq_true, if_false]
        exact storeRead_storeWrite_same _ v hok.vram
    · by_cases hF : a.toNat < 0xFF00
      · cases hk : oamLocked s.config s.ppu with
        | true => simp [storedLoc, locOf, hr, hA, hF, hk] at hl
        | false =>
          simp [storedLoc, locOf, hr, hA, hF, hk] at hl
          subst hl
          simp only [readLoc, ppuWrite, hA, hF, hk, if_true, Bool.false_eq_true, if_false]
          exact storeRead_storeWrite_same _ v hok.oam
      · simp [storedLoc, locOf, hr, hA, hF] at hl
  · simp [storedLoc, locOf, hr] at hl
    subst hl
    exact storeRead_storeWrite_same _ v hok.flat
  iterate 4 (simp [storedLoc, locOf, hr] at hl)
  · have h8 : 0x8000 ≤ a.toNat := by have := of_route_none hr; omega
    simp [storedLoc, locOf, hr, h8] at hl
    subst hl
    exact storeRead_storeWrite_same _ v hok.flat

/-! ### Every memory operation keeps the canonical form -/

/-- A bus write keeps every store canonical and inside its region. -/
theorem memWrite_storesOk {s t : State} {a : Word} {v : Byte} (hok : StoresOk s) (h : memWrite s a v = .next t) :
    StoresOk t := by
  obtain ⟨d, hr, hd, rfl⟩ | ⟨hr, rfl⟩ | ⟨hr, rfl⟩ | ⟨hr, rfl⟩ | ⟨hr, rfl⟩ | ⟨hr, rfl⟩ | ⟨hr, rfl⟩ | ⟨hr, rfl⟩ :=
    memWrite_cases h
  · obtain ⟨h8, rfl⟩ | ⟨h8, hc, ⟨i, hi, rfl⟩ | ⟨hi, rfl⟩⟩ := cartWrite_cases hd
    · exact ⟨hok.flat, hok.vram, hok.oam, hok.rom, hok.ram, hok.pixels⟩
    · have hlt : i < s.cart.ramBytes := ramIndex_lt hi
      exact ⟨hok.flat, hok.vram, hok.oam, hok.rom, Memory.wf_write hok.ram (Nat.zero_le _) hlt, hok.pixels⟩
    · exact hok
  · have hreg := of_route_ppu hr
    have hscan := ppuWrite_scan s.config s.ppu a v
    refine ⟨hok.flat, ?_, ?_, hok.rom, hok.ram, ?_⟩
    · dsimp only [ppuWrite]
      split
      · split
        · exact hok.vram
        · exact Memory.wf_write hok.vram (by omega) (by omega)
      · split
        · split <;> exact hok.vram
        · rw [(ppuRegWrite_scan s.ppu a v).2.1]; exact hok.vram
    · dsimp only [ppuWrite]
      split
      · split <;> exact hok.oam
      · split
        · split
          · exact hok.oam
          · exact Memory.wf_write hok.oam (by omega) (by omega)
        · rw [(ppuRegWrite_scan s.ppu a v).2.2]; exact hok.oam
    · dsimp only
      rw [hscan.pixels]
      exact hok.pixels
  · have he := of_route_echo hr
    exact ⟨Memory.wf_write hok.flat (by unfold echoTarget; omega) (by unfold echoTarget; omega), hok.vram, hok.oam, hok.rom,
      hok.ram, hok.pixels⟩
  iterate 4 exact ⟨hok.flat, hok.vram, hok.oam, hok.rom, hok.ram, hok.pixels⟩
  · have hn := of_route_none hr
    exact ⟨Memory.wf_write hok.flat (by omega) (by omega), hok.vram, hok.oam, hok.rom, hok.ram, hok.pixels⟩

/-- The pixels the PPU resolves lie in the buffer. -/
theorem resolveColumn_pixels {p : Ppu} (hl : p.line < 144) (h : storeWfFrom 0 23040 p.pixels = true) :
    storeWfFrom 0 23040 (resolveColumn p).pixels = true := by
  unfold resolveColumn
  split
  · rename_i hc
    refine storeWrite_wf h (Nat.zero_le _) ?_
    unfold pixelIndex
    omega
  · exact h

/-- What the statements of a step change in the PPU besides the column leaves the pixels. -/
theorem enterMode_pixels (m : PpuMode) (src : Option StatSource) (p : Ppu) (f : BitVec 5) :
    (enterMode m src p f).1.pixels = p.pixels ∧ (enterMode m src p f).1.line = p.line := by
  unfold enterMode statSource
  split
  · exact ⟨rfl, rfl⟩
  · cases src with
    | none => exact ⟨rfl, rfl⟩
    | some s => dsimp only; split <;> exact ⟨rfl, rfl⟩

theorem ppuLineEvents_pixels {p : Ppu} (f : BitVec 5) (h : storeWfFrom 0 23040 p.pixels = true) :
    storeWfFrom 0 23040 (ppuLineEvents p f).1.pixels = true := by
  unfold ppuLineEvents
  split
  · rename_i hl
    have hs : (ppuEnterScan p f).1.pixels = p.pixels ∧ (ppuEnterScan p f).1.line = p.line := by
      unfold ppuEnterScan
      split
      · exact enterMode_pixels ..
      · split
        · exact enterMode_pixels .vramRead none p f
        · exact ⟨rfl, rfl⟩
    have hr := resolveColumn_pixels (p := (ppuEnterScan p f).1) (by omega) (by rw [hs.1]; exact h)
    dsimp only
    unfold ppuEnterHblank
    split
    · rw [(enterMode_pixels ..).1]; exact hr
    · exact hr
  · split
    · exact ((enterMode_pixels .vblank (some .m1) p f).1.symm ▸ h : storeWfFrom 0 23040
        (enterMode .vblank (some .m1) p f).1.pixels = true)
    · exact h

theorem ppuClock_pixels {n : Nat} {p : Ppu} (f : BitVec 5) (h : storeWfFrom 0 23040 p.pixels = true) :
    storeWfFrom 0 23040 (ppuClock n p f).1.pixels = true := by
  unfold ppuClock
  split
  · unfold ppuOnClock
    dsimp only
    have h1 : storeWfFrom 0 23040 (ppuLineStart (ppuTurnOn p)).pixels = true := by
      unfold ppuLineStart ppuTurnOn
      split <;> split <;> exact h
    have h2 := ppuLineEvents_pixels f h1
    generalize ppuLineEvents (ppuLineStart (ppuTurnOn p)) f = r at h2
    have h3 : storeWfFrom 0 23040 (ppuLine153 n r.1).pixels = true := by
      unfold ppuLine153; split <;> exact h2
    generalize ppuLine153 n r.1 = q at h3
    have h4 : storeWfFrom 0 23040 (ppuCoincidence q r.2).1.pixels = true := by
      unfold ppuCoincidence statSource
      dsimp only
      split
      · split <;> exact h3
      · exact h3
    unfold ppuAdvance
    split <;> exact h4
  · unfold ppuOffClock
    dsimp only
    split <;> split <;> exact h

theorem ppuUpdate_pixels {n k : Nat} {p : Ppu} (f : BitVec 5) (h : storeWfFrom 0 23040 p.pixels = true) :
    storeWfFrom 0 23040 (ppuUpdate n k p f).1.pixels = true := by
  induction k generalizing p f with
  | zero => exact h
  | succ k ih => exact ih _ (ppuClock_pixels f h)

/-- Time keeps every store canonical. -/
theorem tick_storesOk {s : State} (h : StoresOk s) : StoresOk (tick s) := by
  refine ⟨h.flat, ?_, ?_, h.rom, h.ram, ppuUpdate_pixels _ h.pixels⟩
  · rw [tick_vram]; exact h.vram
  · rw [tick_oam]; exact h.oam

theorem ticks_storesOk {s : State} (n : Nat) (h : StoresOk s) : StoresOk (ticks n s) := by
  induction n generalizing s with
  | zero => exact h
  | succ n ih => exact ih (tick_storesOk h)

theorem withCpu_storesOk {s : State} (c : Cpu) (h : StoresOk s) : StoresOk (withCpu s c) :=
  ⟨h.flat, h.vram, h.oam, h.rom, h.ram, h.pixels⟩

/-- Placing a byte for a fetch keeps every store canonical, at an address the fetch reads back. -/
theorem placeByte_storesOk {s : State} {a : Word} {v : Byte} (hok : StoresOk s) (hp : placeable s a = true) :
    StoresOk (placeByte s a v) := by
  unfold placeByte
  unfold placeable at hp
  unfold locOf at *
  cases hr : route a with
  | none =>
    have hn := of_route_none hr
    simp only [show 32768 ≤ a.toNat by omega, if_true]
    exact ⟨Memory.wf_write hok.flat (by omega) (by omega), hok.vram, hok.oam, hok.rom, hok.ram, hok.pixels⟩
  | some c =>
    cases c <;> simp only [hr] at hp ⊢
    case cartridge =>
      by_cases h8 : a.toNat < 0x8000
      · simp only [h8, if_true, decide_eq_true_eq] at hp ⊢
        exact ⟨hok.flat, hok.vram, hok.oam, Memory.wf_write hok.rom (Nat.zero_le _) hp, hok.ram, hok.pixels⟩
      · simp only [h8, if_false]
        cases hc : clockSelected s.cart with
        | true => exact hok
        | false =>
          simp only [Bool.false_eq_true, if_false]
          cases hi : ramIndex s.cart a.toNat with
          | none => exact hok
          | some i =>
            exact ⟨hok.flat, hok.vram, hok.oam, hok.rom, Memory.wf_write hok.ram (Nat.zero_le _) (ramIndex_lt hi),
              hok.pixels⟩
    case ppu =>
      have hreg := of_route_ppu hr
      by_cases hA : a.toNat < 0xA000
      · simp only [hA, if_true]
        exact ⟨hok.flat, Memory.wf_write hok.vram (by omega) (by omega), hok.oam, hok.rom, hok.ram, hok.pixels⟩
      · by_cases hF : a.toNat < 0xFF00
        · simp only [hA, hF, if_true, if_false]
          exact ⟨hok.flat, hok.vram, Memory.wf_write hok.oam (by omega) (by omega), hok.rom, hok.ram, hok.pixels⟩
        · simp only [hA, hF, if_false]
          exact hok
    case echo =>
      have he := of_route_echo hr
      exact ⟨Memory.wf_write hok.flat (by unfold echoTarget; omega) (by unfold echoTarget; omega), hok.vram, hok.oam,
        hok.rom, hok.ram, hok.pixels⟩
    all_goals exact hok

/-! ### Bus cycles -/

/-- A read cycle gives what the bus holds after the tick. -/
theorem rd_next {s : State} {a : Word} {v : Byte} (h : memRead (tick s) a = .next v) : rd a s = .next (v, tick s) := by
  unfold rd; rw [h]; rfl

theorem rd_of_accessible {s : State} {a : Word} (h : accessible s a = true) :
    ∃ v, memRead (tick s) a = .next v ∧ rd a s = .next (v, tick s) := by
  obtain ⟨v, hv⟩ := memRead_of_accessible (s := tick s) (a := a) (by simpa using h)
  exact ⟨v, hv, rd_next hv⟩

/-- A read cycle answers next only so. -/
theorem rd_inv {s t : State} {a : Word} {v : Byte} (h : rd a s = .next (v, t)) :
    memRead (tick s) a = .next v ∧ t = tick s := by
  unfold rd at h
  rw [andThen_eq_next] at h
  obtain ⟨x, hx, h⟩ := h
  cases h
  exact ⟨hx, rfl⟩

/-- A fetched byte is the byte at PC; PC moves past it. -/
theorem fetch8_next {s : State} {v : Byte} (h : memRead (tick s) s.cpu.pc = .next v) :
    fetch8 s = .next (v, setPc (tick s) (s.cpu.pc + 1)) := by
  unfold fetch8; rw [rd_next h]; rfl

/-- A write leaves another address accessible unless it could switch a clock register into the RAM window. -/
theorem memWrite_accessible {s t : State} {a b : Word} {v : Byte} (h : memWrite s a v = .next t)
    (hb : accessible s b = true) (hab : 0x8000 ≤ a.toNat ∨ b.toNat < 0xA000 ∨ 0xC000 ≤ b.toNat) :
    accessible t b = true := by
  rcases hab with ha | hab
  · have hm : t.cart.mapper = s.cart.mapper := by
      obtain ⟨d, hr, hd, rfl⟩ | ⟨hr, rfl⟩ | ⟨hr, rfl⟩ | ⟨hr, rfl⟩ | ⟨hr, rfl⟩ | ⟨hr, rfl⟩ | ⟨hr, rfl⟩ | ⟨hr, rfl⟩ :=
        memWrite_cases h
      · obtain ⟨h8, rfl⟩ | ⟨h8, hc, ⟨i, hi, rfl⟩ | ⟨hi, rfl⟩⟩ := cartWrite_cases hd
        · omega
        · rfl
        · rfl
      all_goals rfl
    have : clockSelected t.cart = clockSelected s.cart := by unfold clockSelected; rw [hm]
    unfold accessible at hb ⊢
    rw [this]; exact hb
  · unfold accessible
    have e : (decide (0xA000 ≤ b.toNat) && decide (b.toNat < 0xC000)) = false := by
      rw [Bool.and_eq_false_iff, decide_eq_false_iff_not, decide_eq_false_iff_not]
      omega
    rw [Bool.and_assoc, e, Bool.and_false]
    rfl

/-! ### The stack -/

/-- The address below `a`, as a number. -/
theorem toNat_sub_one (a : Word) : (a - 1).toNat = if a.toNat = 0 then 0xFFFF else a.toNat - 1 := by
  split <;> bv_omega

/-- A push of a word, `k` cycles after `s`: it completes where both bytes are accessible, and does what `Pushes` says. -/
theorem push16_pushes {s : State} (k : Nat) (w : Word) (h1 : accessible s (s.cpu.sp - 1) = true)
    (h2 : accessible s (s.cpu.sp - 2) = true) : ∃ t, push16 w (ticks k s) = .next t ∧ Pushes s k w t := by
  have e2 : s.cpu.sp - 1 - 1 = s.cpu.sp - 2 := by bv_omega
  obtain ⟨m, hm⟩ := memWrite_of_accessible (s := setSp (ticks (k + 1) s) (s.cpu.sp - 1)) (a := s.cpu.sp - 1) (hiByte w)
    (by simpa using h1)
  have fm := memWrite_frame hm
  have hacc : accessible m (s.cpu.sp - 2) = true := by
    refine memWrite_accessible hm (by simpa using h2) ?_
    have := toNat_sub_one (s.cpu.sp - 1)
    rw [e2] at this
    split at this <;> omega
  obtain ⟨t, ht⟩ := memWrite_of_accessible (s := setSp (tick m) (s.cpu.sp - 2)) (a := s.cpu.sp - 2) (loByte w)
    (by simpa using hacc)
  have ft := memWrite_frame ht
  refine ⟨t, ?_, m, hm, ht, ?_, ?_, ?_, ?_, ?_⟩
  · have e1 : pushByte (hiByte w) (ticks k s) = .next m := by
      unfold pushByte wr
      rw [ticks_cpu, tick_setSp, ← ticks_succ']
      exact hm
    unfold push16
    rw [e1, andThen_next]
    unfold pushByte wr
    rw [fm.cpu, tick_setSp]
    simp only [setSp_cpu, e2]
    exact ht
  · rw [ft.cpu]
    simp [fm.cpu]
  · rw [ft.clock]
    simp [fm.clock]
    omega
  · intro hok l hl
    refine memWrite_placed ?_ ht l hl
    exact withCpu_storesOk _ (tick_storesOk (memWrite_storesOk (withCpu_storesOk _ (ticks_storesOk _ hok)) hm))
  · intro hok l hl hne
    rw [memWrite_others ht l hne]
    have : readLoc m l = hiByte w :=
      memWrite_placed (withCpu_storesOk _ (ticks_storesOk _ hok)) hm l hl
    simpa [setSp_eq_withCpu] using this
  · intro l hl hne
    rw [memWrite_others ht l hne]
    have := memWrite_others hm l hl
    simpa [setSp_eq_withCpu] using this

/-- A pop of a word. -/
theorem pop16_pops {s : State} (h1 : accessible s s.cpu.sp = true) (h2 : accessible s (s.cpu.sp + 1) = true) :
    ∃ w, Pops s w ∧ pop16 s = .next (w, setSp (ticks 2 s) (s.cpu.sp + 2)) := by
  obtain ⟨l, hl, hrl⟩ := rd_of_accessible h1
  obtain ⟨h, hh, hrh⟩ := rd_of_accessible (s := setSp (tick s) (s.cpu.sp + 1)) (a := s.cpu.sp + 1) (by simpa using h2)
  have e2 : s.cpu.sp + 1 + 1 = s.cpu.sp + 2 := by bv_omega
  refine ⟨joinBytes h l, ⟨l, h, hl, hh, rfl⟩, ?_⟩
  have p1 : popByte s = .next (l, setSp (tick s) (s.cpu.sp + 1)) := by
    unfold popByte; rw [hrl]; rfl
  have p2 : popByte (setSp (tick s) (s.cpu.sp + 1)) = .next (h, setSp (ticks 2 s) (s.cpu.sp + 2)) := by
    unfold popByte
    rw [setSp_cpu]
    dsimp only
    rw [hrh, andThen_next]
    dsimp only
    rw [tick_setSp, setSp_cpu]
    dsimp only
    rw [e2]
    rfl
  unfold pop16
  rw [p1, andThen_next]
  dsimp only
  rw [p2]
  rfl

end Sys2Proof.Machine
end

