-- ==== Sys2Proof/Laws/PerInstr.lean ====
section
/-! SUPPORT. Per instruction: the length a decoder tells from an encoding's first byte (R155) is the encoding's length. -/

namespace Sys2Proof.Laws.EncodeLength

/-- An encoding has a first byte, and as many bytes as a decoder tells from it; the bare prefix is the one byte 0xCB (R385). -/
def Statement (i : Instr) : Prop :=
  i.wf = true → ∃ op rest, encode i = op :: rest ∧
    (i ≠ .prefixCb → rest.length + 1 = lengthOfOpcode op) ∧ (i = .prefixCb → op = 0xCB#8 ∧ rest = [])

theorem nop : Statement .nop :=
  fun _ => ⟨_, _, rfl, fun _ => rfl, nofun⟩

theorem ldDdNn (dd : Pair) (nn : Word) : Statement (.ldDdNn dd nn) := by
  cases dd <;> exact fun _ => ⟨_, _, rfl, fun _ => rfl, nofun⟩

theorem ldBcA : Statement .ldBcA :=
  fun _ => ⟨_, _, rfl, fun _ => rfl, nofun⟩

theorem ldDeA : Statement .ldDeA :=
  fun _ => ⟨_, _, rfl, fun _ => rfl, nofun⟩

theorem ldHliA : Statement .ldHliA :=
  fun _ => ⟨_, _, rfl, fun _ => rfl, nofun⟩

theorem ldHldA : Statement .ldHldA :=
  fun _ => ⟨_, _, rfl, fun _ => rfl, nofun⟩

theorem incDd (dd : Pair) : Statement (.incDd dd) := by
  cases dd <;> exact fun _ => ⟨_, _, rfl, fun _ => rfl, nofun⟩

theorem decDd (dd : Pair) : Statement (.decDd dd) := by
  cases dd <;> exact fun _ => ⟨_, _, rfl, fun _ => rfl, nofun⟩

theorem incR (r : Reg8) : Statement (.incR r) := by
  cases r <;> exact fun _ => ⟨_, _, rfl, fun _ => rfl, nofun⟩

theorem incMemHl : Statement .incMemHl :=
  fun _ => ⟨_, _, rfl, fun _ => rfl, nofun⟩

theorem decR (r : Reg8) : Statement (.decR r) := by
  cases r <;> exact fun _ => ⟨_, _, rfl, fun _ => rfl, nofun⟩

theorem decMemHl : Statement .decMemHl :=
  fun _ => ⟨_, _, rfl, fun _ => rfl, nofun⟩

theorem ldRN (r : Reg8) (n : Byte) : Statement (.ldRN r n) := by
  cases r <;> exact fun _ => ⟨_, _, rfl, fun _ => rfl, nofun⟩

theorem ldMemHlN (n : Byte) : Statement (.ldMemHlN n) :=
  fun _ => ⟨_, _, rfl, fun _ => rfl, nofun⟩

theorem rlca : Statement .rlca :=
  fun _ => ⟨_, _, rfl, fun _ => rfl, nofun⟩

theorem rrca : Statement .rrca :=
  fun _ => ⟨_, _, rfl, fun _ => rfl, nofun⟩

theorem rla : Statement .rla :=
  fun _ => ⟨_, _, rfl, fun _ => rfl, nofun⟩

theorem rra : Statement .rra :=
  fun _ => ⟨_, _, rfl, fun _ => rfl, nofun⟩

theorem ldNnSp (nn : Word) : Statement (.ldNnSp nn) :=
  fun _ => ⟨_, _, rfl, fun _ => rfl, nofun⟩

theorem addHlDd (dd : Pair) : Statement (.addHlDd dd) := by
  cases dd <;> exact fun _ => ⟨_, _, rfl, fun _ => rfl, nofun⟩

theorem ldABc : Statement .ldABc :=
  fun _ => ⟨_, _, rfl, fun _ => rfl, nofun⟩

theorem ldADe : Statement .ldADe :=
  fun _ => ⟨_, _, rfl, fun _ => rfl, nofun⟩

theorem ldAHli : Statement .ldAHli :=
  fun _ => ⟨_, _, rfl, fun _ => rfl, nofun⟩

theorem ldAHld : Statement .ldAHld :=
  fun _ => ⟨_, _, rfl, fun _ => rfl, nofun⟩

theorem stop : Statement .stop :=
  fun _ => ⟨_, _, rfl, fun _ => rfl, nofun⟩

theorem jrE (e : Byte) : Statement (.jrE e) :=
  fun _ => ⟨_, _, rfl, fun _ => rfl, nofun⟩

theorem jrCcE (cc : Cond) (e : Byte) : Statement (.jrCcE cc e) := by
  cases cc <;> exact fun _ => ⟨_, _, rfl, fun _ => rfl, nofun⟩

theorem daa : Statement .daa :=
  fun _ => ⟨_, _, rfl, fun _ => rfl, nofun⟩

theorem cpl : Statement .cpl :=
  fun _ => ⟨_, _, rfl, fun _ => rfl, nofun⟩

theorem scf : Statement .scf :=
  fun _ => ⟨_, _, rfl, fun _ => rfl, nofun⟩

theorem ccf : Statement .ccf :=
  fun _ => ⟨_, _, rfl, fun _ => rfl, nofun⟩

theorem ldRR (r r1 : Reg8) : Statement (.ldRR r r1) := by
  cases r <;> cases r1 <;> exact fun _ => ⟨_, _, rfl, fun _ => rfl, nofun⟩

theorem ldRMemHl (r : Reg8) : Statement (.ldRMemHl r) := by
  cases r <;> exact fun _ => ⟨_, _, rfl, fun _ => rfl, nofun⟩

theorem ldMemHlR (r : Reg8) : Statement (.ldMemHlR r) := by
  cases r <;> exact fun _ => ⟨_, _, rfl, fun _ => rfl, nofun⟩

theorem halt : Statement .halt :=
  fun _ => ⟨_, _, rfl, fun _ => rfl, nofun⟩

theorem addAR (r : Reg8) : Statement (.addAR r) := by
  cases r <;> exact fun _ => ⟨_, _, rfl, fun _ => rfl, nofun⟩

theorem addAMemHl : Statement .addAMemHl :=
  fun _ => ⟨_, _, rfl, fun _ => rfl, nofun⟩

theorem addAN (n : Byte) : Statement (.addAN n) :=
  fun _ => ⟨_, _, rfl, fun _ => rfl, nofun⟩

theorem adcAR (r : Reg8) : Statement (.adcAR r) := by
  cases r <;> exact fun _ => ⟨_, _, rfl, fun _ => rfl, nofun⟩

theorem adcAMemHl : Statement .adcAMemHl :=
  fun _ => ⟨_, _, rfl, fun _ => rfl, nofun⟩

theorem adcAN (n : Byte) : Statement (.adcAN n) :=
  fun _ => ⟨_, _, rfl, fun _ => rfl, nofun⟩

theorem subR (r : Reg8) : Statement (.subR r) := by
  cases r <;> exact fun _ => ⟨_, _, rfl, fun _ => rfl, nofun⟩

theorem subMemHl : Statement .subMemHl :=
  fun _ => ⟨_, _, rfl, fun _ => rfl, nofun⟩

theorem subN (n : Byte) : Statement (.subN n) :=
  fun _ => ⟨_, _, rfl, fun _ => rfl, nofun⟩

theorem sbcAR (r : Reg8) : Statement (.sbcAR r) := by
  cases r <;> exact fun _ => ⟨_, _, rfl, fun _ => rfl, nofun⟩

theorem sbcAMemHl : Statement .sbcAMemHl :=
  fun _ => ⟨_, _, rfl, fun _ => rfl, nofun⟩

theorem sbcAN (n : Byte) : Statement (.sbcAN n) :=
  fun _ => ⟨_, _, rfl, fun _ => rfl, nofun⟩

theorem andR (r : Reg8) : Statement (.andR r) := by
  cases r <;> exact fun _ => ⟨_, _, rfl, fun _ => rfl, nofun⟩

theorem andMemHl : Statement .andMemHl :=
  fun _ => ⟨_, _, rfl, fun _ => rfl, nofun⟩

theorem andN (n : Byte) : Statement (.andN n) :=
  fun _ => ⟨_, _, rfl, fun _ => rfl, nofun⟩

theorem xorR (r : Reg8) : Statement (.xorR r) := by
  cases r <;> exact fun _ => ⟨_, _, rfl, fun _ => rfl, nofun⟩

theorem xorMemHl : Statement .xorMemHl :=
  fun _ => ⟨_, _, rfl, fun _ => rfl, nofun⟩

theorem xorN (n : Byte) : Statement (.xorN n) :=
  fun _ => ⟨_, _, rfl, fun _ => rfl, nofun⟩

theorem orR (r : Reg8) : Statement (.orR r) := by
  cases r <;> exact fun _ => ⟨_, _, rfl, fun _ => rfl, nofun⟩

theorem orMemHl : Statement .orMemHl :=
  fun _ => ⟨_, _, rfl, fun _ => rfl, nofun⟩

theorem orN (n : Byte) : Statement (.orN n) :=
  fun _ => ⟨_, _, rfl, fun _ => rfl, nofun⟩

theorem cpR (r : Reg8) : Statement (.cpR r) := by
  cases r <;> exact fun _ => ⟨_, _, rfl, fun _ => rfl, nofun⟩

theorem cpMemHl : Statement .cpMemHl :=
  fun _ => ⟨_, _, rfl, fun _ => rfl, nofun⟩

theorem cpN (n : Byte) : Statement (.cpN n) :=
  fun _ => ⟨_, _, rfl, fun _ => rfl, nofun⟩

theorem retCc (cc : Cond) : Statement (.retCc cc) := by
  cases cc <;> exact fun _ => ⟨_, _, rfl, fun _ => rfl, nofun⟩

theorem popQq (qq : StackPair) : Statement (.popQq qq) := by
  cases qq <;> exact fun _ => ⟨_, _, rfl, fun _ => rfl, nofun⟩

theorem jpCcNn (cc : Cond) (nn : Word) : Statement (.jpCcNn cc nn) := by
  cases cc <;> exact fun _ => ⟨_, _, rfl, fun _ => rfl, nofun⟩

theorem jpNn (nn : Word) : Statement (.jpNn nn) :=
  fun _ => ⟨_, _, rfl, fun _ => rfl, nofun⟩

theorem callCcNn (cc : Cond) (nn : Word) : Statement (.callCcNn cc nn) := by
  cases cc <;> exact fun _ => ⟨_, _, rfl, fun _ => rfl, nofun⟩

theorem pushQq (qq : StackPair) : Statement (.pushQq qq) := by
  cases qq <;> exact fun _ => ⟨_, _, rfl, fun _ => rfl, nofun⟩

theorem rstT (t : Byte) : Statement (.rstT t) := by
  intro h
  obtain ⟨-, h2⟩ := of_decide_eq_true h
  have h3 : t.toNat / 8 < 8 := by omega
  refine ⟨opByte 3 (t.toNat / 8) 7, [], rfl, fun _ => ?_, nofun⟩
  generalize t.toNat / 8 = k at h3
  interval_cases k <;> rfl

theorem ret : Statement .ret :=
  fun _ => ⟨_, _, rfl, fun _ => rfl, nofun⟩

theorem prefixCb : Statement .prefixCb :=
  fun _ => ⟨_, _, rfl, fun h => absurd rfl h, fun _ => ⟨rfl, rfl⟩⟩

theorem callNn (nn : Word) : Statement (.callNn nn) :=
  fun _ => ⟨_, _, rfl, fun _ => rfl, nofun⟩

theorem reti : Statement .reti :=
  fun _ => ⟨_, _, rfl, fun _ => rfl, nofun⟩

theorem ldhNA (n : Byte) : Statement (.ldhNA n) :=
  fun _ => ⟨_, _, rfl, fun _ => rfl, nofun⟩

theorem ldCA : Statement .ldCA :=
  fun _ => ⟨_, _, rfl, fun _ => rfl, nofun⟩

theorem addSpE (e : Byte) : Statement (.addSpE e) :=
  fun _ => ⟨_, _, rfl, fun _ => rfl, nofun⟩

theorem jpHl : Statement .jpHl :=
  fun _ => ⟨_, _, rfl, fun _ => rfl, nofun⟩

theorem ldNnA (nn : Word) : Statement (.ldNnA nn) :=
  fun _ => ⟨_, _, rfl, fun _ => rfl, nofun⟩

theorem ldhAN (n : Byte) : Statement (.ldhAN n) :=
  fun _ => ⟨_, _, rfl, fun _ => rfl, nofun⟩

theorem ldAC : Statement .ldAC :=
  fun _ => ⟨_, _, rfl, fun _ => rfl, nofun⟩

theorem di : Statement .di :=
  fun _ => ⟨_, _, rfl, fun _ => rfl, nofun⟩

theorem ldHlSpE (e : Byte) : Statement (.ldHlSpE e) :=
  fun _ => ⟨_, _, rfl, fun _ => rfl, nofun⟩

theorem ldSpHl : Statement .ldSpHl :=
  fun _ => ⟨_, _, rfl, fun _ => rfl, nofun⟩

theorem ldANn (nn : Word) : Statement (.ldANn nn) :=
  fun _ => ⟨_, _, rfl, fun _ => rfl, nofun⟩

theorem ei : Statement .ei :=
  fun _ => ⟨_, _, rfl, fun _ => rfl, nofun⟩

theorem illegalD3 : Statement .illegalD3 :=
  fun _ => ⟨_, _, rfl, fun _ => rfl, nofun⟩

theorem illegalDB : Statement .illegalDB :=
  fun _ => ⟨_, _, rfl, fun _ => rfl, nofun⟩

theorem illegalDD : Statement .illegalDD :=
  fun _ => ⟨_, _, rfl, fun _ => rfl, nofun⟩

theorem illegalE3 : Statement .illegalE3 :=
  fun _ => ⟨_, _, rfl, fun _ => rfl, nofun⟩

theorem illegalE4 : Statement .illegalE4 :=
  fun _ => ⟨_, _, rfl, fun _ => rfl, nofun⟩

theorem illegalEB : Statement .illegalEB :=
  fun _ => ⟨_, _, rfl, fun _ => rfl, nofun⟩

theorem illegalEC : Statement .illegalEC :=
  fun _ => ⟨_, _, rfl, fun _ => rfl, nofun⟩

theorem illegalED : Statement .illegalED :=
  fun _ => ⟨_, _, rfl, fun _ => rfl, nofun⟩

theorem illegalF4 : Statement .illegalF4 :=
  fun _ => ⟨_, _, rfl, fun _ => rfl, nofun⟩

theorem illegalFC : Statement .illegalFC :=
  fun _ => ⟨_, _, rfl, fun _ => rfl, nofun⟩

theorem illegalFD : Statement .illegalFD :=
  fun _ => ⟨_, _, rfl, fun _ => rfl, nofun⟩

theorem rlcR (r : Reg8) : Statement (.rlcR r) :=
  fun _ => ⟨_, _, rfl, fun _ => rfl, nofun⟩

theorem rlcMemHl : Statement .rlcMemHl :=
  fun _ => ⟨_, _, rfl, fun _ => rfl, nofun⟩

theorem rrcR (r : Reg8) : Statement (.rrcR r) :=
  fun _ => ⟨_, _, rfl, fun _ => rfl, nofun⟩

theorem rrcMemHl : Statement .rrcMemHl :=
  fun _ => ⟨_, _, rfl, fun _ => rfl, nofun⟩

theorem rlR (r : Reg8) : Statement (.rlR r) :=
  fun _ => ⟨_, _, rfl, fun _ => rfl, nofun⟩

theorem rlMemHl : Statement .rlMemHl :=
  fun _ => ⟨_, _, rfl, fun _ => rfl, nofun⟩

theorem rrR (r : Reg8) : Statement (.rrR r) :=
  fun _ => ⟨_, _, rfl, fun _ => rfl, nofun⟩

theorem rrMemHl : Statement .rrMemHl :=
  fun _ => ⟨_, _, rfl, fun _ => rfl, nofun⟩

theorem slaR (r : Reg8) : Statement (.slaR r) :=
  fun _ => ⟨_, _, rfl, fun _ => rfl, nofun⟩

theorem slaMemHl : Statement .slaMemHl :=
  fun _ => ⟨_, _, rfl, fun _ => rfl, nofun⟩

theorem sraR (r : Reg8) : Statement (.sraR r) :=
  fun _ => ⟨_, _, rfl, fun _ => rfl, nofun⟩

theorem sraMemHl : Statement .sraMemHl :=
  fun _ => ⟨_, _, rfl, fun _ => rfl, nofun⟩

theorem swapR (r : Reg8) : Statement (.swapR r) :=
  fun _ => ⟨_, _, rfl, fun _ => rfl, nofun⟩

theorem swapMemHl : Statement .swapMemHl :=
  fun _ => ⟨_, _, rfl, fun _ => rfl, nofun⟩

theorem srlR (r : Reg8) : Statement (.srlR r) :=
  fun _ => ⟨_, _, rfl, fun _ => rfl, nofun⟩

theorem srlMemHl : Statement .srlMemHl :=
  fun _ => ⟨_, _, rfl, fun _ => rfl, nofun⟩

theorem bitBR (b : Nat) (r : Reg8) : Statement (.bitBR b r) :=
  fun _ => ⟨_, _, rfl, fun _ => rfl, nofun⟩

theorem bitBMemHl (b : Nat) : Statement (.bitBMemHl b) :=
  fun _ => ⟨_, _, rfl, fun _ => rfl, nofun⟩

theorem resBR (b : Nat) (r : Reg8) : Statement (.resBR b r) :=
  fun _ => ⟨_, _, rfl, fun _ => rfl, nofun⟩

theorem resBMemHl (b : Nat) : Statement (.resBMemHl b) :=
  fun _ => ⟨_, _, rfl, fun _ => rfl, nofun⟩

theorem setBR (b : Nat) (r : Reg8) : Statement (.setBR b r) :=
  fun _ => ⟨_, _, rfl, fun _ => rfl, nofun⟩

theorem setBMemHl (b : Nat) : Statement (.setBMemHl b) :=
  fun _ => ⟨_, _, rfl, fun _ => rfl, nofun⟩

end Sys2Proof.Laws.EncodeLength
end

