-- ==== Sys2Proof/Laws/Scan.lean ====
section
/-! SUPPORT. A PPU clock keeps the scan at a legal point (`ScanOk`). -/

namespace Sys2Proof.Machine

/-- `EnterMode` sets the mode and moves nothing else of the scan. -/
theorem enterMode_scan (m : PpuMode) (src : Option StatSource) (p : Ppu) (f : BitVec 5) :
    (enterMode m src p f).1.mode = m ∧ (enterMode m src p f).1.line = p.line ∧
    (enterMode m src p f).1.lineClock = p.lineClock ∧ (enterMode m src p f).1.ly = p.ly ∧
    (enterMode m src p f).1.mode3Scx = p.mode3Scx ∧ (enterMode m src p f).1.lcdWasOn = p.lcdWasOn ∧
    (enterMode m src p f).1.offClock = p.offClock ∧ (enterMode m src p f).1.coincidence = p.coincidence ∧
    (enterMode m src p f).1.endOfFrame = p.endOfFrame  ∧ (enterMode m src p f).1.pixels = p.pixels := by
  unfold enterMode statSource
  split
  · rename_i h; exact ⟨h, rfl, rfl, rfl, rfl, rfl, rfl, rfl, rfl, rfl⟩
  · cases src with
    | none => exact ⟨rfl, rfl, rfl, rfl, rfl, rfl, rfl, rfl, rfl, rfl⟩
    | some s => dsimp only; split <;> exact ⟨rfl, rfl, rfl, rfl, rfl, rfl, rfl, rfl, rfl, rfl⟩

/-- Resolving a column moves nothing of the scan. -/
theorem resolveColumn_scan (p : Ppu) : (resolveColumn p).mode = p.mode ∧ (resolveColumn p).line = p.line ∧
    (resolveColumn p).lineClock = p.lineClock ∧ (resolveColumn p).ly = p.ly ∧
    (resolveColumn p).mode3Scx = p.mode3Scx ∧ (resolveColumn p).lcdWasOn = p.lcdWasOn ∧
    (resolveColumn p).offClock = p.offClock ∧ (resolveColumn p).coincidence = p.coincidence ∧
    (resolveColumn p).endOfFrame = p.endOfFrame := by
  unfold resolveColumn; split <;> exact ⟨rfl, rfl, rfl, rfl, rfl, rfl, rfl, rfl, rfl⟩

/-- `q` is at the point of the scan `p` is at. -/
structure SamePoint (p q : Ppu) : Prop where
  line : q.line = p.line
  lineClock : q.lineClock = p.lineClock
  ly : q.ly = p.ly
  on : q.lcdWasOn = p.lcdWasOn
  off : q.offClock = p.offClock

/-- The coincidence flag moves nothing of the scan. -/
theorem ppuCoincidence_scan (p : Ppu) (f : BitVec 5) : SamePoint p (ppuCoincidence p f).1 ∧
    (ppuCoincidence p f).1.mode = p.mode ∧ (ppuCoincidence p f).1.mode3Scx = p.mode3Scx ∧
    (ppuCoincidence p f).1.endOfFrame = p.endOfFrame := by
  unfold ppuCoincidence statSource
  dsimp only
  split
  · split <;> exact ⟨⟨rfl, rfl, rfl, rfl, rfl⟩, rfl, rfl, rfl⟩
  · exact ⟨⟨rfl, rfl, rfl, rfl, rfl⟩, rfl, rfl, rfl⟩

/-- The events of a line clock stay at its point of the scan. -/
theorem ppuLineEvents_point (p : Ppu) (f : BitVec 5) : SamePoint p (ppuLineEvents p f).1 := by
  unfold ppuLineEvents
  split
  · dsimp only
    have h1 : SamePoint p (ppuEnterScan p f).1 := by
      unfold ppuEnterScan
      split
      · obtain ⟨-, h⟩ := enterMode_scan .oamRead (some .m2) p f; exact ⟨h.1, h.2.1, h.2.2.1, h.2.2.2.2.1,
          h.2.2.2.2.2.1⟩
      · split
        · obtain ⟨-, h⟩ := enterMode_scan .vramRead none p f; exact ⟨h.1, h.2.1, h.2.2.1, h.2.2.2.2.1, h.2.2.2.2.2.1⟩
        · exact ⟨rfl, rfl, rfl, rfl, rfl⟩
    generalize ppuEnterScan p f = r at h1
    have h2 := resolveColumn_scan r.1
    have h3 : SamePoint (resolveColumn r.1) (ppuEnterHblank (resolveColumn r.1) r.2).1 := by
      unfold ppuEnterHblank
      split
      · obtain ⟨-, h⟩ := enterMode_scan .hblank (some .m0) (resolveColumn r.1) r.2; exact ⟨h.1, h.2.1, h.2.2.1,
          h.2.2.2.2.1, h.2.2.2.2.2.1⟩
      · exact ⟨rfl, rfl, rfl, rfl, rfl⟩
    obtain ⟨a1,a2,a3,a4,a5⟩ := h1
    obtain ⟨b1,b2,b3,b4,b5⟩ := h3
    obtain ⟨-, c1, c2, c3, -, c4, c5, -⟩ := h2
    exact ⟨by rw [b1, c1, a1], by rw [b2, c2, a2], by rw [b3, c3, a3], by rw [b4, c4, a4], by rw [b5, c5, a5]⟩
  · split
    · obtain ⟨-, h⟩ := enterMode_scan .vblank (some .m1) p f; exact ⟨h.1, h.2.1, h.2.2.1, h.2.2.2.2.1, h.2.2.2.2.2.1⟩
    · exact ⟨rfl, rfl, rfl, rfl, rfl⟩

/-- The mode after the events of a line clock is the one the table of R461 gives that clock. -/
theorem ppuLineEvents_mode (p : Ppu) (f : BitVec 5) (h1 : p.line < 154) (h2 : p.lineClock < 456) (hm :
    p.mode = scanMode p.line p.lineClock p.mode3Scx.toNat ∨ p.line = 0 ∧ p.lineClock = 0 ∧ p.mode = .oamRead) :
   (ppuLineEvents p f).1.mode = (if 144 ≤ p.line then .vblank else if p.lineClock < 80 then .oamRead else if p.lineClock < 252 + (ppuLineEvents p f).1.mode3Scx.toNat then .vramRead else .hblank) := by
  have hs : p.mode3Scx.toNat < 8 := p.mode3Scx.isLt
  unfold ppuLineEvents
  split
  · rename_i hl
    dsimp only
    rw [if_neg (by omega)]
    unfold ppuEnterScan
    by_cases h0 : p.lineClock = 0
    · rw [if_pos h0]
      obtain ⟨e1, e2, e3, e4, e5, -⟩ := enterMode_scan .oamRead (some .m2) p f
      generalize enterMode .oamRead (some .m2) p f = r at *
      obtain ⟨d1, d2, d3, d4, d5, -⟩ := resolveColumn_scan r.1
      have hs' : r.1.mode3Scx.toNat < 8 := r.1.mode3Scx.isLt
      unfold ppuEnterHblank
      rw [if_neg (by rw [d3, e3, d5]; omega)]
      rw [d1, e1, if_pos (by omega)]
    · rw [if_neg h0]
      have hm' : p.mode = scanMode p.line p.lineClock p.mode3Scx.toNat := by rcases hm with h | h; exact h; omega
      unfold scanMode at hm'
      rw [if_neg h0, if_neg (by omega)] at hm'
      by_cases h80 : p.lineClock = 80
      · rw [if_pos h80]
        dsimp only
        obtain ⟨e1, e2, e3, e4, e5, -⟩ := enterMode_scan .vramRead none p f
        generalize enterMode .vramRead none p f = r at *
        have hs' : (BitVec.extractLsb' 0 3 r.1.scx).toNat < 8 := BitVec.isLt _
        have hq : ∃ w : Ppu, { r.1 with mode3Scx := r.1.scx.extractLsb' 0 3 } = w ∧ w.mode = .vramRead ∧
            w.lineClock = 80 ∧ w.mode3Scx.toNat < 8 := ⟨_, rfl, e1, e3.trans h80, hs'⟩
        obtain ⟨w, hw, w1, w2, w3⟩ := hq
        simp only [hw]
        obtain ⟨d1, d2, d3, d4, d5, -⟩ := resolveColumn_scan w
        unfold ppuEnterHblank
        rw [if_neg (by rw [d3, w2, d5]; omega)]
        dsimp only
        rw [d1, w1, d5, if_neg (by omega), if_pos (by omega)]
      · rw [if_neg h80]
        dsimp only
        obtain ⟨d1, d2, d3, d4, d5, -⟩ := resolveColumn_scan p
        unfold ppuEnterHblank
        by_cases hh : p.lineClock = 252 + p.mode3Scx.toNat
        · rw [if_pos (by rw [d3, d5]; exact hh)]
          obtain ⟨e1, e2, e3, e4, e5, -⟩ := enterMode_scan .hblank (some .m0) (resolveColumn p) f
          rw [e1, e5, d5, if_neg (by omega), if_neg (by omega)]
        · rw [if_neg (by rw [d3, d5]; exact hh)]
          dsimp only
          rw [d1, d5, hm']
          split_ifs <;> first | rfl | (exfalso; omega)
  · rename_i hl
    rw [if_pos (show 144 ≤ p.line by omega)]
    split
    · exact (enterMode_scan .vblank (some .m1) p f).1
    · dsimp only
      have hm' : p.mode = scanMode p.line p.lineClock p.mode3Scx.toNat := by rcases hm with h | h; exact h; omega
      rw [hm']; unfold scanMode
      split_ifs <;> first | rfl | (exfalso; omega)

/-- A PPU clock keeps the scan at a legal point. -/
theorem ppuClock_scanOk (n : Nat) (p : Ppu) (f : BitVec 5) (h : ScanOk n p) : ScanOk n (ppuClock n p f).1 := by
  unfold ppuClock
  split
  · unfold ppuOnClock
    dsimp only
    have h0 : ∃ q, ppuLineStart (ppuTurnOn p) = q ∧ q.line < 154 ∧ q.lineClock < 456 ∧ q.offClock < 70224 ∧
        q.lcdWasOn = true ∧ (q.ly = if q.line = 153 ∧ n < q.lineClock then 0 else BitVec.ofNat 8 q.line) ∧
        (q.mode = scanMode q.line q.lineClock q.mode3Scx.toNat ∨ q.line = 0 ∧ q.lineClock = 0 ∧
        q.mode = .oamRead) := by
      refine ⟨_, rfl, ?_⟩
      unfold ppuTurnOn
      by_cases hon : p.lcdWasOn = true
      · rw [if_pos hon]
        unfold ppuLineStart
        split <;> exact ⟨h.line, h.lineClock, h.offClock, hon, h.ly hon, .inl (h.mode hon)⟩
      · rw [if_neg hon]
        unfold ppuLineStart
        rw [if_pos rfl]
        exact ⟨by show 0 < 154; decide, by show 0 < 456; decide, h.offClock, rfl, by simp, .inr ⟨rfl, rfl, rfl⟩⟩
    obtain ⟨q, hq, h1, h2, h3, h4, h5, h6⟩ := h0
    rw [hq]
    have hm := ppuLineEvents_mode q f h1 h2 h6
    obtain ⟨s1, s2, s3, s4, s5⟩ := ppuLineEvents_point q f
    generalize ppuLineEvents q f = r at *
    have hl : ∃ u, ppuLine153 n r.1 = u ∧ u.line = q.line ∧ u.lineClock = q.lineClock ∧ u.lcdWasOn = true ∧
        u.offClock = q.offClock ∧ u.mode = r.1.mode ∧ u.mode3Scx = r.1.mode3Scx ∧ u.ly = if q.line = 153 ∧
        n ≤ q.lineClock then 0 else BitVec.ofNat 8 q.line := by
      refine ⟨_, rfl, ?_⟩
      unfold ppuLine153
      by_cases hc : r.1.line = 153 ∧ r.1.lineClock = n
      · rw [if_pos hc]
        exact ⟨s1, s2, s4.trans h4, s5, rfl, rfl, by rw [if_pos ⟨by omega, by omega⟩]⟩
      · rw [if_neg hc]
        refine ⟨s1, s2, s4.trans h4, s5, rfl, rfl, ?_⟩
        rw [s3, h5]
        by_cases hx : q.line = 153 ∧ n < q.lineClock
        · rw [if_pos hx, if_pos ⟨hx.1, by omega⟩]
        · rw [if_neg hx, if_neg (by omega)]
    obtain ⟨u, hu, u1, u2, u3, u4, u5, u6, u7⟩ := hl
    rw [hu]
    obtain ⟨⟨c1, c2, c3, c4, c5⟩, c6, c7, -⟩ := ppuCoincidence_scan u r.2
    generalize ppuCoincidence u r.2 = c at *
    have hsv : c.1.mode3Scx.toNat < 8 := c.1.mode3Scx.isLt
    unfold ppuAdvance
    by_cases hend : c.1.lineClock + 1 = clocksPerLine
    · rw [if_pos hend]
      unfold clocksPerLine at hend
      have hlc : q.lineClock = 455 := by rw [c2, u2] at hend; omega
      refine ⟨?_, ?_, ?_, ?_, ?_, ?_⟩
      · dsimp only [linesPerFrame]; omega
      · dsimp only; omega
      · dsimp only; rw [c5, u4]; exact h3
      · intro hh; dsimp only at hh; rw [c4, u3] at hh; cases hh
      · intro _; dsimp only; rw [if_neg (by omega)]
      · intro _; dsimp only
        rw [c6, u5, hm]
        rw [c1, u1]
        have hb : r.1.mode3Scx.toNat < 8 := r.1.mode3Scx.isLt
        unfold scanMode linesPerFrame
        split_ifs <;> first | rfl | (exfalso; omega)
    · rw [if_neg hend]
      unfold clocksPerLine at hend
      refine ⟨?_, ?_, ?_, ?_, ?_, ?_⟩
      · dsimp only; omega
      · dsimp only; omega
      · dsimp only; omega
      · intro hh; dsimp only at hh; rw [c4, u3] at hh; cases hh
      · intro _; dsimp only; rw [c3, u7, c1, c2, u1, u2]
        by_cases hx : q.line = 153 ∧ n ≤ q.lineClock
        · rw [if_pos hx, if_pos (by omega)]
        · rw [if_neg hx, if_neg (by omega)]
      · intro _; dsimp only
        rw [c6, u5, hm, c1, c2, u1, u2]
        unfold scanMode
        rw [c7, u6]
        split_ifs <;> first | rfl | (exfalso; omega)
  · unfold ppuOffClock clocksPerFrame
    have h0 : ∃ q, (if p.lcdWasOn then
      { p with line := 0, lineClock := 0, ly := 0, mode := .hblank, offClock := 0, lcdWasOn :=
          false } else p) = q ∧ q.lcdWasOn = false ∧ q.line = 0 ∧ q.lineClock = 0 ∧ q.ly = 0 ∧ q.mode = .hblank ∧
          q.offClock < 70224 := by
      refine ⟨_, rfl, ?_⟩
      by_cases hon : p.lcdWasOn = true
      · rw [if_pos hon]; exact ⟨rfl, rfl, rfl, rfl, rfl, by show 0 < 70224; decide⟩
      · rw [if_neg hon]
        rw [Bool.not_eq_true] at hon
        obtain ⟨a, b, c, d⟩ := h.off hon
        exact ⟨hon, a, b, c, d, h.offClock⟩
    obtain ⟨q, hq, q1, q2, q3, q4, q5, q6⟩ := h0
    dsimp only
    rw [hq]
    split
    · refine ⟨?_, ?_, ?_, ?_, ?_, ?_⟩
      · dsimp only; omega
      · dsimp only; omega
      · dsimp only; omega
      · intro _; exact ⟨q2, q3, q4, q5⟩
      · intro hh; dsimp only at hh; rw [q1] at hh; cases hh
      · intro hh; dsimp only at hh; rw [q1] at hh; cases hh
    · refine ⟨?_, ?_, ?_, ?_, ?_, ?_⟩
      · dsimp only; omega
      · dsimp only; omega
      · dsimp only; omega
      · intro _; exact ⟨q2, q3, q4, q5⟩
      · intro hh; dsimp only at hh; rw [q1] at hh; cases hh
      · intro hh; dsimp only at hh; rw [q1] at hh; cases hh

/-- So do `k` clocks. -/
theorem ppuUpdate_scanOk (n k : Nat) (p : Ppu) (f : BitVec 5) (h : ScanOk n p) : ScanOk n (ppuUpdate n k p f).1 := by
  induction k generalizing p f with
  | zero => exact h
  | succ k ih => exact ih _ _ (ppuClock_scanOk n p f h)

/-- So does a machine cycle. -/
theorem tick_scanOk (s : State) (h : ScanOk s.config.line153Ly0At s.ppu) :
    ScanOk (tick s).config.line153Ly0At (tick s).ppu := ppuUpdate_scanOk _ _ _ _ h

end Sys2Proof.Machine
end

