-- ==== Sys2Proof/Laws/Timer.lean ====
section
/-! SUPPORT. The timer's operations as equations over the fields they write (R440 to R443). -/

namespace Sys2Proof.Machine

/-- The edge check counts on a falling edge, and an overflow of TIMA leaves one pending. -/
theorem edgeCheck_eq (t : Timer) : edgeCheck t =
    { t with
      tima := if t.edgeMemo && !timerSignal t then t.tima + 1 else t.tima
      edgeMemo := timerSignal t
      pendingOverflow := t.pendingOverflow || (t.edgeMemo && !timerSignal t && decide (t.tima = 0xFF#8)) } := by
  obtain ⟨d, ti, tm, ta, em, po⟩ := t
  unfold edgeCheck incrementTima
  generalize timerSignal _ = sg
  cases em <;> cases sg <;> simp
  split <;> simp_all

/-- The signal as a bit of the counter's number. -/
theorem timerSignal_eq (t : Timer) : timerSignal t =
    (decide (t.divCounter.toNat / 2 ^ timerBit t.tac % 2 = 1) && t.tac.getLsbD 2) := by
  unfold timerSignal
  rw [BitVec.getLsbD, Nat.testBit_eq_decide_div_mod_eq]

/-- One update: the reload, the advance, the edge check. -/
theorem timerUpdate_eq (t : Timer) : timerUpdate 4 t =
    (let before := if t.pendingOverflow then t.tma else t.tima
     let signal := timerSignal { t with divCounter := t.divCounter + 4 }
     { t with
       divCounter := t.divCounter + 4
       tima := if t.edgeMemo && !signal then before + 1 else before
       edgeMemo := signal
       pendingOverflow := t.edgeMemo && !signal && decide (before = 0xFF#8) }) := by
  unfold timerUpdate
  rw [edgeCheck_eq]
  unfold timerReload
  obtain ⟨d, ti, tm, ta, em, po⟩ := t
  cases po <;> simp [timerSignal]

/-- The signal after an advance of four, with no wrap to take care of. -/
theorem timerSignal_advanced (t : Timer) : timerSignal { t with divCounter := t.divCounter + 4 } =
    (decide ((t.divCounter.toNat + 4) / 2 ^ timerBit t.tac % 2 = 1) && t.tac.getLsbD 2) := by
  rw [timerSignal_eq]
  congr 1
  simp only [decide_eq_decide]
  have h : (t.divCounter + 4).toNat = (t.divCounter.toNat + 4) % 65536 := by simp
  have := t.divCounter.isLt
  rw [h]
  unfold timerBit
  split <;> omega

end Sys2Proof.Machine
end

