-- ==== Sys2Proof/Tests/Slice0.lean ====
section
/-! SUPPORT. The package's own tests: the well-formedness checks, decoding of words written out from the spec's encodings,
single steps on the vectors of 95_test_vectors.md, and for every statement with hypotheses a state and operands that
meet them. -/

open Sys2Proof Sys2Proof.Machine

namespace Sys2Proof.Tests

set_option maxRecDepth 20000

/-! ### Well-formedness -/

theorem test_wf_bit_8 : (Instr.bitBR 8 .b).wf = false ∧ (Instr.resBR 8 .b).wf = false ∧ (Instr.setBR 8 .b).wf = false ∧
    (Instr.bitBMemHl 8).wf = false ∧ (Instr.resBMemHl 8).wf = false ∧ (Instr.setBMemHl 8).wf = false := by decide

theorem test_wf_bit_7 : (Instr.bitBR 7 .b).wf = true ∧ (Instr.setBMemHl 7).wf = true := by decide

theorem test_wf_rst : (Instr.rstT 0x39#8).wf = false ∧ (Instr.rstT 0x40#8).wf = false ∧ (Instr.rstT 0x38#8).wf = true ∧
    (Instr.rstT 0x00#8).wf = true := by decide

/-! ### Decoding -/

/-- The bytes decode to the instruction. -/
def reads (bs : List Byte) (i : Instr) : Bool :=
  match decode bs with
  | .ok j => decide (j = i)
  | .error _ => false

theorem test_decode_loads :
    reads [0b00100001#8, 0x34#8, 0x12#8] (.ldDdNn .hl 0x1234#16) = true ∧
    reads [0b00000010#8] .ldBcA = true ∧
    reads [0b00010010#8] .ldDeA = true ∧
    reads [0b00100010#8] .ldHliA = true ∧
    reads [0b00110010#8] .ldHldA = true ∧
    reads [0b00010110#8, 0xA5#8] (.ldRN .d 0xA5#8) = true ∧
    reads [0b00110110#8, 0xA5#8] (.ldMemHlN 0xA5#8) = true ∧
    reads [0b00001000#8, 0x34#8, 0x12#8] (.ldNnSp 0x1234#16) = true ∧
    reads [0b00001010#8] .ldABc = true ∧
    reads [0b00011010#8] .ldADe = true ∧
    reads [0b00101010#8] .ldAHli = true ∧
    reads [0b00111010#8] .ldAHld = true ∧
    reads [0b01101101#8] (.ldRR .l .l) = true ∧
    reads [0b01001110#8] (.ldRMemHl .c) = true ∧
    reads [0b01110001#8] (.ldMemHlR .c) = true ∧
    reads [0b11100000#8, 0xA5#8] (.ldhNA 0xA5#8) = true ∧
    reads [0b11100010#8] .ldCA = true ∧
    reads [0b11101010#8, 0x34#8, 0x12#8] (.ldNnA 0x1234#16) = true ∧
    reads [0b11110000#8, 0xA5#8] (.ldhAN 0xA5#8) = true ∧
    reads [0b11110010#8] .ldAC = true ∧
    reads [0b11111000#8, 0xA5#8] (.ldHlSpE 0xA5#8) = true ∧
    reads [0b11111001#8] .ldSpHl = true ∧
    reads [0b11111010#8, 0x34#8, 0x12#8] (.ldANn 0x1234#16) = true := by decide

theorem test_decode_arith16 :
    reads [0b00110011#8] (.incDd .sp) = true ∧
    reads [0b00001011#8] (.decDd .bc) = true ∧
    reads [0b00011001#8] (.addHlDd .de) = true ∧
    reads [0b11101000#8, 0xA5#8] (.addSpE 0xA5#8) = true := by decide

theorem test_decode_incDec :
    reads [0b00011100#8] (.incR .e) = true ∧
    reads [0b00110100#8] .incMemHl = true ∧
    reads [0b00111101#8] (.decR .a) = true ∧
    reads [0b00110101#8] .decMemHl = true := by decide

theorem test_decode_add :
    reads [0b10000100#8] (.addAR .h) = true ∧
    reads [0b10000110#8] .addAMemHl = true ∧
    reads [0b11000110#8, 0xA5#8] (.addAN 0xA5#8) = true ∧
    reads [0b10001000#8] (.adcAR .b) = true ∧
    reads [0b10001110#8] .adcAMemHl = true ∧
    reads [0b11001110#8, 0xA5#8] (.adcAN 0xA5#8) = true := by decide

theorem test_decode_sub :
    reads [0b10010011#8] (.subR .e) = true ∧
    reads [0b10010110#8] .subMemHl = true ∧
    reads [0b11010110#8, 0xA5#8] (.subN 0xA5#8) = true ∧
    reads [0b10011111#8] (.sbcAR .a) = true ∧
    reads [0b10011110#8] .sbcAMemHl = true ∧
    reads [0b11011110#8, 0xA5#8] (.sbcAN 0xA5#8) = true ∧
    reads [0b10111100#8] (.cpR .h) = true ∧
    reads [0b10111110#8] .cpMemHl = true ∧
    reads [0b11111110#8, 0xA5#8] (.cpN 0xA5#8) = true := by decide

theorem test_decode_logic :
    reads [0b10100010#8] (.andR .d) = true ∧
    reads [0b10100110#8] .andMemHl = true ∧
    reads [0b11100110#8, 0xA5#8] (.andN 0xA5#8) = true ∧
    reads [0b10101101#8] (.xorR .l) = true ∧
    reads [0b10101110#8] .xorMemHl = true ∧
    reads [0b11101110#8, 0xA5#8] (.xorN 0xA5#8) = true ∧
    reads [0b10110001#8] (.orR .c) = true ∧
    reads [0b10110110#8] .orMemHl = true ∧
    reads [0b11110110#8, 0xA5#8] (.orN 0xA5#8) = true := by decide

theorem test_decode_rotateA :
    reads [0b00000111#8] .rlca = true ∧
    reads [0b00001111#8] .rrca = true ∧
    reads [0b00010111#8] .rla = true ∧
    reads [0b00011111#8] .rra = true := by decide

theorem test_decode_daa :
    reads [0b00100111#8] .daa = true ∧
    reads [0b00101111#8] .cpl = true ∧
    reads [0b00110111#8] .scf = true ∧
    reads [0b00111111#8] .ccf = true := by decide

theorem test_decode_jumps :
    reads [0b00011000#8, 0xA5#8] (.jrE 0xA5#8) = true ∧
    reads [0b00101000#8, 0xA5#8] (.jrCcE .z 0xA5#8) = true ∧
    reads [0b11011010#8, 0x34#8, 0x12#8] (.jpCcNn .c 0x1234#16) = true ∧
    reads [0b11000011#8, 0x34#8, 0x12#8] (.jpNn 0x1234#16) = true ∧
    reads [0b11101001#8] .jpHl = true := by decide

theorem test_decode_calls :
    reads [0b11010000#8] (.retCc .nc) = true ∧
    reads [0b11000100#8, 0x34#8, 0x12#8] (.callCcNn .nz 0x1234#16) = true ∧
    reads [0b11110111#8] (.rstT 0x30#8) = true ∧
    reads [0b11001001#8] .ret = true ∧
    reads [0b11001101#8, 0x34#8, 0x12#8] (.callNn 0x1234#16) = true ∧
    reads [0b11011001#8] .reti = true := by decide

theorem test_decode_stack :
    reads [0b11010001#8] (.popQq .de) = true ∧
    reads [0b11100101#8] (.pushQq .hl) = true := by decide

theorem test_decode_system :
    reads [0b00000000#8] .nop = true ∧
    reads [0b00010000#8, 0x00#8] .stop = true ∧
    reads [0b01110110#8] .halt = true ∧
    reads [0b11001011#8] .prefixCb = true ∧
    reads [0b11110011#8] .di = true ∧
    reads [0b11111011#8] .ei = true := by decide

theorem test_decode_illegal :
    reads [0b11010011#8] .illegalD3 = true ∧
    reads [0b11011011#8] .illegalDB = true ∧
    reads [0b11011101#8] .illegalDD = true ∧
    reads [0b11100011#8] .illegalE3 = true ∧
    reads [0b11100100#8] .illegalE4 = true ∧
    reads [0b11101011#8] .illegalEB = true ∧
    reads [0b11101100#8] .illegalEC = true ∧
    reads [0b11101101#8] .illegalED = true ∧
    reads [0b11110100#8] .illegalF4 = true ∧
    reads [0b11111100#8] .illegalFC = true ∧
    reads [0b11111101#8] .illegalFD = true := by decide

theorem test_decode_cbShift :
    reads [0b11001011#8, 0b00000000#8] (.rlcR .b) = true ∧
    reads [0b11001011#8, 0b00000110#8] .rlcMemHl = true ∧
    reads [0b11001011#8, 0b00001011#8] (.rrcR .e) = true ∧
    reads [0b11001011#8, 0b00001110#8] .rrcMemHl = true ∧
    reads [0b11001011#8, 0b00010111#8] (.rlR .a) = true ∧
    reads [0b11001011#8, 0b00010110#8] .rlMemHl = true ∧
    reads [0b11001011#8, 0b00011010#8] (.rrR .d) = true ∧
    reads [0b11001011#8, 0b00011110#8] .rrMemHl = true ∧
    reads [0b11001011#8, 0b00100101#8] (.slaR .l) = true ∧
    reads [0b11001011#8, 0b00100110#8] .slaMemHl = true ∧
    reads [0b11001011#8, 0b00101001#8] (.sraR .c) = true ∧
    reads [0b11001011#8, 0b00101110#8] .sraMemHl = true ∧
    reads [0b11001011#8, 0b00110100#8] (.swapR .h) = true ∧
    reads [0b11001011#8, 0b00110110#8] .swapMemHl = true ∧
    reads [0b11001011#8, 0b00111000#8] (.srlR .b) = true ∧
    reads [0b11001011#8, 0b00111110#8] .srlMemHl = true := by decide

theorem test_decode_cbBit :
    reads [0b11001011#8, 0b01110011#8] (.bitBR 6 .e) = true ∧
    reads [0b11001011#8, 0b01001110#8] (.bitBMemHl 1) = true ∧
    reads [0b11001011#8, 0b10100111#8] (.resBR 4 .a) = true ∧
    reads [0b11001011#8, 0b10111110#8] (.resBMemHl 7) = true ∧
    reads [0b11001011#8, 0b11010010#8] (.setBR 2 .d) = true ∧
    reads [0b11001011#8, 0b11101110#8] (.setBMemHl 5) = true := by decide

/-- An opcode without its operand bytes is no instruction (R155). -/
theorem test_decode_short : (match decode [0x01#8, 0x34#8] with | .ok _ => false | .error e => decide (e = .operandMissing 0x01#8)) = true ∧
    (match decode [] with | .ok _ => false | .error e => decide (e = .noBytes)) = true := by decide

/-- Words numbered as the opcode table numbers them: operand bytes the row gives no bits are 0, a CB word is 0xCBxx. -/
theorem test_decode_table_words :
    decodeTableWord 8 0x31 = some (.ldDdNn .sp 0x0000#16) ∧ decodeTableWord 16 0xA53E = some (.ldRN .a 0xA5#8) ∧
    decodeTableWord 24 0x1234C3 = some (.jpNn 0x1234#16) ∧ decodeTableWord 16 0xCB7C = some (.bitBR 7 .h) ∧
    decodeTableWord 8 0xCB = some .prefixCb ∧ decodeTableWord 16 0x0010 = some .stop := by decide

/-! ### Single steps (95_test_vectors.md §3) -/

/-- The vectors' start: `code` at 0x0100, registers, and bytes of flat RAM; the first letter of the title at 0x0134. -/
def board (code : List Byte) (af bc de hl sp : Word) (ram : Memory) : State :=
  { State.reset with
    cpu := { Cpu.resetWith af bc de hl with sp := sp }
    flat := ram
    cart := { State.reset.cart with rom := storeOfList 0x100 code ++ [(0x134, 0x54#8)] } }

/-- The CPU part replaced. -/
def withIme (s : State) (ime : Bool) : State := { s with cpu := { s.cpu with ime := ime } }

/-- IF and IE replaced. -/
def withIntr (s : State) (ifReg ieReg : BitVec 5) : State := { s with intr := { ifReg := ifReg, ieReg := ieReg } }

/-- One step answers a next state, with the given cycles, of which the given test holds. -/
def after (s : State) (cycles : Nat) (p : State → Bool) : Bool :=
  match step s with
  | .next t => decide (t.clock = s.clock + 4 * cycles) && p t
  | .fault _ => false
  | .refused _ => false

/-- What the bus reads at an address. -/
def peek (s : State) (a : Word) : Option Byte :=
  match memRead s a with
  | .next v => some v
  | .fault _ => none
  | .refused _ => none

/-- V41.1, V41.2, V41.4, V41.5, V42.1, V42.2, V42.3, V42.4, V42.9, V42.10. -/
theorem test_add :
    after (board [0x80#8] 0x3A00#16 0xC600#16 0x0000#16 0x0000#16 0xFFFE#16 []) 1 (fun t => decide (regA t.cpu = 0x00 ∧ regF t.cpu = 0xB0)) = true ∧
    after (board [0x80#8] 0x0F00#16 0x0100#16 0x0000#16 0x0000#16 0xFFFE#16 []) 1 (fun t => decide (regA t.cpu = 0x10 ∧ regF t.cpu = 0x20)) = true ∧
    after (board [0x86#8] 0x1200#16 0x0000#16 0x0000#16 0xC000#16 0xFFFE#16 [(0xC000, 0x34#8)]) 2 (fun t => decide (regA t.cpu = 0x46 ∧ regF t.cpu = 0x00)) = true ∧
    after (board [0xC6#8, 0xFF#8] 0x0100#16 0x0000#16 0x0000#16 0x0000#16 0xFFFE#16 []) 2 (fun t => decide (regA t.cpu = 0x00 ∧ regF t.cpu = 0xB0 ∧ t.cpu.pc = 0x0102)) = true ∧
    after (board [0x09#8] 0x0080#16 0x0605#16 0x0000#16 0x8A23#16 0xFFFE#16 []) 2 (fun t => decide (t.cpu.hl = 0x9028 ∧ regF t.cpu = 0xA0)) = true ∧
    after (board [0x29#8] 0x0000#16 0x0000#16 0x0000#16 0x8A23#16 0xFFFE#16 []) 2 (fun t => decide (t.cpu.hl = 0x1446 ∧ regF t.cpu = 0x30)) = true ∧
    after (board [0x19#8] 0x0000#16 0x0000#16 0x0001#16 0xFFFF#16 0xFFFE#16 []) 2 (fun t => decide (t.cpu.hl = 0x0000 ∧ regF t.cpu = 0x30)) = true ∧
    after (board [0x39#8] 0x0000#16 0x0000#16 0x0000#16 0x0FFF#16 0x0001#16 []) 2 (fun t => decide (t.cpu.hl = 0x1000 ∧ regF t.cpu = 0x20)) = true ∧
    after (board [0xE8#8, 0x02#8] 0x00F0#16 0x0000#16 0x0000#16 0x0000#16 0xFFF8#16 []) 4 (fun t => decide (t.cpu.sp = 0xFFFA ∧ regF t.cpu = 0x00)) = true ∧
    after (board [0xE8#8, 0x01#8] 0x0000#16 0x0000#16 0x0000#16 0x0000#16 0x000F#16 []) 4 (fun t => decide (t.cpu.sp = 0x0010 ∧ regF t.cpu = 0x20)) = true := by decide

/-- V41.6, V41.7, V41.8. -/
theorem test_adc :
    after (board [0x88#8] 0xE110#16 0x0F00#16 0x0000#16 0x0000#16 0xFFFE#16 []) 1 (fun t => decide (regA t.cpu = 0xF1 ∧ regF t.cpu = 0x20)) = true ∧
    after (board [0xCE#8, 0x00#8] 0xFF10#16 0x0000#16 0x0000#16 0x0000#16 0xFFFE#16 []) 2 (fun t => decide (regA t.cpu = 0x00 ∧ regF t.cpu = 0xB0)) = true ∧
    after (board [0x8E#8] 0x0E10#16 0x0000#16 0x0000#16 0xC000#16 0xFFFE#16 [(0xC000, 0x01#8)]) 2 (fun t => decide (regA t.cpu = 0x10 ∧ regF t.cpu = 0x20)) = true := by decide

/-- V41.9, V41.10, V41.11, V41.12. -/
theorem test_sub :
    after (board [0x90#8] 0x3E00#16 0x3E00#16 0x0000#16 0x0000#16 0xFFFE#16 []) 1 (fun t => decide (regA t.cpu = 0x00 ∧ regF t.cpu = 0xC0)) = true ∧
    after (board [0xD6#8, 0x0F#8] 0x3E00#16 0x0000#16 0x0000#16 0x0000#16 0xFFFE#16 []) 2 (fun t => decide (regA t.cpu = 0x2F ∧ regF t.cpu = 0x60)) = true ∧
    after (board [0xD6#8, 0x01#8] 0x0000#16 0x0000#16 0x0000#16 0x0000#16 0xFFFE#16 []) 2 (fun t => decide (regA t.cpu = 0xFF ∧ regF t.cpu = 0x70)) = true ∧
    after (board [0x97#8] 0x5510#16 0x0000#16 0x0000#16 0x0000#16 0xFFFE#16 []) 1 (fun t => decide (regA t.cpu = 0x00 ∧ regF t.cpu = 0xC0)) = true := by decide

/-- V41.13, V41.14, V41.15. -/
theorem test_sbc :
    after (board [0x98#8] 0x3B10#16 0x2A00#16 0x0000#16 0x0000#16 0xFFFE#16 []) 1 (fun t => decide (regA t.cpu = 0x10 ∧ regF t.cpu = 0x40)) = true ∧
    after (board [0xDE#8, 0xFF#8] 0x0010#16 0x0000#16 0x0000#16 0x0000#16 0xFFFE#16 []) 2 (fun t => decide (regA t.cpu = 0x00 ∧ regF t.cpu = 0xF0)) = true ∧
    after (board [0x9E#8] 0x1000#16 0x0000#16 0x0000#16 0xC000#16 0xFFFE#16 [(0xC000, 0x01#8)]) 2 (fun t => decide (regA t.cpu = 0x0F ∧ regF t.cpu = 0x60)) = true := by decide

/-- V41.16, V41.17. -/
theorem test_and :
    after (board [0xA0#8] 0x5A10#16 0x3F00#16 0x0000#16 0x0000#16 0xFFFE#16 []) 1 (fun t => decide (regA t.cpu = 0x1A ∧ regF t.cpu = 0x20)) = true ∧
    after (board [0xE6#8, 0x00#8] 0xFF00#16 0x0000#16 0x0000#16 0x0000#16 0xFFFE#16 []) 2 (fun t => decide (regA t.cpu = 0x00 ∧ regF t.cpu = 0xA0)) = true := by decide

/-- V41.18, V41.19. -/
theorem test_xor :
    after (board [0xAF#8] 0x77F0#16 0x0000#16 0x0000#16 0x0000#16 0xFFFE#16 []) 1 (fun t => decide (regA t.cpu = 0x00 ∧ regF t.cpu = 0x80)) = true ∧
    after (board [0xAE#8] 0xF000#16 0x0000#16 0x0000#16 0xC000#16 0xFFFE#16 [(0xC000, 0x0F#8)]) 2 (fun t => decide (regA t.cpu = 0xFF ∧ regF t.cpu = 0x00)) = true := by decide

/-- V41.20, V41.21. -/
theorem test_or :
    after (board [0xF6#8, 0x00#8] 0x0070#16 0x0000#16 0x0000#16 0x0000#16 0xFFFE#16 []) 2 (fun t => decide (regA t.cpu = 0x00 ∧ regF t.cpu = 0x80)) = true ∧
    after (board [0xB1#8] 0x5000#16 0x0005#16 0x0000#16 0x0000#16 0xFFFE#16 []) 1 (fun t => decide (regA t.cpu = 0x55 ∧ regF t.cpu = 0x00)) = true := by decide

/-- V41.22, V41.23, V41.24. -/
theorem test_cp :
    after (board [0xFE#8, 0x40#8] 0x3C00#16 0x0000#16 0x0000#16 0x0000#16 0xFFFE#16 []) 2 (fun t => decide (regA t.cpu = 0x3C ∧ regF t.cpu = 0x50)) = true ∧
    after (board [0xBE#8] 0x3C00#16 0x0000#16 0x0000#16 0xC000#16 0xFFFE#16 [(0xC000, 0x3C#8)]) 2 (fun t => decide (regA t.cpu = 0x3C ∧ regF t.cpu = 0xC0)) = true ∧
    after (board [0xB8#8] 0x3C00#16 0x2F00#16 0x0000#16 0x0000#16 0xFFFE#16 []) 1 (fun t => decide (regA t.cpu = 0x3C ∧ regF t.cpu = 0x60)) = true := by decide

/-- V41.25, V41.26, V41.27, V42.5, V42.7. -/
theorem test_inc :
    after (board [0x04#8] 0x0010#16 0xFF00#16 0x0000#16 0x0000#16 0xFFFE#16 []) 1 (fun t => decide (getReg t.cpu .b = 0x00 ∧ regF t.cpu = 0xB0)) = true ∧
    after (board [0x3C#8] 0x0F00#16 0x0000#16 0x0000#16 0x0000#16 0xFFFE#16 []) 1 (fun t => decide (regA t.cpu = 0x10 ∧ regF t.cpu = 0x20)) = true ∧
    after (board [0x34#8] 0x0040#16 0x0000#16 0x0000#16 0xC000#16 0xFFFE#16 [(0xC000, 0x50#8)]) 3 (fun t => decide (peek t 0xC000#16 = some 0x51 ∧ regF t.cpu = 0x00)) = true ∧
    after (board [0x03#8] 0x00A0#16 0xFFFF#16 0x0000#16 0x0000#16 0xFFFE#16 []) 2 (fun t => decide (t.cpu.bc = 0x0000 ∧ regF t.cpu = 0xA0)) = true ∧
    after (board [0x33#8] 0x0000#16 0x0000#16 0x0000#16 0x0000#16 0xFFFF#16 []) 2 (fun t => decide (t.cpu.sp = 0x0000)) = true := by decide

/-- V41.28, V41.29, V41.31, V42.6, V42.8. -/
theorem test_dec :
    after (board [0x0D#8] 0x0010#16 0x0001#16 0x0000#16 0x0000#16 0xFFFE#16 []) 1 (fun t => decide (getReg t.cpu .c = 0x00 ∧ regF t.cpu = 0xD0)) = true ∧
    after (board [0x0D#8] 0x0000#16 0x0000#16 0x0000#16 0x0000#16 0xFFFE#16 []) 1 (fun t => decide (getReg t.cpu .c = 0xFF ∧ regF t.cpu = 0x60)) = true ∧
    after (board [0x35#8] 0x0000#16 0x0000#16 0x0000#16 0xC000#16 0xFFFE#16 []) 3 (fun t => decide (peek t 0xC000#16 = some 0xFF ∧ regF t.cpu = 0x60)) = true ∧
    after (board [0x1B#8] 0x0000#16 0x0000#16 0x0000#16 0x0000#16 0xFFFE#16 []) 2 (fun t => decide (t.cpu.de = 0xFFFF ∧ regF t.cpu = 0x00)) = true ∧
    after (board [0x2B#8] 0x0000#16 0x0000#16 0x0000#16 0x0100#16 0xFFFE#16 []) 2 (fun t => decide (t.cpu.hl = 0x00FF)) = true := by decide

/-- V41.32. -/
theorem test_cpl :
    after (board [0x2F#8] 0x3590#16 0x0000#16 0x0000#16 0x0000#16 0xFFFE#16 []) 1 (fun t => decide (regA t.cpu = 0xCA ∧ regF t.cpu = 0xF0)) = true := by decide

/-- V41.33. -/
theorem test_scf :
    after (board [0x37#8] 0x00E0#16 0x0000#16 0x0000#16 0x0000#16 0xFFFE#16 []) 1 (fun t => decide (regF t.cpu = 0x90)) = true := by decide

/-- V41.34, V41.35. -/
theorem test_ccf :
    after (board [0x3F#8] 0x00F0#16 0x0000#16 0x0000#16 0x0000#16 0xFFFE#16 []) 1 (fun t => decide (regF t.cpu = 0x80)) = true ∧
    after (board [0x3F#8] 0x0080#16 0x0000#16 0x0000#16 0x0000#16 0xFFFE#16 []) 1 (fun t => decide (regF t.cpu = 0x90)) = true := by decide

/-- V41.41, V41.42. -/
theorem test_daa :
    after (board [0x27#8] 0x0080#16 0x0000#16 0x0000#16 0x0000#16 0xFFFE#16 []) 1 (fun t => decide (regA t.cpu = 0x00 ∧ regF t.cpu = 0x80)) = true ∧
    after (board [0x27#8] 0xFA00#16 0x0000#16 0x0000#16 0x0000#16 0xFFFE#16 []) 1 (fun t => decide (regA t.cpu = 0x60 ∧ regF t.cpu = 0x10)) = true := by decide

/-- V42.14, V42.15, V44.1, V44.2, V44.3, V44.4, V44.5, V44.6, V44.7, V44.8, V44.9, V44.10, V44.11, V44.12, V44.15, V44.16, V44.17, V44.18, V44.19, V44.20, V44.21, V44.22, V44.23, V44.24, V44.25, V44.31. -/
theorem test_ld :
    after (board [0xF8#8, 0x02#8] 0x0000#16 0x0000#16 0x0000#16 0x0000#16 0xFFF8#16 []) 3 (fun t => decide (t.cpu.hl = 0xFFFA ∧ t.cpu.sp = 0xFFF8 ∧ regF t.cpu = 0x00)) = true ∧
    after (board [0xF8#8, 0xFE#8] 0x0000#16 0x0000#16 0x0000#16 0x0000#16 0x0005#16 []) 3 (fun t => decide (t.cpu.hl = 0x0003 ∧ regF t.cpu = 0x30)) = true ∧
    after (board [0x41#8] 0x00F0#16 0x005A#16 0x0000#16 0x0000#16 0xFFFE#16 []) 1 (fun t => decide (getReg t.cpu .b = 0x5A ∧ regF t.cpu = 0xF0)) = true ∧
    after (board [0x7F#8] 0x1200#16 0x0000#16 0x0000#16 0x0000#16 0xFFFE#16 []) 1 (fun t => decide (regA t.cpu = 0x12 ∧ t.cpu.pc = 0x0101)) = true ∧
    after (board [0x1E#8, 0x99#8] 0x0000#16 0x0000#16 0x0000#16 0x0000#16 0xFFFE#16 []) 2 (fun t => decide (getReg t.cpu .e = 0x99 ∧ t.cpu.pc = 0x0102)) = true ∧
    after (board [0x6E#8] 0x0000#16 0x0000#16 0x0000#16 0xC000#16 0xFFFE#16 [(0xC000, 0x42#8)]) 2 (fun t => decide (t.cpu.hl = 0xC042)) = true ∧
    after (board [0x74#8] 0x0000#16 0x0000#16 0x0000#16 0xC012#16 0xFFFE#16 []) 2 (fun t => decide (peek t 0xC012#16 = some 0xC0)) = true ∧
    after (board [0x36#8, 0x7E#8] 0x0000#16 0x0000#16 0x0000#16 0xC000#16 0xFFFE#16 []) 3 (fun t => decide (peek t 0xC000#16 = some 0x7E ∧ t.cpu.pc = 0x0102)) = true ∧
    after (board [0x0A#8] 0x0000#16 0xC000#16 0x0000#16 0x0000#16 0xFFFE#16 [(0xC000, 0x9C#8)]) 2 (fun t => decide (regA t.cpu = 0x9C)) = true ∧
    after (board [0x1A#8] 0x0000#16 0x0000#16 0xE000#16 0x0000#16 0xFFFE#16 [(0xC000, 0x3D#8)]) 2 (fun t => decide (regA t.cpu = 0x3D)) = true ∧
    after (board [0x02#8] 0x1100#16 0xC100#16 0x0000#16 0x0000#16 0xFFFE#16 []) 2 (fun t => decide (peek t 0xC100#16 = some 0x11 ∧ peek t 0xE100#16 = some 0x11)) = true ∧
    after (board [0x12#8] 0x2200#16 0x0000#16 0xFF80#16 0x0000#16 0xFFFE#16 []) 2 (fun t => decide (peek t 0xFF80#16 = some 0x22)) = true ∧
    after (board [0xFA#8, 0x34#8, 0x01#8] 0x0000#16 0x0000#16 0x0000#16 0x0000#16 0xFFFE#16 []) 4 (fun t => decide (regA t.cpu = 0x54 ∧ t.cpu.pc = 0x0103)) = true ∧
    after (board [0xEA#8, 0x00#8, 0xC0#8] 0x5D00#16 0x0000#16 0x0000#16 0x0000#16 0xFFFE#16 []) 4 (fun t => decide (peek t 0xC000#16 = some 0x5D ∧ t.cpu.pc = 0x0103)) = true ∧
    after (board [0xF2#8] 0x0000#16 0x0007#16 0x0000#16 0x0000#16 0xFFFE#16 []) 2 (fun t => decide (regA t.cpu = 0xF8)) = true ∧
    after (board [0xE2#8] 0x1F00#16 0x00FF#16 0x0000#16 0x0000#16 0xFFFE#16 []) 2 (fun t => decide (t.intr.ieReg = 0x1F ∧ peek t 0xFFFF#16 = some 0xFF)) = true ∧
    after (board [0x2A#8] 0x0000#16 0x0000#16 0x0000#16 0xC0FF#16 0xFFFE#16 [(0xC0FF, 0x66#8)]) 2 (fun t => decide (regA t.cpu = 0x66 ∧ t.cpu.hl = 0xC100)) = true ∧
    after (board [0x3A#8] 0x0000#16 0x0000#16 0x0000#16 0xC000#16 0xFFFE#16 [(0xC000, 0x77#8)]) 2 (fun t => decide (regA t.cpu = 0x77 ∧ t.cpu.hl = 0xBFFF)) = true ∧
    after (board [0x22#8] 0x0100#16 0x0000#16 0x0000#16 0xFFFF#16 0xFFFE#16 []) 2 (fun t => decide (t.cpu.hl = 0x0000 ∧ t.intr.ieReg = 0x01)) = true ∧
    after (board [0x3A#8] 0x0000#16 0x0000#16 0x0000#16 0x0000#16 0xFFFE#16 []) 2 (fun t => decide (regA t.cpu = 0x00 ∧ t.cpu.hl = 0xFFFF)) = true ∧
    after (board [0x32#8] 0x3300#16 0x0000#16 0x0000#16 0xC001#16 0xFFFE#16 []) 2 (fun t => decide (peek t 0xC001#16 = some 0x33 ∧ t.cpu.hl = 0xC000)) = true ∧
    after (board [0x01#8, 0x34#8, 0x12#8] 0x0000#16 0x0000#16 0x0000#16 0x0000#16 0xFFFE#16 []) 3 (fun t => decide (t.cpu.bc = 0x1234 ∧ t.cpu.pc = 0x0103)) = true ∧
    after (board [0x31#8, 0xFE#8, 0xDF#8] 0x0000#16 0x0000#16 0x0000#16 0x0000#16 0xFFFE#16 []) 3 (fun t => decide (t.cpu.sp = 0xDFFE)) = true ∧
    after (board [0x08#8, 0x00#8, 0xC0#8] 0x0000#16 0x0000#16 0x0000#16 0x0000#16 0xBEEF#16 []) 5 (fun t => decide (peek t 0xC000#16 = some 0xEF ∧ peek t 0xC001#16 = some 0xBE ∧ t.cpu.pc = 0x0103)) = true ∧
    after (board [0xF9#8] 0x0000#16 0x0000#16 0x0000#16 0xC123#16 0xFFFE#16 []) 2 (fun t => decide (t.cpu.sp = 0xC123)) = true ∧
    after (board [0xEA#8, 0x00#8, 0x10#8] 0x5D00#16 0x0000#16 0x0000#16 0x0000#16 0xFFFE#16 []) 4 (fun t => decide (peek t 0x1000#16 = some 0x00)) = true := by decide

/-- V43.1, V43.2. -/
theorem test_rlca :
    after (board [0x07#8] 0x8500#16 0x0000#16 0x0000#16 0x0000#16 0xFFFE#16 []) 1 (fun t => decide (regA t.cpu = 0x0B ∧ regF t.cpu = 0x10)) = true ∧
    after (board [0x07#8] 0x0080#16 0x0000#16 0x0000#16 0x0000#16 0xFFFE#16 []) 1 (fun t => decide (regA t.cpu = 0x00 ∧ regF t.cpu = 0x00)) = true := by decide

/-- V43.3. -/
theorem test_rrca :
    after (board [0x0F#8] 0x0100#16 0x0000#16 0x0000#16 0x0000#16 0xFFFE#16 []) 1 (fun t => decide (regA t.cpu = 0x80 ∧ regF t.cpu = 0x10)) = true := by decide

/-- V43.4, V43.5. -/
theorem test_rla :
    after (board [0x17#8] 0x9510#16 0x0000#16 0x0000#16 0x0000#16 0xFFFE#16 []) 1 (fun t => decide (regA t.cpu = 0x2B ∧ regF t.cpu = 0x10)) = true ∧
    after (board [0x17#8] 0x8000#16 0x0000#16 0x0000#16 0x0000#16 0xFFFE#16 []) 1 (fun t => decide (regA t.cpu = 0x00 ∧ regF t.cpu = 0x10)) = true := by decide

/-- V43.6. -/
theorem test_rra :
    after (board [0x1F#8] 0x8100#16 0x0000#16 0x0000#16 0x0000#16 0xFFFE#16 []) 1 (fun t => decide (regA t.cpu = 0x40 ∧ regF t.cpu = 0x10)) = true := by decide

/-- V43.7, V43.8. -/
theorem test_rlc :
    after (board [0xCB#8, 0x00#8] 0x0000#16 0x8500#16 0x0000#16 0x0000#16 0xFFFE#16 []) 2 (fun t => decide (getReg t.cpu .b = 0x0B ∧ regF t.cpu = 0x10)) = true ∧
    after (board [0xCB#8, 0x06#8] 0x0000#16 0x0000#16 0x0000#16 0xC000#16 0xFFFE#16 []) 4 (fun t => decide (peek t 0xC000#16 = some 0x00 ∧ regF t.cpu = 0x80)) = true := by decide

/-- V43.9. -/
theorem test_rrc :
    after (board [0xCB#8, 0x09#8] 0x0000#16 0x0001#16 0x0000#16 0x0000#16 0xFFFE#16 []) 2 (fun t => decide (getReg t.cpu .c = 0x80 ∧ regF t.cpu = 0x10)) = true := by decide

/-- V43.10, V43.11. -/
theorem test_rl :
    after (board [0xCB#8, 0x15#8] 0x0000#16 0x0000#16 0x0000#16 0x0080#16 0xFFFE#16 []) 2 (fun t => decide (getReg t.cpu .l = 0x00 ∧ regF t.cpu = 0x90)) = true ∧
    after (board [0xCB#8, 0x16#8] 0x0010#16 0x0000#16 0x0000#16 0xC000#16 0xFFFE#16 [(0xC000, 0x11#8)]) 4 (fun t => decide (peek t 0xC000#16 = some 0x23 ∧ regF t.cpu = 0x00)) = true := by decide

/-- V43.12, V43.13. -/
theorem test_rr :
    after (board [0xCB#8, 0x1F#8] 0x0100#16 0x0000#16 0x0000#16 0x0000#16 0xFFFE#16 []) 2 (fun t => decide (regA t.cpu = 0x00 ∧ regF t.cpu = 0x90)) = true ∧
    after (board [0xCB#8, 0x1E#8] 0x0010#16 0x0000#16 0x0000#16 0xC000#16 0xFFFE#16 [(0xC000, 0x8A#8)]) 4 (fun t => decide (peek t 0xC000#16 = some 0xC5 ∧ regF t.cpu = 0x00)) = true := by decide

/-- V43.14, V43.15. -/
theorem test_sla :
    after (board [0xCB#8, 0x22#8] 0x0000#16 0x0000#16 0x8000#16 0x0000#16 0xFFFE#16 []) 2 (fun t => decide (getReg t.cpu .d = 0x00 ∧ regF t.cpu = 0x90)) = true ∧
    after (board [0xCB#8, 0x26#8] 0x0000#16 0x0000#16 0x0000#16 0xC000#16 0xFFFE#16 [(0xC000, 0xFF#8)]) 4 (fun t => decide (peek t 0xC000#16 = some 0xFE ∧ regF t.cpu = 0x10)) = true := by decide

/-- V43.16, V43.17, V43.18. -/
theorem test_sra :
    after (board [0xCB#8, 0x2F#8] 0x8A00#16 0x0000#16 0x0000#16 0x0000#16 0xFFFE#16 []) 2 (fun t => decide (regA t.cpu = 0xC5 ∧ regF t.cpu = 0x00)) = true ∧
    after (board [0xCB#8, 0x2B#8] 0x0000#16 0x0000#16 0x0001#16 0x0000#16 0xFFFE#16 []) 2 (fun t => decide (getReg t.cpu .e = 0x00 ∧ regF t.cpu = 0x90)) = true ∧
    after (board [0xCB#8, 0x2E#8] 0x0000#16 0x0000#16 0x0000#16 0xC000#16 0xFFFE#16 [(0xC000, 0x01#8)]) 4 (fun t => decide (peek t 0xC000#16 = some 0x00 ∧ regF t.cpu = 0x90)) = true := by decide

/-- V43.19, V43.20, V43.21. -/
theorem test_swap :
    after (board [0xCB#8, 0x37#8] 0xF070#16 0x0000#16 0x0000#16 0x0000#16 0xFFFE#16 []) 2 (fun t => decide (regA t.cpu = 0x0F ∧ regF t.cpu = 0x00)) = true ∧
    after (board [0xCB#8, 0x30#8] 0x0000#16 0x0000#16 0x0000#16 0x0000#16 0xFFFE#16 []) 2 (fun t => decide (getReg t.cpu .b = 0x00 ∧ regF t.cpu = 0x80)) = true ∧
    after (board [0xCB#8, 0x36#8] 0x0000#16 0x0000#16 0x0000#16 0xC000#16 0xFFFE#16 [(0xC000, 0x12#8)]) 4 (fun t => decide (peek t 0xC000#16 = some 0x21 ∧ regF t.cpu = 0x00)) = true := by decide

/-- V43.22, V43.23, V43.24. -/
theorem test_srl :
    after (board [0xCB#8, 0x3F#8] 0x0100#16 0x0000#16 0x0000#16 0x0000#16 0xFFFE#16 []) 2 (fun t => decide (regA t.cpu = 0x00 ∧ regF t.cpu = 0x90)) = true ∧
    after (board [0xCB#8, 0x3C#8] 0x0000#16 0x0000#16 0x0000#16 0xFF00#16 0xFFFE#16 []) 2 (fun t => decide (getReg t.cpu .h = 0x7F ∧ regF t.cpu = 0x10)) = true ∧
    after (board [0xCB#8, 0x3E#8] 0x0000#16 0x0000#16 0x0000#16 0xC000#16 0xFFFE#16 [(0xC000, 0x80#8)]) 4 (fun t => decide (peek t 0xC000#16 = some 0x40 ∧ regF t.cpu = 0x00)) = true := by decide

/-- V43.25, V43.26, V43.27. -/
theorem test_bit :
    after (board [0xCB#8, 0x7C#8] 0x0050#16 0x0000#16 0x0000#16 0x8000#16 0xFFFE#16 []) 2 (fun t => decide (getReg t.cpu .h = 0x80 ∧ regF t.cpu = 0x30)) = true ∧
    after (board [0xCB#8, 0x7C#8] 0x0000#16 0x0000#16 0x0000#16 0x7F00#16 0xFFFE#16 []) 2 (fun t => decide (regF t.cpu = 0xA0)) = true ∧
    after (board [0xCB#8, 0x46#8] 0x0010#16 0x0000#16 0x0000#16 0xC000#16 0xFFFE#16 [(0xC000, 0xFE#8)]) 3 (fun t => decide (peek t 0xC000#16 = some 0xFE ∧ regF t.cpu = 0xB0)) = true := by decide

/-- V43.28, V43.29. -/
theorem test_res :
    after (board [0xCB#8, 0xBF#8] 0xFFB0#16 0x0000#16 0x0000#16 0x0000#16 0xFFFE#16 []) 2 (fun t => decide (regA t.cpu = 0x7F ∧ regF t.cpu = 0xB0)) = true ∧
    after (board [0xCB#8, 0x86#8] 0x0000#16 0x0000#16 0x0000#16 0xC000#16 0xFFFE#16 [(0xC000, 0x01#8)]) 4 (fun t => decide (peek t 0xC000#16 = some 0x00 ∧ regF t.cpu = 0x00)) = true := by decide

/-- V43.30, V43.31. -/
theorem test_set :
    after (board [0xCB#8, 0xD8#8] 0x0000#16 0x0000#16 0x0000#16 0x0000#16 0xFFFE#16 []) 2 (fun t => decide (getReg t.cpu .b = 0x08 ∧ regF t.cpu = 0x00)) = true ∧
    after (board [0xCB#8, 0xDE#8] 0x0070#16 0x0000#16 0x0000#16 0xC000#16 0xFFFE#16 []) 4 (fun t => decide (peek t 0xC000#16 = some 0x08 ∧ regF t.cpu = 0x70)) = true := by decide

/-- V44.13, V44.14. -/
theorem test_ldh :
    after (board [0xF0#8, 0x0F#8] 0x0000#16 0x0000#16 0x0000#16 0x0000#16 0xFFFE#16 []) 3 (fun t => decide (regA t.cpu = 0xE1)) = true ∧
    after (board [0xE0#8, 0x80#8] 0xAB00#16 0x0000#16 0x0000#16 0x0000#16 0xFFFE#16 []) 3 (fun t => decide (peek t 0xFF80#16 = some 0xAB)) = true := by decide

/-- V44.26, V44.29, V44.30. -/
theorem test_push :
    after (board [0xC5#8] 0x0000#16 0x1234#16 0x0000#16 0x0000#16 0xD000#16 []) 4 (fun t => decide (t.cpu.sp = 0xCFFE ∧ peek t 0xCFFF#16 = some 0x12 ∧ peek t 0xCFFE#16 = some 0x34)) = true ∧
    after (board [0xF5#8] 0xABF0#16 0x0000#16 0x0000#16 0x0000#16 0xD000#16 []) 4 (fun t => decide (peek t 0xCFFF#16 = some 0xAB ∧ peek t 0xCFFE#16 = some 0xF0)) = true ∧
    after (board [0xE5#8] 0x0000#16 0x0000#16 0x0000#16 0xBEEF#16 0x0001#16 []) 4 (fun t => decide (t.cpu.sp = 0xFFFF ∧ peek t 0x0000#16 = some 0x00 ∧ t.intr.ieReg = 0x0F)) = true := by decide

/-- V44.27, V44.28. -/
theorem test_pop :
    after (board [0xD1#8] 0x0000#16 0x0000#16 0x0000#16 0x0000#16 0xCFFE#16 [(0xCFFE, 0x34#8), (0xCFFF, 0x12#8)]) 3 (fun t => decide (t.cpu.de = 0x1234 ∧ t.cpu.sp = 0xD000)) = true ∧
    after (board [0xF1#8] 0x0000#16 0x0000#16 0x0000#16 0x0000#16 0xCFFE#16 [(0xCFFE, 0xFF#8), (0xCFFF, 0x12#8)]) 3 (fun t => decide (regA t.cpu = 0x12 ∧ regF t.cpu = 0xF0 ∧ t.cpu.sp = 0xD000)) = true := by decide

/-- V45.1, V45.2, V45.3, V45.4. -/
theorem test_jp :
    after (board [0xC3#8, 0x00#8, 0x02#8] 0x0000#16 0x0000#16 0x0000#16 0x0000#16 0xFFFE#16 []) 4 (fun t => decide (t.cpu.pc = 0x0200)) = true ∧
    after (board [0xC2#8, 0x00#8, 0x02#8] 0x0000#16 0x0000#16 0x0000#16 0x0000#16 0xFFFE#16 []) 4 (fun t => decide (t.cpu.pc = 0x0200)) = true ∧
    after (board [0xCA#8, 0x00#8, 0x02#8] 0x0000#16 0x0000#16 0x0000#16 0x0000#16 0xFFFE#16 []) 3 (fun t => decide (t.cpu.pc = 0x0103)) = true ∧
    after (board [0xE9#8] 0x0000#16 0x0000#16 0x0000#16 0xC000#16 0xFFFE#16 []) 1 (fun t => decide (t.cpu.pc = 0xC000)) = true := by decide

/-- V45.5, V45.6, V45.8, V45.9. -/
theorem test_jr :
    after (board [0x18#8, 0x05#8] 0x0000#16 0x0000#16 0x0000#16 0x0000#16 0xFFFE#16 []) 3 (fun t => decide (t.cpu.pc = 0x0107)) = true ∧
    after (board [0x18#8, 0x80#8] 0x0000#16 0x0000#16 0x0000#16 0x0000#16 0xFFFE#16 []) 3 (fun t => decide (t.cpu.pc = 0x0082)) = true ∧
    after (board [0x38#8, 0x10#8] 0x0010#16 0x0000#16 0x0000#16 0x0000#16 0xFFFE#16 []) 3 (fun t => decide (t.cpu.pc = 0x0112)) = true ∧
    after (board [0x30#8, 0x10#8] 0x0010#16 0x0000#16 0x0000#16 0x0000#16 0xFFFE#16 []) 2 (fun t => decide (t.cpu.pc = 0x0102)) = true := by decide

/-- V45.10, V45.11, V45.12. -/
theorem test_call :
    after (board [0xCD#8, 0x34#8, 0x12#8] 0x0000#16 0x0000#16 0x0000#16 0x0000#16 0xD000#16 []) 6 (fun t => decide (t.cpu.pc = 0x1234 ∧ t.cpu.sp = 0xCFFE ∧ peek t 0xCFFF#16 = some 0x01 ∧ peek t 0xCFFE#16 = some 0x03)) = true ∧
    after (board [0xCC#8, 0x34#8, 0x12#8] 0x0080#16 0x0000#16 0x0000#16 0x0000#16 0xD000#16 []) 6 (fun t => decide (t.cpu.pc = 0x1234 ∧ t.cpu.sp = 0xCFFE)) = true ∧
    after (board [0xD4#8, 0x34#8, 0x12#8] 0x0010#16 0x0000#16 0x0000#16 0x0000#16 0xD000#16 []) 3 (fun t => decide (t.cpu.pc = 0x0103 ∧ t.cpu.sp = 0xD000)) = true := by decide

/-- V45.13, V45.14, V45.15. -/
theorem test_ret :
    after (board [0xC9#8] 0x0000#16 0x0000#16 0x0000#16 0x0000#16 0xCFFE#16 [(0xCFFE, 0x03#8), (0xCFFF, 0x01#8)]) 4 (fun t => decide (t.cpu.pc = 0x0103 ∧ t.cpu.sp = 0xD000)) = true ∧
    after (board [0xC0#8] 0x0000#16 0x0000#16 0x0000#16 0x0000#16 0xCFFE#16 [(0xCFFE, 0x03#8), (0xCFFF, 0x01#8)]) 5 (fun t => decide (t.cpu.pc = 0x0103 ∧ t.cpu.sp = 0xD000)) = true ∧
    after (board [0xD8#8] 0x0000#16 0x0000#16 0x0000#16 0x0000#16 0xCFFE#16 []) 2 (fun t => decide (t.cpu.pc = 0x0101 ∧ t.cpu.sp = 0xCFFE)) = true := by decide

/-- V45.16. -/
theorem test_reti :
    after (board [0xD9#8] 0x0000#16 0x0000#16 0x0000#16 0x0000#16 0xCFFE#16 [(0xCFFE, 0x03#8), (0xCFFF, 0x01#8)]) 4 (fun t => decide (t.cpu.pc = 0x0103 ∧ t.cpu.sp = 0xD000 ∧ t.cpu.ime = true)) = true := by decide

/-- V45.17, V45.18. -/
theorem test_rst :
    after (board [0xFF#8] 0x0000#16 0x0000#16 0x0000#16 0x0000#16 0xD000#16 []) 4 (fun t => decide (t.cpu.pc = 0x0038 ∧ t.cpu.sp = 0xCFFE ∧ peek t 0xCFFF#16 = some 0x01 ∧ peek t 0xCFFE#16 = some 0x01)) = true ∧
    after (board [0xCF#8] 0x0000#16 0x0000#16 0x0000#16 0x0000#16 0xD000#16 []) 4 (fun t => decide (t.cpu.pc = 0x0008 ∧ peek t 0xCFFE#16 = some 0x01)) = true := by decide

/-- V46.1 to V46.6. -/
theorem test_system :
    after (board [0x00#8] 0 0 0 0 0xFFFE#16 []) 1 (fun t => decide (t.cpu.pc = 0x0101 ∧ regF t.cpu = 0)) = true ∧
    after (board [0x10#8, 0x00#8] 0 0 0 0 0xFFFE#16 []) 1 (fun t => decide (t.cpu.pc = 0x0102 ∧ t.cpu.halted = false)) = true ∧
    after (board [0x76#8] 0 0 0 0 0xFFFE#16 []) 1 (fun t => decide (t.cpu.pc = 0x0101 ∧ t.cpu.halted = true)) = true ∧
    after (withIme (board [0xF3#8] 0 0 0 0 0xFFFE#16 []) true) 1 (fun t => decide (t.cpu.ime = false)) = true ∧
    after (board [0xFB#8] 0 0 0 0 0xFFFE#16 []) 1 (fun t => decide (t.cpu.ime = true)) = true := by decide

/-- V46.11 to V46.21: the fault names the byte and its address, in one cycle. -/
theorem test_illegal :
    (illegalOpcodes.all fun op => after (board [op] 0 0 0 0 0xFFFE#16 []) 1 fun t =>
      decide (t.fault = some (.unknownOpcode op 0x0100) ∧ t.cpu.pc = 0x0101)) = true := by decide

/-- V46.22: a further `Run()` changes nothing, and `step` answers the fault (log 11). -/
theorem test_faulted :
    (match step { State.reset with fault := some (.unknownOpcode 0xD3#8 0x0100#16) } with
      | .fault r => decide (r = .unknownOpcode 0xD3#8 0x0100#16)
      | .next _ => false
      | .refused _ => false) = true ∧
    (match run { State.reset with fault := some (.unknownOpcode 0xD3#8 0x0100#16) } with
      | .next t => decide (t = { State.reset with fault := some (.unknownOpcode 0xD3#8 0x0100#16) })
      | .fault _ => false
      | .refused _ => false) = true := by decide

/-- The byte at 0x0100 is an opcode byte fetched again under the double fetch (R175): LD A,n reads 0x3E. -/
theorem test_double_fetch :
    after (let s := board [0x3E#8] 0 0 0 0 0xFFFE#16 []; withCpu s { s.cpu with haltBugArmed := true }) 2
      (fun t => decide (regA t.cpu = 0x3E ∧ t.cpu.pc = 0x0101 ∧ t.cpu.haltBugArmed = false)) = true := by decide

/-- V60.1 to V60.5. -/
theorem test_interrupt_entry :
    after (withIme (withIntr (board [] 0 0 0 0 0xD000#16 []) 0x1F 0x1F) true) 6 (fun t => decide (t.cpu.pc = 0x0040 ∧
      t.intr.ifReg = 0x1E ∧ t.cpu.ime = false ∧ t.cpu.sp = 0xCFFE ∧ peek t 0xCFFF#16 = some 0x01 ∧
      peek t 0xCFFE#16 = some 0x01)) = true ∧
    after (withIme (withIntr (board [] 0 0 0 0 0xD000#16 []) 0x05 0x04) true) 6 (fun t => decide (t.cpu.pc = 0x0050 ∧
      t.intr.ifReg = 0x01)) = true ∧
    after (withIme (withIntr (board [] 0 0 0 0 0xD000#16 []) 0x18 0x1F) true) 6 (fun t => decide (t.cpu.pc = 0x0058 ∧
      t.intr.ifReg = 0x10)) = true ∧
    after (withIme (withIntr (board [] 0 0 0 0 0xD000#16 []) 0x10 0x10) true) 6 (fun t => decide (t.cpu.pc = 0x0060 ∧
      t.intr.ifReg = 0x00)) = true ∧
    after (withIme (withIntr (board [] 0 0 0 0 0xD000#16 []) 0x02 0x02) true) 6 (fun t => decide (t.cpu.pc = 0x0048 ∧
      t.intr.ifReg = 0x00)) = true := by decide

/-- V60.6, V60.7: masked by IME, masked by IE. -/
theorem test_interrupt_masked :
    after (withIntr (board [] 0 0 0 0 0xD000#16 []) 0x1F 0x1F) 1 (fun t => decide (t.cpu.pc = 0x0101 ∧
      t.intr.ifReg = 0x1F ∧ t.cpu.sp = 0xD000)) = true ∧
    after (withIme (withIntr (board [] 0 0 0 0 0xD000#16 []) 0x1F 0x00) true) 1 (fun t => decide (t.cpu.pc = 0x0101 ∧
      t.intr.ifReg = 0x1F)) = true := by decide

/-- V60.8, V60.11, V60.12: EI's latency, entry from HALT, entry after RETI. -/
theorem test_interrupt_latency :
    after (withIntr (board [0xFB#8] 0 0 0 0 0xD000#16 []) 0x01 0x01) 1 (fun t => decide (t.cpu.pc = 0x0101 ∧
      t.cpu.ime = true ∧ t.intr.ifReg = 0x01)) = true ∧
    after (withIme (withIntr (board [0x76#8] 0 0 0 0 0xD000#16 []) 0x01 0x01) true) 7 (fun t => decide (t.cpu.pc = 0x0040 ∧
      t.cpu.halted = false ∧ t.intr.ifReg = 0x00 ∧ peek t 0xCFFE#16 = some 0x01)) = true ∧
    after (withIntr (board [0xD9#8] 0 0 0 0 0xCFFE#16 [(0xCFFE, 0x03#8), (0xCFFF, 0x01#8)]) 0x04 0x04) 9
      (fun t => decide (t.cpu.pc = 0x0050 ∧ t.cpu.sp = 0xCFFE ∧ t.cpu.ime = false ∧ t.intr.ifReg = 0x00)) = true := by decide

/-- V60.13 to V60.16 at the wake: which of the four cases arms the double fetch (R414). -/
theorem test_halt_wake :
    (let s := withIntr (board [0x76#8] 0 0 0 0 0xD000#16 []) 0x01 0x01
     after s 2 (fun t => decide (t.cpu.halted = false ∧ t.cpu.haltBugArmed = false)) &&
     after { s with config := { s.config with haltBugMode := .hardware } } 2
       (fun t => decide (t.cpu.halted = false ∧ t.cpu.haltBugArmed = true)) &&
     after (withCpu s { s.cpu with halted := true }) 2
       (fun t => decide (t.cpu.halted = false ∧ t.cpu.haltBugArmed = true)) &&
     after { withCpu s { s.cpu with halted := true } with config := { s.config with haltBugMode := .hardware } } 2
       (fun t => decide (t.cpu.halted = false ∧ t.cpu.haltBugArmed = false))) = true := by decide

/-- The start of the timer's overflow table: TAC = 0x05, TMA = 0x42, TIMA = 0xFF, divCounter = 0x000C. -/
def overflowing : Timer :=
  { divCounter := 0x000C, tima := 0xFF, tma := 0x42, tac := 0x5, edgeMemo := true, pendingOverflow := false }

/-- The overflow table, its calls 1 and 2. -/
theorem test_timer_overflow :
    (timerUpdate 4 overflowing).tima = 0x00 ∧ (timerUpdate 4 overflowing).pendingOverflow = true ∧
    timerRequests overflowing = false ∧ timerRequests (timerUpdate 4 overflowing) = true ∧
    (timerUpdate 4 (timerUpdate 4 overflowing)).tima = 0x42 := by decide

/-- VT.6, VT.7, VT.9, VT.11, VT.12, VT.13. -/
theorem test_timer_writes :
    (timerWrite (timerUpdate 4 overflowing) 0xFF05#16 0x99#8).tima = 0x00 ∧
    (timerWrite (timerUpdate 4 overflowing) 0xFF06#16 0x77#8).tima = 0x77 ∧
    (timerWrite { overflowing with divCounter := 0x0008, tima := 0x00 } 0xFF04#16 0x55#8).tima = 0x01 ∧
    (timerUpdate 4 (timerWrite { overflowing with divCounter := 0x0008, tima := 0x00 } 0xFF07#16 0x04#8)).tima = 0x01 ∧
    (timerUpdate 4 (timerWrite { overflowing with divCounter := 0x0008, tima := 0x00 } 0xFF07#16 0x01#8)).tima = 0x01 ∧
    timerRead { overflowing with divCounter := 0x1234 } 0xFF04#16 = 0x12 := by decide

/-- A PPU with the display on at a point of the scan. -/
def scanAt (line lineClock : Nat) (mode : PpuMode) : Ppu :=
  { Ppu.resetWith [] [] with
    lcdc := 0x91#8, bgp := 0xE4#8, lcdWasOn := true, line := line, lineClock := lineClock, ly := BitVec.ofNat 8 line, mode := mode }

/-- VP.2: with SCX = 5 mode 3 starts at clock 80 and mode 0 at clock 257. -/
theorem test_ppu_modes :
    (ppuClock 4 { scanAt 0 80 .oamRead with scx := 5 } 0).1.mode = .vramRead ∧
    (ppuClock 4 { scanAt 0 80 .oamRead with scx := 5 } 0).1.mode3Scx = 5 ∧
    (ppuClock 4 { scanAt 0 256 .vramRead with mode3Scx := 5 } 0).1.mode = .vramRead ∧
    (ppuClock 4 { scanAt 0 257 .vramRead with mode3Scx := 5 } 0).1.mode = .hblank ∧
    (ppuClock 4 (scanAt 0 455 .hblank) 0).1.line = 1 ∧ (ppuClock 4 (scanAt 153 455 .vblank) 0).1.line = 0 := by decide

/-- VP.3, VP.4, VP.6, VP.8: VBlank, LY on line 153, the coincidence and mode-1 sources. -/
theorem test_ppu_events :
    (ppuClock 4 (scanAt 144 0 .hblank) 0).2 = 0x01 ∧ (ppuClock 4 (scanAt 144 0 .hblank) 0).1.endOfFrame = true ∧
    (ppuClock 4 (scanAt 153 3 .vblank) 0).1.ly = 153 ∧ (ppuClock 4 (scanAt 153 4 .vblank) 0).1.ly = 0 ∧
    (ppuClock 4 { scanAt 2 0 .hblank with lyc := 2, statEnables := 0x8 } 0).2 = 0x02 ∧
    (ppuClock 4 { scanAt 144 0 .hblank with statEnables := 0x2 } 0).2 = 0x03 := by decide

/-- VP.10: tile 0 row 0 with low plane 0x3C and high plane 0x7E. -/
theorem test_ppu_pixels :
    (List.range 8).map (bgPixel { scanAt 0 92 .vramRead with vram := [(0x8000, 0x3C#8), (0x8001, 0x7E#8)] })
      = [0#2, 2#2, 3#2, 3#2, 3#2, 3#2, 2#2, 0#2] ∧
    (List.range 8).map (bgPixel { scanAt 0 92 .vramRead with lcdc := 0x81, vram := [(0x9000, 0x3C#8), (0x9001, 0x7E#8)] })
      = [0#2, 2#2, 3#2, 3#2, 3#2, 3#2, 2#2, 0#2] ∧
    (List.range 8).map (bgPixel { scanAt 0 92 .vramRead with bgp := 0x1B, vram := [(0x8000, 0x3C#8), (0x8001, 0x7E#8)] })
      = [3#2, 1#2, 0#2, 0#2, 0#2, 0#2, 1#2, 3#2] ∧
    (List.range 8).map (bgPixel { scanAt 0 92 .vramRead with scx := 2, vram := [(0x8000, 0x3C#8), (0x8001, 0x7E#8)] })
      = [3#2, 3#2, 3#2, 3#2, 2#2, 0#2, 0#2, 2#2] := by decide

/-- A machine with a cartridge of `banks` banks whose bank b has the byte b at its offset 0 (for b below 8). -/
def cartOf (m : Mapper) (banks ramBytes ramBanks : Nat) : State :=
  { State.reset with
    cart := { Cartridge.blank with
      imageLength := banks * 0x4000, romBanks := banks, ramBytes := ramBytes, ramBanks := ramBanks, mapper := m
      rom := [(0x4000, 1#8), (0x8000, 2#8), (0xC000, 3#8), (0x10000, 4#8), (0x14000, 5#8), (0x18000, 6#8), (0x1C000, 7#8),
        (0x80000, 0x20#8), (0x88000, 0x22#8)] } }

/-- A bus write without a cycle. -/
def poke (a : Word) (v : Byte) (s : State) : State :=
  match memWrite s a v with
  | .next t => t
  | .fault _ => s
  | .refused _ => s

/-- VC.3 to VC.7 and VC.10 to VC.12. -/
theorem test_mbc5 :
    (let s := cartOf (.mbc5 { ramEnable := false, romLo := 1, romHi := 0, ramBank := 0, mode := 0 }) 4 32768 4
     decide (peek s 0x4000#16 = some 1 ∧ peek (poke 0x2000#16 0x02#8 s) 0x4000#16 = some 2 ∧
       peek (poke 0x2000#16 0x00#8 s) 0x4000#16 = some 1 ∧ peek (poke 0x2000#16 0x05#8 s) 0x4000#16 = some 1 ∧
       peek (poke 0x2000#16 0x04#8 s) 0x4000#16 = some 1 ∧ peek (poke 0xA000#16 0x55#8 s) 0xA000#16 = some 0xFF) &&
     let t := poke 0xA000#16 0x55#8 (poke 0x0000#16 0x0A#8 s)
     decide (peek t 0xA000#16 = some 0x55 ∧ peek (poke 0x4000#16 0x01#8 t) 0xA000#16 = some 0x00 ∧
       peek (poke 0x0000#16 0x00#8 t) 0xA000#16 = some 0xFF)) = true := by decide

/-- VC.14 to VC.19. -/
theorem test_mbc1 :
    (let s := cartOf (.mbc1 { ramEnable := false, bank1 := 1, bank2 := 0, mode := 0 }) 64 0 0
     decide (peek (poke 0x2000#16 0x00#8 s) 0x4000#16 = some 1 ∧ peek (poke 0x2000#16 0x03#8 s) 0x4000#16 = some 3 ∧
       peek (poke 0x2000#16 0x21#8 s) 0x4000#16 = some 1 ∧
       peek (poke 0x4000#16 0x01#8 (poke 0x2000#16 0x02#8 s)) 0x4000#16 = some 0x22 ∧
       peek (poke 0x6000#16 0x01#8 (poke 0x4000#16 0x01#8 s)) 0x0000#16 = some 0x20 ∧
       peek (poke 0x6000#16 0x00#8 (poke 0x4000#16 0x01#8 s)) 0x0000#16 = some 0x00)) = true := by decide

/-- VC.20 to VC.23, and the refused clock register (R113). -/
theorem test_mbc3 :
    (let s := cartOf (.mbc3 { ramEnable := false, romBank := 1, ramSel := 0 }) 8 32768 4
     decide (peek (poke 0x2000#16 0x00#8 s) 0x4000#16 = some 1 ∧ peek (poke 0x2000#16 0x07#8 s) 0x4000#16 = some 7) &&
     let t := poke 0xA000#16 0x66#8 (poke 0x4000#16 0x02#8 (poke 0x0000#16 0x0A#8 s))
     decide (peek t 0xA000#16 = some 0x66 ∧ peek (poke 0x4000#16 0x00#8 t) 0xA000#16 = some 0x00 ∧
       peek (poke 0x4000#16 0x08#8 t) 0xA000#16 = none ∧ peek (poke 0x4000#16 0x0D#8 t) 0xA000#16 = some 0xFF)) = true := by
  decide

/-- VJ.1 to VJ.4. -/
theorem test_joypad :
    peek State.reset 0xFF00#16 = some 0xCF ∧ peek (poke 0xFF00#16 0x30#8 State.reset) 0xFF00#16 = some 0xFF ∧
    peek (pressCross .right (poke 0xFF00#16 0x20#8 State.reset)) 0xFF00#16 = some 0xEE ∧
    (pressCross .right (poke 0xFF00#16 0x20#8 State.reset)).intr.ifReg = 0x11 ∧
    peek (pressButton .a (poke 0xFF00#16 0x20#8 State.reset)) 0xFF00#16 = some 0xEF ∧
    (pressButton .a (poke 0xFF00#16 0x20#8 State.reset)).intr.ifReg = 0x01 := by decide

/-- An image of 0x150 bytes, the title "TESTROM" at 0x0134 and zeros elsewhere. -/
def image : List Byte :=
  List.replicate 0x134 0x00#8 ++ [0x54#8, 0x45#8, 0x53#8, 0x54#8, 0x52#8, 0x4F#8, 0x4D#8] ++ List.replicate 0x15 0x00#8

/-- VC.25, VC.26. -/
theorem test_header :
    titleOf image = [0x54#8, 0x45#8, 0x53#8, 0x54#8, 0x52#8, 0x4F#8, 0x4D#8] ∧
    (match buildCartridge image with
      | .next c => decide (c.mapper = .romOnly ∧ c.romBanks = 2 ∧ c.ramBytes = 0)
      | .fault _ => false
      | .refused _ => false) = true ∧
    (match buildCartridge (List.replicate 0x100 0x00#8) with
      | .refused r => decide (r = .imageTooShort 0x100)
      | .next _ => false
      | .fault _ => false) = true := by decide

/-- R432, D43: with a fault recorded and a frame ended RunOneFrame() gives the fault; a step that records one ends it too. -/
theorem test_frame_fault :
    (let s := { State.reset with
       fault := some (.unknownOpcode 0xD3#8 0x0100#16), ppu := { State.reset.ppu with endOfFrame := true } }
     decide (runOneFrame 0 s = .fault (.unknownOpcode 0xD3#8 0x0100#16) s)) = true ∧
    (match runOneFrame 2 (board [0x00#8, 0xED#8] 0 0 0 0 0xFFFE#16 []) with
      | .fault r t => decide (r = .unknownOpcode 0xED#8 0x0101#16 ∧ t.cpu.pc = 0x0102#16)
      | .frame _ _ => false
      | .refused _ => false
      | .unfinished _ => false) = true := ⟨rfl, by decide⟩

/-! ### Placing a word for the next fetch -/

/-- The word placed is what `step` fetches and runs from reset: CALL 0x1234, BIT 7,H, an illegal byte. -/
theorem test_fetch_word :
    after (State.reset.withFetchWord 24 0x1234CD) 6 (fun t => decide (t.cpu.pc = 0x1234 ∧ t.cpu.sp = 0xFFFC)) = true ∧
    after (State.reset.withFetchWord 16 0xCB7C) 2 (fun t => decide (regF t.cpu = 0xA0)) = true ∧
    after (State.reset.withFetchWord 8 0xED) 1 (fun t => decide (t.fault = some (.unknownOpcode 0xED 0x0100))) = true := by
  decide

/-- It wakes a halted machine, and moves PC to work RAM where the present PC is no plain memory. -/
theorem test_fetch_word_moved :
    (let s : State := { State.reset with cpu := { State.reset.cpu with halted := true, pc := 0xFF03#16 } }
     after (s.withFetchWord 16 0x423E) 2 (fun t => decide (regA t.cpu = 0x42 ∧ t.cpu.pc = 0xC002))) = true := by decide

/-! ### Witnesses: states and operands that meet the hypotheses of the statements -/

/-- DecodeEncode. -/
theorem witness_wf :
    (Instr.setBMemHl 7).wf = true ∧ Instr.setBMemHl 7 ≠ .prefixCb ∧ (Instr.rstT 0x38#8).wf = true ∧
    (Instr.rstT 0x00#8).wf = true := by decide

/-- EncodeDecode: STOP with another second byte, a CB form, the bare prefix. -/
theorem witness_decode :
    decode [0x10#8, 0x77#8] = .ok .stop ∧ decode [0xCB#8, 0xFF#8, 0x00#8] = .ok (.setBR 7 .a) ∧
    decode [0xCB#8] = .ok .prefixCb := ⟨rfl, rfl, rfl⟩

/-- StepRunsDecoded: LD A,n at 0x0100, and STOP. -/
theorem witness_step :
    (let s := board [0x3E#8, 0x42#8] 0 0 0 0 0xFFFE#16 []
     decode [0x3E#8, 0x42#8] = .ok (.ldRN .a 0x42#8) ∧ [0x3E#8, 0x42#8].length = (fetchedBytes (.ldRN .a 0x42#8)).length ∧
     s.fault = none ∧ s.cpu.halted = false ∧ s.cpu.haltBugArmed = false ∧ Fetches s s.cpu.pc [0x3E#8, 0x42#8]) ∧
    (let s := board [0x10#8] 0 0 0 0 0xFFFE#16 []
     decode [0x10#8] = .ok .stop ∧ [0x10#8].length = (fetchedBytes .stop).length ∧ Fetches s s.cpu.pc [0x10#8]) := by
  refine ⟨⟨rfl, rfl, rfl, rfl, rfl, ?_⟩, ⟨rfl, rfl, ?_⟩⟩
  · intro k b h
    match k with
    | 0 => cases h; rfl
    | 1 => cases h; rfl
    | _ + 2 => cases h
  · intro k b h
    match k with
    | 0 => cases h; rfl
    | _ + 1 => cases h

/-- DoubleFetch: LD A,n whose operand is its own opcode byte, and INC A with no operand. -/
theorem witness_double_fetch :
    (let s := board [0x3E#8] 0 0 0 0 0xFFFE#16 []
     let s := withCpu s { s.cpu with haltBugArmed := true }
     decode [0x3E#8, 0x3E#8] = .ok (.ldRN .a 0x3E#8) ∧ [0x3E#8].length + 1 = (fetchedBytes (.ldRN .a 0x3E#8)).length ∧
     s.fault = none ∧ s.cpu.halted = false ∧ s.cpu.haltBugArmed = true ∧ memRead (tick s) s.cpu.pc = .next 0x3E#8 ∧
     Fetches (tick s) s.cpu.pc [0x3E#8]) ∧
    (let s := board [0x3C#8] 0 0 0 0 0xFFFE#16 []
     let s := withCpu s { s.cpu with haltBugArmed := true }
     decode [0x3C#8] = .ok (.incR .a) ∧ memRead (tick s) s.cpu.pc = .next 0x3C#8 ∧ Fetches (tick s) s.cpu.pc []) := by
  refine ⟨⟨rfl, rfl, rfl, rfl, rfl, rfl, ?_⟩, ⟨rfl, rfl, nofun⟩⟩
  intro k b h
  match k with
  | 0 => cases h; rfl
  | _ + 1 => cases h

/-- An MBC3 with RAM enabled and the clock register `sel` selected, about to run LD A,(HL). -/
def clockBoard (sel : BitVec 4) (hl : Word) : State :=
  let s := board [0x7E#8] 0 0 0 hl 0xFFFE#16 []
  { s with cart := { s.cart with
      ramBytes := 32768, ramBanks := 4, mapper := .mbc3 { ramEnable := true, romBank := 1, ramSel := sel } } }

/-- StepStops: a refused step at both ends of the RAM window and of the clock registers, and a faulted machine. -/
theorem witness_stops :
    step (clockBoard 0x8 0xA000#16) = .refused (.mbc3ClockAccess 0xA000#16) ∧
    step (clockBoard 0xC 0xBFFF#16) = .refused (.mbc3ClockAccess 0xBFFF#16) ∧
    step { State.reset with fault := some (.unknownOpcode 0xD3#8 0x0100#16) } = .fault (.unknownOpcode 0xD3#8 0x0100#16) :=
  ⟨rfl, rfl, rfl⟩

/-- The statements with `accessible` premises (on one address or two): every address of a machine without a clock register
selected, and on an MBC3 with one the addresses around the RAM window. -/
theorem witness_accessible :
    accessible State.reset 0xA000#16 = true ∧ accessible State.reset 0xBFFF#16 = true ∧
    accessible State.reset (State.reset.cpu.sp - 1) = true ∧ accessible State.reset (State.reset.cpu.sp - 2) = true ∧
    accessible State.reset State.reset.cpu.sp = true ∧ accessible State.reset (State.reset.cpu.sp + 1) = true ∧
    accessible State.reset State.reset.cpu.pc = true ∧ accessible State.reset State.reset.cpu.hl = true ∧
    accessible (clockBoard 0x8 0x0000#16) 0x9FFF#16 = true ∧ accessible (clockBoard 0xC 0x0000#16) 0xC000#16 = true := by
  decide

/-- DaaCplScfCcf: both branches of DAA. -/
theorem witness_daa : flagN State.reset.cpu = false ∧ flagN (board [] 0x0040 0 0 0 0 []).cpu = true := by decide

/-- PairArithmetic: both instructions of its second clause. -/
theorem witness_pair (dd : Pair) : Instr.incDd dd = .incDd dd ∧ Instr.decDd dd = .decDd dd := ⟨rfl, rfl⟩

/-- CbShiftRegister, CbShiftMemory, MemoryLoads, MemoryStores: their lists are not empty. -/
theorem witness_forms :
    shiftForms.length = 8 ∧ (loadForms State.reset.cpu 0 0).length = 7 ∧ (storeForms State.reset.cpu .a 0 0).length = 9 ∧
    illegalForms.length = 11 := by decide

/-- The premise StoresOk. -/
theorem witness_storesOk : StoresOk (board [0x76#8] 0 0 0 0 0xD000#16 [(0xC000, 1#8), (0xFFFE, 2#8)]) :=
  ⟨by decide, by decide, by decide, by decide, by decide, by decide⟩

/-- PushPopRoundTrip: a stack in work RAM, and one that starts in echo RAM and ends in work RAM. -/
theorem witness_stack :
    (let s := board [0x76#8] 0 0 0 0 0xD000#16 [(0xC000, 1#8), (0xFFFE, 2#8)]
     locOf s (s.cpu.sp - 1) = some (.flat 0xCFFF) ∧ locOf s (s.cpu.sp - 2) = some (.flat 0xCFFE)) ∧
    (let s := board [] 0 0 0 0 0xE001#16 []
     locOf s (s.cpu.sp - 1) = some (.flat 0xC000) ∧ locOf s (s.cpu.sp - 2) = some (.flat 0xDFFF)) := by decide

/-- Jumps, Calls, Returns: each condition holds in one state and fails in another. -/
theorem witness_conditions :
    (∀ cc, Holds cc (board [] (match cc with | .nz => 0x0000 | .z => 0x0080 | .nc => 0x0000 | .c => 0x0010) 0 0 0 0 [])) ∧
    (∀ cc, ¬Holds cc (board [] (match cc with | .nz => 0x0080 | .z => 0x0000 | .nc => 0x0010 | .c => 0x0000) 0 0 0 0 [])) :=
  ⟨fun cc => by cases cc <;> rfl, fun cc h => by cases cc <;> cases h⟩

/-- EiLatency: a running machine with IME clear and bits 0 and 4 pending. -/
theorem witness_ei :
    (let s := withIntr (board [] 0 0 0 0 0xD000#16 []) 0x11 0x1F
     s.fault = none ∧ s.cpu.halted = false ∧ s.cpu.ime = false ∧ (s.intr.ifReg &&& s.intr.ieReg).getLsbD 0 = true ∧
     (s.intr.ifReg &&& s.intr.ieReg).getLsbD 4 = true ∧ accessible s (s.cpu.sp - 1) = true ∧
     accessible s (s.cpu.sp - 2) = true) := by decide

/-- IllegalOpcodes: a byte of each side of its first clause, and a machine about to fetch an illegal byte, with and without
the double fetch armed. -/
theorem witness_illegal :
    decode [0xFD#8, 0x00#8] = .ok .illegalFD ∧ (Instr.illegalFD, 0xFD#8) ∈ illegalForms ∧ 0xFD#8 ∈ illegalOpcodes ∧
    decode [0xD3#8] = .ok .illegalD3 ∧ (Instr.illegalD3, 0xD3#8) ∈ illegalForms ∧ 0xD3#8 ∈ illegalOpcodes ∧
    decode [0xD2#8, 0x00#8, 0x00#8] = .ok (.jpCcNn .nc 0x0000#16) ∧ 0xD2#8 ∉ illegalOpcodes ∧
    (let s := board [0xD3#8] 0 0 0 0 0xFFFE#16 []
     s.fault = none ∧ s.cpu.halted = false ∧ memRead (tick s) s.cpu.pc = .next 0xD3#8) ∧
    (let s := board [0xD3#8] 0 0 0 0 0xFFFE#16 []
     let s := withCpu s { s.cpu with haltBugArmed := true }
     s.fault = none ∧ s.cpu.halted = false ∧ memRead (tick s) s.cpu.pc = .next 0xD3#8) :=
  ⟨rfl, by decide, by decide, rfl, by decide, by decide, rfl, by decide, ⟨rfl, rfl, rfl⟩, ⟨rfl, rfl, rfl⟩⟩

/-- InterruptEntry: the lowest pending bit 0 and bit 4. -/
theorem witness_entry :
    (let s := withIme (withIntr (board [] 0 0 0 0 0xD000#16 []) 0x1F 0x1F) true
     s.cpu.ime = true ∧ (s.intr.ifReg &&& s.intr.ieReg).getLsbD 0 = true ∧
     (∀ j, j < 0 → (s.intr.ifReg &&& s.intr.ieReg).getLsbD j = false) ∧ accessible s (s.cpu.sp - 1) = true ∧
     accessible s (s.cpu.sp - 2) = true) ∧
    (let s := withIme (withIntr (board [] 0 0 0 0 0xD000#16 []) 0x1F 0x10) true
     s.cpu.ime = true ∧ (s.intr.ifReg &&& s.intr.ieReg).getLsbD 4 = true ∧
     (∀ j, j < 4 → (s.intr.ifReg &&& s.intr.ieReg).getLsbD j = false) ∧ accessible s (s.cpu.sp - 1) = true ∧
     accessible s (s.cpu.sp - 2) = true) := by
  refine ⟨⟨rfl, rfl, fun j h => absurd h (Nat.not_lt_zero j), rfl, rfl⟩, ⟨rfl, rfl, ?_, rfl, rfl⟩⟩
  decide

/-- ServiceWithoutEntry: nothing pending; IME clear and running; the wake; a halted machine. -/
theorem witness_service :
    (let s := withIntr State.reset 0x01 0x00; s.intr.ifReg &&& s.intr.ieReg = 0) ∧
    (State.reset.cpu.ime = false ∧ State.reset.cpu.halted = false) ∧
    (let s := withIntr (withCpu State.reset { State.reset.cpu with halted := true }) 0x10 0x10
     s.intr.ifReg &&& s.intr.ieReg ≠ 0 ∧ s.cpu.ime = false ∧ s.cpu.halted = true ∧ s.fault = none) := by decide

/-- TimingTable, EveryInstructionCompletes: an instruction that completes, on an MBC3 too. -/
theorem witness_completes :
    Instr.callNn 0x1234#16 ≠ .prefixCb ∧ (∃ t, exec (.callNn 0x1234#16) State.reset = .next t) ∧
    clockSelected State.reset.cart = false ∧ clockSelected (clockBoard 0x7 0).cart = false ∧
    clockSelected (clockBoard 0xD 0).cart = false := ⟨by decide, ⟨_, rfl⟩, rfl, rfl, rfl⟩

/-- WhoWritesCpuState: each piece of state is written by some instruction, and a service call completes. -/
theorem witness_writes :
    (∃ t, exec .reti State.reset = .next t ∧ t.cpu.ime ≠ State.reset.cpu.ime) ∧
    (∃ t, exec .ei State.reset = .next t ∧ t.cpu.eiScheduled ≠ State.reset.cpu.eiScheduled) ∧
    (∃ t, exec .halt State.reset = .next t ∧ t.cpu.halted ≠ State.reset.cpu.halted) ∧
    (∃ t, exec (.pushQq .bc) State.reset = .next t ∧ t.cpu.sp ≠ State.reset.cpu.sp) ∧
    (∃ t, exec .illegalD3 State.reset = .next t ∧ t.fault ≠ State.reset.fault) ∧
    (∃ t, interruptServiceRoutine State.reset = .next t) := by
  refine ⟨?_, ?_, ?_, ?_, ?_, ⟨_, rfl⟩⟩ <;> exact ⟨_, rfl, by decide⟩

/-- StepKeepsRom: a step that answers a next state. -/
theorem witness_step_next : ∃ t, step State.reset = .next t := ⟨_, rfl⟩

/-- The machine of the lockout clauses: the parameter set, the display on. -/
def lockedBoard (mode : PpuMode) : State :=
  { State.reset with
    config := { State.reset.config with ppuAccessLockout := true }
    ppu := { State.reset.ppu with lcdc := 0x80#8, mode := mode } }

/-- StoreThenLoad: a store to each kind of plain memory (with `witness_storesOk`), a write to ROM, and the lockout at the ends of
VRAM and OAM. -/
theorem witness_store :
    (let s := board [0x76#8] 0 0 0 0 0xD000#16 [(0xC000, 1#8), (0xFFFE, 2#8)]
     storedLoc s 0x8000#16 = some (.vram 0x8000) ∧ storedLoc s 0xE000#16 = some (.flat 0xC000) ∧
     storedLoc s 0xFE9F#16 = some (.oam 0xFE9F) ∧ storedLoc s 0xFFFE#16 = some (.flat 0xFFFE)) ∧
    (0x7FFF#16).toNat < 0x8000 ∧
    (let s := lockedBoard .vramRead
     s.config.ppuAccessLockout = true ∧ s.ppu.lcdc.getLsbD 7 = true ∧ s.ppu.mode = .vramRead ∧
     0x8000 ≤ (0x8000#16).toNat ∧ (0x9FFF#16).toNat < 0xA000) ∧
    (let s := lockedBoard .oamRead
     s.ppu.mode = .oamRead ∧ 0xFE00 ≤ (0xFE00#16).toNat ∧ (0xFE9F#16).toNat < 0xFEA0) := by decide

/-- EchoRam: both ends of its range. -/
theorem witness_echo :
    0xE000 ≤ (0xE000#16).toNat ∧ (0xE000#16).toNat ≤ 0xFDFF ∧ 0xE000 ≤ (0xFDFF#16).toNat ∧ (0xFDFF#16).toNat ≤ 0xFDFF := by
  decide

/-- PpuRegisters: an address of its list and another at or above 0xFF00. -/
theorem witness_ppu_registers :
    0xFF4B#16 ∈ [0xFF40#16, 0xFF42#16, 0xFF43#16, 0xFF45#16, 0xFF47#16, 0xFF48#16, 0xFF49#16, 0xFF4A#16, 0xFF4B#16] ∧
    0xFF00 ≤ (0xFFFF#16).toNat ∧ 0xFFFF#16 ≠ 0xFF4B#16 ∧ 0xFF40#16 ≠ 0xFF41#16 := by decide

/-- Joypad: a state after a press, and key lines 0 and 3. -/
theorem witness_joypad (s : State) :
    (pressCross .down s = pressCross .down s ∨ pressCross .down s = pressButton .start s) ∧
    (0 < 4 ∧ crossBit .right = 0) ∧ (3 < 4 ∧ buttonBit .start = 3) := ⟨.inl rfl, by decide, by decide⟩

/-- TimerOverflow, and TimerPeriod for each rate; out of step, by a TAC write that disables the timer or selects another bit, and
with no edge; the timer disabled. -/
theorem witness_timer :
    (let t := overflowing
     t.edgeMemo = true ∧ t.tima = 0xFF#8 ∧ t.pendingOverflow = false ∧
     timerSignal { t with divCounter := t.divCounter + 4 } = false) ∧
    (∀ k : Fin 4,
      let t : Timer := { overflowing with tac := BitVec.ofNat 3 (4 + k.val), tima := 0xFE, divCounter := 0xFFFF }
      t.tac.getLsbD 2 = true ∧ t.edgeMemo = timerSignal t ∧ t.pendingOverflow = false ∧ t.tima ≠ 0xFF#8 ∧
      t.tac.toNat % 4 = k.val) ∧
    (let t := { overflowing with divCounter := 0x0008 }
     t.pendingOverflow = false ∧ t.edgeMemo = true ∧ timerSignal { t with tac := 0x1 } = false ∧
     timerSignal { t with tac := 0x4 } = false ∧ timerSignal { t with divCounter := 0x000C, tac := 0x5 } = true) ∧
    (let t := { overflowing with tac := 0x1, edgeMemo := false }
     t.tac.getLsbD 2 = false ∧ t.edgeMemo = false ∧ t.pendingOverflow = false) := by decide

/-- PpuRequests, FrameTiming, DisplayOff: a display off, one on from before, one just turned on; clock 0 of line 144
is reached, in this frame and, from the clock after it, in the next. -/
theorem witness_ppu :
    (lcdOn State.reset.ppu = false ∧ State.reset.ppu.offClock < 70224) ∧
    (let p := scanAt 143 455 .hblank
     lcdOn p = true ∧ p.lcdWasOn = true ∧ p.line < 154 ∧ p.lineClock < 456 ∧ 1 < 2 ∧
     (frameClock p + 1) % 70224 = 65664) ∧
    (let p := scanAt 144 1 .vblank
     lcdOn p = true ∧ p.lcdWasOn = true ∧ p.line < 154 ∧ p.lineClock < 456 ∧ 70223 < 70224 ∧
     (frameClock p + 70223) % 70224 = 65664) ∧
    (let p := { scanAt 0 0 .hblank with lcdWasOn := false }; lcdOn p = true ∧ p.lcdWasOn = false) ∧
    (let p := { scanAt 100 7 .hblank with lcdc := 0 }; lcdOn p = false ∧ p.offClock < 70224 ∧ p.lcdWasOn = true) := by decide

/-- BitResSet, DrawTransposes, TickFrame, PpuRequests: their ranges at both ends, and a request bit that is set. -/
theorem witness_ranges :
    (0 < 8 ∧ 7 < 8) ∧ (0 < 160 ∧ 159 < 160 ∧ 0 < 144 ∧ 143 < 144) ∧ State.reset.intr.ifReg.getLsbD 0 = true ∧
    (2 ≤ 2 ∧ 2 ≤ 4) := by decide

/-- ColumnSchedule: the first and the last column, and the clocks on either side of them. -/
theorem witness_column :
    (let p := { scanAt 143 (92 + 5) .vramRead with mode3Scx := 5 }
     lcdOn p = true ∧ p.lcdWasOn = true ∧ p.line < 144 ∧ storeWfFrom 0 23040 p.pixels = true ∧ p.mode = .vramRead ∧
     p.lineClock = 92 + p.mode3Scx.toNat + 0) ∧
    (let p := { scanAt 0 (251 + 7) .vramRead with mode3Scx := 7 }
     p.mode = .vramRead ∧ p.lineClock = 92 + p.mode3Scx.toNat + 159 ∧ ((159, 143) : Nat × Nat) ≠ (159, p.line)) ∧
    (let p := { scanAt 0 (91 + 7) .vramRead with mode3Scx := 7 }; p.lineClock < 92 + p.mode3Scx.toNat) ∧
    (let p := { scanAt 0 252 .hblank with mode3Scx := 0 }; 252 + p.mode3Scx.toNat ≤ p.lineClock) := by decide

/-- HaltedFrameEnds: just turned off, and at the last clock of the off frame; a faulted machine, and a step that records a
fault. -/
theorem witness_halted :
    (let s := withCpu State.reset { State.reset.cpu with halted := true }
     s.fault = none ∧ s.cpu.halted = true ∧ s.intr.ieReg = 0 ∧ lcdOn s.ppu = false ∧ s.ppu.offClock < 70224) ∧
    (let p := { State.reset.ppu with offClock := 70223 }; lcdOn p = false ∧ p.offClock < 70224) ∧
    (let s := board [0xED#8] 0 0 0 0 0xFFFE#16 []
     s.fault = none ∧ s.ppu.endOfFrame = false ∧
     ∃ t, step s = .next t ∧ t.fault = some (.unknownOpcode 0xED#8 0x0100#16)) := by
  refine ⟨by decide, by decide, rfl, rfl, ⟨_, rfl, by decide⟩⟩

/-- RomOnlyCartridge, Mbc1Cartridge, Mbc3Cartridge, Mbc5Cartridge: a machine of each kind, and both ends of each range. -/
theorem witness_cartridges :
    State.reset.cart.mapper = .romOnly ∧
    (∀ m, (cartOf (.mbc1 m) 64 32768 4).cart.mapper = .mbc1 m) ∧ (∀ m, (cartOf (.mbc3 m) 64 32768 4).cart.mapper = .mbc3 m) ∧
    (∀ m, (cartOf (.mbc5 m) 64 32768 4).cart.mapper = .mbc5 m) ∧
    (0x0000#16).toNat < 0x4000 ∧ (0x3FFF#16).toNat < 0x4000 ∧ 0x4000 ≤ (0x4000#16).toNat ∧ (0x7FFF#16).toNat < 0x8000 ∧
    0xA000 ≤ (0xA000#16).toNat ∧ (0xBFFF#16).toNat < 0xC000 :=
  ⟨rfl, fun _ => rfl, fun _ => rfl, fun _ => rfl, by decide, by decide, by decide, by decide, by decide, by decide⟩

/-- A header of zeros but for the type byte and the two size codes. -/
def imageOf (typ rom ram : Byte) : List Byte := List.replicate 0x147 0x00#8 ++ [typ, rom, ram] ++ List.replicate 6 0x00#8

/-- Construction, ConstructInv: a short image, an image of an unknown type, one of an unknown size code of each kind, one that
gives a board, a table with an inverted range, and addresses at the ends of the regions a draw fills. -/
theorem witness_construct :
    (List.replicate 0x14F 0x00#8).length < 0x150 ∧
    (0x150 ≤ (imageOf 0x04 0x00 0x00).length ∧ ¬∃ m, (0x04#8, m) ∈ mapperTable) ∧
    (0x150 ≤ (imageOf 0x1E 0x09 0x00).length ∧ (∃ m, (0x1E#8, m) ∈ mapperTable) ∧ ¬∃ n, (0x09#8, n) ∈ romSizeTable) ∧
    ((∃ n, (0x54#8, n) ∈ romSizeTable) ∧ ¬∃ n k, (0x06#8, n, k) ∈ ramSizeTable) ∧
    (∃ n k, (0x05#8, n, k) ∈ ramSizeTable) ∧
    (∃ s, construct (imageOf 0x1E 0x54 0x05) Draws.zero = .next s) ∧
    (∃ r ∈ ([⟨0xFF10, 0xFF0F, .serial⟩] : List MmioRange), r.high < r.low) ∧
    (0x8000 ≤ (0x9FFF#16).toNat ∧ (0x9FFF#16).toNat < 0xA000 ∧ 0xC000 ≤ (0xFEFF#16).toNat ∧ (0xFEFF#16).toNat < 0xFF00 ∧
      0xFF00 ≤ (0xFF46#16).toNat ∧ route 0xFF46#16 = none ∧ route 0xFFFE#16 = none) := by
  refine ⟨by decide, ⟨by decide, ?_⟩, ⟨by decide, ⟨_, List.mem_of_getElem? (i := 14) rfl⟩, ?_⟩, ⟨⟨96, by decide⟩, ?_⟩,
    ⟨65536, 8, by decide⟩, ⟨_, rfl⟩, by decide, by decide⟩ <;> simp [mapperTable, romSizeTable, ramSizeTable]

/-- StepKeepsInv: a state of the invariant that takes a step. -/
theorem witness_inv :
    (let s := board [0x76#8] 0x01B0 0x0013 0x00D8 0x014D 0xFFFE#16 [(0xC000, 1#8)]; Inv s ∧ ∃ t, step s = .next t) := by
  refine ⟨⟨⟨by decide, by decide, by decide, by decide, by decide, by decide⟩,
    ⟨by decide, by decide, by decide, fun _ => ⟨rfl, rfl, rfl, rfl⟩, nofun, nofun⟩,
    ⟨by decide, rfl, rfl, ⟨_, rfl, rfl⟩, nofun, nofun⟩,
    ⟨rfl, rfl, fun _ => rfl⟩⟩, ⟨_, rfl⟩⟩

end Sys2Proof.Tests
end

section
/-! PROOFS. PUSH and POP (O22): the two directions of the stack follow from what `push16` and `pop16` do (R333, R334). -/

namespace Sys2Proof.Machine

/-! ### The pairs of R145 as registers -/

@[simp] theorem getStackPair_setStackPair_same (c : Cpu) (qq : StackPair) (w : Word) :
    getStackPair (setStackPair c qq w) qq = if qq = .af then w &&& 0xFFF0#16 else w := by
  cases qq <;> rfl

theorem getStackPair_setStackPair_ne (c : Cpu) {qq q : StackPair} (w : Word) (h : q ≠ qq) :
    getStackPair (setStackPair c qq w) q = getStackPair c q := by
  cases qq <;> cases q <;> first | rfl | exact absurd rfl h

@[simp] theorem getStackPair_setSp (s : State) (w : Word) (q : StackPair) :
    getStackPair (setSp s w).cpu q = getStackPair s.cpu q := by
  cases q <;> rfl

/-- A write of a stack pair touches the four pairs alone. -/
theorem setStackPair_frame (c : Cpu) (qq : StackPair) (w : Word) :
    setStackPair c qq w =
      { c with
        af := (setStackPair c qq w).af, bc := (setStackPair c qq w).bc
        de := (setStackPair c qq w).de, hl := (setStackPair c qq w).hl } := by
  cases qq <;> rfl

/-! ### The two bodies -/

/-- PUSH is a cycle and then a push of the pair (R333). -/
theorem exec_pushQq (s : State) (qq : StackPair) :
    exec (.pushQq qq) s = push16 (getStackPair s.cpu qq) (ticks 1 s) := rfl

/-- POP's state: the two cycles of the pop, SP past both bytes, the pair written (R334). -/
def afterPop (s : State) (qq : StackPair) (w : Word) : State :=
  let t := setSp (ticks 2 s) (s.cpu.sp + 2)
  withCpu t (setStackPair t.cpu qq w)

/-- POP reads both bytes where they are accessible (R334). -/
theorem exec_popQq {s : State} (qq : StackPair) (hlo : accessible s s.cpu.sp = true)
    (hhi : accessible s (s.cpu.sp + 1) = true) : ∃ w, Pops s w ∧ exec (.popQq qq) s = .next (afterPop s qq w) := by
  obtain ⟨w, hw, hpop⟩ := pop16_pops hlo hhi
  refine ⟨w, hw, ?_⟩
  change execPopQq qq s = _
  rw [execPopQq, hpop, andThen_next]
  rfl

theorem afterPop_pair (s : State) (qq : StackPair) (w : Word) :
    getStackPair (afterPop s qq w).cpu qq = if qq = .af then w &&& 0xFFF0#16 else w :=
  getStackPair_setStackPair_same ..

theorem afterPop_otherPair (s : State) {qq q : StackPair} (w : Word) (h : q ≠ qq) :
    getStackPair (afterPop s qq w).cpu q = getStackPair s.cpu q := by
  rw [afterPop, withCpu_cpu, getStackPair_setStackPair_ne _ _ h, getStackPair_setSp, ticks_cpu]

theorem afterPop_sameMemory (s : State) (qq : StackPair) (w : Word) : SameMemory s (afterPop s qq w) :=
  fun l => by simp [afterPop, setSp_eq_withCpu]

theorem afterPop_frame (s : State) (qq : StackPair) (w : Word) :
    let t := afterPop s qq w
    t = { ticks 2 s with
      cpu := { s.cpu with af := t.cpu.af, bc := t.cpu.bc, de := t.cpu.de, hl := t.cpu.hl, sp := s.cpu.sp + 2 } } :=
  congrArg (withCpu (ticks 2 s)) (setStackPair_frame _ qq w)

/-- Settles O22: PUSH through `push16_pushes`, POP through `pop16_pops` and the frame of a pair write. -/
theorem pushPop : Obligations.PushPop := by
  unfold Obligations.PushPop
  intro s qq
  constructor
  · intro hhi hlo
    rw [exec_pushQq]
    exact push16_pushes 1 _ hhi hlo
  · intro hlo hhi
    obtain ⟨w, hw, he⟩ := exec_popQq qq hlo hhi
    exact ⟨w, _, hw, he, afterPop_pair s qq w, fun q hq => afterPop_otherPair s w hq, afterPop_sameMemory s qq w,
      afterPop_frame s qq w⟩

end Sys2Proof.Machine
end

section
/-! PROOFS. Construction (O57): the header's three codes against the tables of R92 to R94, the outcomes of construction, and
what the bus reads of a board at reset. -/

namespace Sys2Proof.Machine

/-! ### The header's codes (R92 to R94) -/

theorem mapperOfType_eq_some_iff {t : Byte} {m : Mapper} : mapperOfType t = some m ↔ (t, m) ∈ mapperTable := by
  constructor
  · unfold mapperOfType
    dsimp only
    split_ifs with hRom h1 h3 h5 <;> rintro ⟨⟩
    · have ht : t = 0x00#8 := by bv_omega
      simp [mapperTable, ht]
    · have ht : t = 0x01#8 ∨ t = 0x02#8 ∨ t = 0x03#8 := by bv_omega
      simpa [mapperTable] using ht
    · have ht : t = 0x0F#8 ∨ t = 0x10#8 ∨ t = 0x11#8 ∨ t = 0x12#8 ∨ t = 0x13#8 := by bv_omega
      simpa [mapperTable] using ht
    · have ht : t = 0x19#8 ∨ t = 0x1A#8 ∨ t = 0x1B#8 ∨ t = 0x1C#8 ∨ t = 0x1D#8 ∨ t = 0x1E#8 := by bv_omega
      simpa [mapperTable] using ht
  · intro h
    fin_cases h <;> rfl

theorem romBankCount_eq_some_iff {code : Byte} {n : Nat} : romBankCount code = some n ↔ (code, n) ∈ romSizeTable := by
  constructor
  · unfold romBankCount
    dsimp only
    split_ifs with hPow h72 h80 h96 <;> rintro ⟨⟩
    · obtain ⟨k, hk, rfl⟩ : ∃ k, k ≤ 8 ∧ code = BitVec.ofNat 8 k := ⟨code.toNat, hPow, by simp⟩
      interval_cases k <;> decide
    · have hc : code = 0x52#8 := by bv_omega
      simp [romSizeTable, hc]
    · have hc : code = 0x53#8 := by bv_omega
      simp [romSizeTable, hc]
    · have hc : code = 0x54#8 := by bv_omega
      simp [romSizeTable, hc]
  · intro h
    fin_cases h <;> rfl

theorem ramSizeOf_eq_some_iff {code : Byte} {r : Nat × Nat} :
    ramSizeOf code = some r ↔ (code, r.1, r.2) ∈ ramSizeTable := by
  constructor
  · intro h
    have hc : code.toNat < 6 := by
      by_contra hge
      unfold ramSizeOf at h
      split at h
      case h_7 => cases h
      all_goals omega
    obtain ⟨k, hk, rfl⟩ : ∃ k, k < 6 ∧ code = BitVec.ofNat 8 k := ⟨code.toNat, hc, by simp⟩
    interval_cases k <;> cases h <;> decide
  · obtain ⟨n, k⟩ := r
    intro h
    fin_cases h <;> rfl

/-! ### The outcomes of construction (R90, R431, R520) -/

section Outcomes

variable {image : List Byte} (d : Draws)

theorem construct_short (h : image.length < 0x150) : construct image d = .refused (.imageTooShort image.length) := by
  rw [construct, constructWith, buildCartridge, if_pos h]

/-- The type byte is looked at before the sizes. -/
theorem construct_unknownType (hl : 0x150 ≤ image.length) (ht : mapperOfType (image.getD 0x147 0) = none) :
    construct image d = .fault (.unsupportedCartridgeType (image.getD 0x147 0)) := by
  rw [construct, constructWith, buildCartridge, if_neg (by omega)]
  simp only [headerOf, ht]

theorem construct_unknownSize {m : Mapper} (hl : 0x150 ≤ image.length)
    (ht : mapperOfType (image.getD 0x147 0) = some m)
    (hs : romBankCount (image.getD 0x148 0) = none ∨ ramSizeOf (image.getD 0x149 0) = none) :
    ∃ r, construct image d = .refused r := by
  rw [construct, constructWith, buildCartridge, if_neg (by omega)]
  simp only [headerOf, ht]
  rcases hs with hb | hr
  · rw [hb]
    exact ⟨_, rfl⟩
  · rw [hr]
    cases romBankCount (image.getD 0x148 0) <;> exact ⟨_, rfl⟩

/-- This block's range table has no inverted range. -/
theorem badRange_rangeTable : badRange rangeTable = none := rfl

theorem construct_known {m : Mapper} {b : Nat} {r : Nat × Nat} (hl : 0x150 ≤ image.length)
    (ht : mapperOfType (image.getD 0x147 0) = some m) (hb : romBankCount (image.getD 0x148 0) = some b)
    (hr : ramSizeOf (image.getD 0x149 0) = some r) : ∃ s, construct image d = .next s := by
  rw [construct, constructWith, buildCartridge, if_neg (by omega)]
  simp only [headerOf, ht, hb, hr, badRange_rangeTable]
  exact ⟨_, rfl⟩

end Outcomes

/-- An inverted range is found (R72). -/
theorem badRange_ne_none {table : List MmioRange} (h : ∃ r ∈ table, r.high < r.low) : badRange table ≠ none := by
  induction table with
  | nil => simp at h
  | cons r t ih =>
    by_cases hr : r.high < r.low
    · simp [badRange, hr]
    · rw [badRange, if_neg hr]
      exact ih (by simpa [hr] using h)

/-- A table with an inverted range gives no board, whatever the image. -/
theorem constructWith_badRange {table : List MmioRange} (h : ∃ r ∈ table, r.high < r.low) (image : List Byte) (d : Draws)
    (s : State) : constructWith table image d ≠ .next s := by
  obtain ⟨r, hr⟩ := Option.ne_none_iff_exists'.mp (badRange_ne_none h)
  rw [constructWith, hr]
  cases buildCartridge image <;> nofun

/-! ### The stores of a board -/

/-- The ROM is the image, padded with 0xFF (R95). -/
theorem romByte_image (c : Cartridge) (image : List Byte) (hl : c.imageLength = image.length)
    (hr : c.rom = storeOfList 0 image) (i : Nat) : romByte c i = image.getD i 0xFF#8 := by
  rw [romByte, hl, hr]
  split
  · rename_i hi
    have h := storeRead_storeOfList 0 image i hi
    rw [Nat.zero_add] at h
    rw [h, List.getD_eq_getElem _ _ hi]
  · rename_i hi
    rw [List.getD_eq_default _ _ (by omega)]

/-- An address that no entry of a draw names is drawn as 0x00 (log 3). -/
theorem drawnByte_of_unlisted {l : List (Nat × Byte)} {a : Nat} (h : ∀ c ∈ l, c.1 ≠ a) : drawnByte l a = 0x00#8 := by
  induction l with
  | nil => rfl
  | cons c t ih =>
    rw [drawnByte, if_neg fun x => h c List.mem_cons_self x.1]
    exact ih fun e he => h e (List.mem_cons_of_mem c he)

/-- No draw reaches the addresses from 0xFF00 on (D6). -/
theorem drawFor_high (ram : List (Nat × Byte)) (o : Option Component) {a : Nat} (h : 0xFF00 ≤ a) :
    storeRead (drawFor ram o) a = 0x00#8 := by
  have hlt : ∀ c ∈ ram.filter (fun c =>
      decide (0x8000 ≤ c.1) && decide (c.1 < 0xFF00) && decide (routeIn rangeTable c.1 = o)), c.1 < 0xFF00 := by
    intro c hc
    simp only [List.mem_filter, Bool.and_eq_true, decide_eq_true_eq] at hc
    exact hc.2.1.2
  rw [drawFor, storeRead_storeOfEntries _ a 0xFF00 hlt]
  exact drawnByte_of_unlisted fun c hc => by have := hlt c hc; omega

/-! ### What the bus reads right after construction (R521) -/

/-! The registers of R521 that read back more than the bits they store. -/

theorem joypadRead_reset : joypadRead .reset = 0xCF#8 := by decide

theorem timerRead_reset_tac (divCounter : Word) : timerRead (.resetWith divCounter) 0xFF07#16 = 0xF8#8 := by
  simp [timerRead, Timer.resetWith]

theorem intrRead_reset_if : intrRead .reset 0xFF0F#16 = 0xE1#8 := by decide

theorem intrRead_reset_ie : intrRead .reset 0xFFFF#16 = 0xE0#8 := by decide

theorem statByte_reset (vram oam : Memory) : statByte (.resetWith vram oam) = 0x80#8 := by
  simp [statByte, Ppu.resetWith, modeCode]

theorem lcdOn_reset (vram oam : Memory) : lcdOn (.resetWith vram oam) = false := by
  simp [lcdOn, Ppu.resetWith]

section Reads

variable (cart : Cartridge) (d : Draws)

theorem boardWith_resetReads : ∀ r ∈ resetReads, memRead (boardWith cart d) r.1 = .next r.2 := by
  simp only [resetReads, List.forall_mem_cons]
  exact ⟨congrArg Host.Outcome.next joypadRead_reset, rfl, rfl, rfl, rfl,
    congrArg Host.Outcome.next (timerRead_reset_tac _), congrArg Host.Outcome.next intrRead_reset_if, rfl,
    congrArg Host.Outcome.next (statByte_reset _ _), rfl, rfl, rfl, rfl, rfl, rfl, rfl, rfl, rfl,
    congrArg Host.Outcome.next intrRead_reset_ie, nofun⟩

/-- The display is off at reset, so no access is locked out (R466, R470). -/
theorem boardWith_unlocked :
    vramLocked (boardWith cart d).config (boardWith cart d).ppu = false ∧
      oamLocked (boardWith cart d).config (boardWith cart d).ppu = false := by
  have hoff : lcdOn (boardWith cart d).ppu = false := lcdOn_reset _ _
  simp [vramLocked, oamLocked, hoff]

/-- At a board right after construction the bus reads the byte of plain memory behind an address. -/
theorem memRead_boardWith {a : Word} {l : Loc} (h : locOf (boardWith cart d) a = some l) :
    memRead (boardWith cart d) a = .next (readLoc (boardWith cart d) l) := by
  obtain ⟨hv, ho⟩ := boardWith_unlocked cart d
  exact memRead_of_locOf h (fun _ _ => hv) (fun _ _ => ho)

variable {a : Word}

theorem memRead_boardWith_vram (h : 0x8000 ≤ a.toNat) (h' : a.toNat < 0xA000) :
    memRead (boardWith cart d) a = .next (drawnByte d.ram a.toNat) := by
  have hr := route_vram h h'
  have hloc : locOf (boardWith cart d) a = some (.vram a.toNat) := by simp [locOf, hr, h']
  rw [memRead_boardWith cart d hloc, ← drawFor_read d.ram (some .ppu) a.toNat h (by omega) hr,
    ← storeRead_filter _ (fun n => decide (n < 0xA000)) a.toNat (by simpa using h')]
  rfl

theorem memRead_boardWith_oam (h : 0xFE00 ≤ a.toNat) (h' : a.toNat < 0xFEA0) :
    memRead (boardWith cart d) a = .next (drawnByte d.ram a.toNat) := by
  have hr := route_oam h h'
  have hloc : locOf (boardWith cart d) a = some (.oam a.toNat) := by
    simp [locOf, hr, show ¬a.toNat < 0xA000 by omega, show a.toNat < 0xFF00 by omega]
  rw [memRead_boardWith cart d hloc, ← drawFor_read d.ram (some .ppu) a.toNat (by omega) (by omega) hr,
    ← storeRead_filter _ (fun n => decide (0xFE00 ≤ n)) a.toNat (by simpa using h)]
  rfl

theorem memRead_boardWith_unclaimed (hr : route a = none) :
    memRead (boardWith cart d) a = .next (storeRead (drawFor d.ram none) a.toNat) := by
  have h := of_route_none hr
  have hloc : locOf (boardWith cart d) a = some (.flat a.toNat) := by
    simp [locOf, hr, show 0x8000 ≤ a.toNat by omega]
  exact memRead_boardWith cart d hloc

/-- The echo reads the draw of work RAM (R77). -/
theorem memRead_boardWith_echo (h : 0xE000 ≤ a.toNat) (h' : a.toNat < 0xFE00) :
    memRead (boardWith cart d) a = .next (drawnByte d.ram (a.toNat - 0x2000)) := by
  have hr := route_echo h h'
  have hloc : locOf (boardWith cart d) a = some (.flat (echoTarget a.toNat)) := by simp only [locOf, hr]
  have ht : (a - 0x2000#16).toNat = a.toNat - 0x2000 := by bv_omega
  have hw : route (a - 0x2000#16) = none := route_workRam (by omega) (by omega)
  rw [route, ht] at hw
  rw [memRead_boardWith cart d hloc, ← drawFor_read d.ram none _ (by omega) (by omega) hw]
  rfl

/-- VRAM, OAM, work RAM with its echo and the other unclaimed bytes below 0xFF00 read `INIT_RAM` (R49, R54). -/
theorem memRead_boardWith_drawn (h8 : 0x8000 ≤ a.toNat) (hw : a.toNat < 0xA000 ∨ 0xC000 ≤ a.toNat)
    (hF : a.toNat < 0xFF00) :
    memRead (boardWith cart d) a = .next (drawnByte d.ram
      (if 0xE000 ≤ a.toNat ∧ a.toNat < 0xFE00 then a.toNat - 0x2000 else a.toNat)) := by
  by_cases he : 0xE000 ≤ a.toNat ∧ a.toNat < 0xFE00
  · rw [if_pos he]
    exact memRead_boardWith_echo cart d he.1 he.2
  · rw [if_neg he]
    by_cases hv : a.toNat < 0xA000
    · exact memRead_boardWith_vram cart d h8 hv
    · by_cases ho : 0xFE00 ≤ a.toNat ∧ a.toNat < 0xFEA0
      · exact memRead_boardWith_oam cart d ho.1 ho.2
      · have hr : route a = none := by
          rcases Nat.lt_or_ge a.toNat 0xE000 with hlt | hge
          · exact route_workRam (by omega) hlt
          · exact route_belowIo (by omega) hF
        rw [memRead_boardWith_unclaimed cart d hr, drawFor_read d.ram none a.toNat h8 hF hr]

/-- Unclaimed bytes from 0xFF00 on are 0 at reset (R54). -/
theorem memRead_boardWith_high (hF : 0xFF00 ≤ a.toNat) (hr : route a = none) :
    memRead (boardWith cart d) a = .next 0x00#8 := by
  rw [memRead_boardWith_unclaimed cart d hr, drawFor_high d.ram none hF]

end Reads

/-- No key is down at reset (R50). -/
theorem keyDown_released (k : Nat) : keyDown .released k = false := by
  unfold keyDown
  split <;> rfl

/-- Settles O57: the outcomes by the three table lookups, the items of a board from `construct_next` and its reads. -/
theorem construction : Obligations.Construction := by
  unfold Obligations.Construction
  intro image d
  refine ⟨construct_short d, fun hl ht => construct_unknownType d hl ?_, ?_, ?_,
    fun table h => constructWith_badRange h image d, ?_⟩
  · exact Option.eq_none_iff_forall_ne_some.mpr fun m hm => ht ⟨m, mapperOfType_eq_some_iff.mp hm⟩
  · rintro hl ⟨m, hm⟩ hs
    refine construct_unknownSize d hl (mapperOfType_eq_some_iff.mpr hm) (hs.imp ?_ ?_)
    · exact fun hrom => Option.eq_none_iff_forall_ne_some.mpr fun n hn => hrom ⟨n, romBankCount_eq_some_iff.mp hn⟩
    · exact fun hram => Option.eq_none_iff_forall_ne_some.mpr fun r hr => hram ⟨r.1, r.2, ramSizeOf_eq_some_iff.mp hr⟩
  · rintro hl ⟨m, hm⟩ ⟨n, hn⟩ ⟨b, k, hr⟩
    exact construct_known d hl (mapperOfType_eq_some_iff.mpr hm) (romBankCount_eq_some_iff.mpr hn)
      (ramSizeOf_eq_some_iff (r := (b, k)).mpr hr)
  · intro s hs
    obtain ⟨m, b, r, -, hm, hb, hr, rfl⟩ := construct_next image d s hs
    exact ⟨rfl, rfl, rfl, rfl, rfl, rfl, fun _ _ => rfl, rfl, fun k => ⟨keyDown_released k, keyDown_released k⟩,
      fun a v h => boardWith_resetReads _ d (a, v) h, fun _ h8 hw hF => memRead_boardWith_drawn _ d h8 hw hF,
      fun _ hF hroute => memRead_boardWith_high _ d hF hroute, fun _ => rfl, romByte_image _ image rfl rfl,
      rfl, rfl, rfl, rfl, mapperOfType_eq_some_iff.mp hm, romBankCount_eq_some_iff.mp hb,
      ramSizeOf_eq_some_iff.mp hr⟩

end Sys2Proof.Machine
end

section
/-! PROOFS. What a step is made of: `Runs`, a run of machine cycles with the bus writes and the CPU's own changes between
them, and what every run keeps of the machine. -/

namespace Sys2Proof.Machine

/-- `Runs P n s t`: from `s` to `t` in `n` machine cycles (R172), by ticks, bus writes and changes of the CPU, the interrupt
registers and the fault; each of these last relates the state before it to the state after it by `P`. -/
inductive Runs (P : State → State → Prop) : Nat → State → State → Prop
  | start (s : State) : Runs P 0 s s
  | tick {n : Nat} {s t : State} (h : Runs P n s t) : Runs P (n + 1) s (tick t)
  | write {n : Nat} {s t u : State} {a : Word} {v : Byte} (h : Runs P n s t) (hw : memWrite t a v = .next u) : Runs P n s u
  | own {n : Nat} {s t : State} (h : Runs P n s t) (c : Cpu) (i : Intr) (f : Option Fault)
      (hP : P t { t with cpu := c, intr := i, fault := f }) : Runs P n s { t with cpu := c, intr := i, fault := f }

section Composition

variable {P Q : State → State → Prop} {n m : Nat} {s t u : State}

theorem Runs.trans (h : Runs P n s t) (k : Runs P m t u) : Runs P (n + m) s u := by
  induction k with
  | start => exact h
  | tick _ ih => exact (ih h).tick
  | write _ hw ih => exact (ih h).write hw
  | own _ c i f hP ih => exact (ih h).own c i f hP

theorem Runs.mono (hPQ : ∀ s t, P s t → Q s t) (h : Runs P n s t) : Runs Q n s t := by
  induction h with
  | start s => exact .start s
  | tick _ ih => exact ih.tick
  | write _ hw ih => exact ih.write hw
  | own _ c i f hP ih => exact ih.own c i f (hPQ _ _ hP)

theorem Runs.ticks (n : Nat) (s : State) : Runs P n s (ticks n s) := by
  induction n with
  | zero => exact .start s
  | succ n ih => rw [ticks_succ']; exact ih.tick

/-- A preorder on states that looks at the CPU and the fault alone holds from end to end where each change meets it. -/
theorem Runs.related (hsame : ∀ s t, t.cpu = s.cpu → t.fault = s.fault → P s t)
    (htrans : ∀ s t u, P s t → P t u → P s u) (h : Runs P n s t) : P s t := by
  induction h with
  | start s => exact hsame s s rfl rfl
  | tick _ ih => exact htrans _ _ _ ih (hsame _ _ rfl rfl)
  | write _ hw ih =>
    have frame := memWrite_frame hw
    exact htrans _ _ _ ih (hsame _ _ frame.cpu frame.fault)
  | own _ c i f hP ih => exact htrans _ _ _ ih hP

end Composition

/-! ### What every run keeps -/

/-- What no step changes: the cartridge's header, ROM and sizes, the joypad's latch and the parameters. -/
structure SameBoard (s t : State) : Prop where
  header : t.cart.header = s.cart.header
  imageLength : t.cart.imageLength = s.cart.imageLength
  rom : t.cart.rom = s.cart.rom
  romBanks : t.cart.romBanks = s.cart.romBanks
  ramBytes : t.cart.ramBytes = s.cart.ramBytes
  ramBanks : t.cart.ramBanks = s.cart.ramBanks
  cross : t.joypad.cross = s.joypad.cross
  buttons : t.joypad.buttons = s.joypad.buttons
  config : t.config = s.config

theorem SameBoard.refl (s : State) : SameBoard s s := by constructor <;> rfl

theorem SameBoard.trans {s t u : State} (h : SameBoard s t) (k : SameBoard t u) : SameBoard s u where
  header := k.header.trans h.header
  imageLength := k.imageLength.trans h.imageLength
  rom := k.rom.trans h.rom
  romBanks := k.romBanks.trans h.romBanks
  ramBytes := k.ramBytes.trans h.ramBytes
  ramBanks := k.ramBanks.trans h.ramBanks
  cross := k.cross.trans h.cross
  buttons := k.buttons.trans h.buttons
  config := k.config.trans h.config

theorem WriteFrame.sameBoard {s t : State} (h : WriteFrame s t) : SameBoard s t :=
  ⟨h.header, h.imageLength, h.rom, h.romBanks, h.ramBytes, h.ramBanks, h.cross, h.buttons, h.config⟩

theorem tick_sameBoard (s : State) : SameBoard s (tick s) := by constructor <;> rfl

section Kept

variable {P : State → State → Prop} {n : Nat} {s t : State}

theorem Runs.sameBoard (h : Runs P n s t) : SameBoard s t := by
  induction h with
  | start s => exact .refl s
  | tick _ ih => exact ih.trans (tick_sameBoard _)
  | write _ hw ih => exact ih.trans (memWrite_frame hw).sameBoard
  | own _ _ _ _ _ ih => exact ih.trans (by constructor <;> rfl)

/-- A machine cycle is four clocks (R172). -/
theorem Runs.clock (h : Runs P n s t) : t.clock = s.clock + 4 * n := by
  induction h with
  | start => rfl
  | tick _ ih => rw [tick_clock, ih]; omega
  | write _ hw ih => rw [(memWrite_frame hw).clock, ih]
  | own _ _ _ _ _ ih => exact ih

end Kept

/-! ### The devices' part of the invariant -/

/-- The invariant less the CPU's part. -/
structure DevicesOk (s : State) : Prop where
  stores : StoresOk s
  scan : ScanOk s.config.line153Ly0At s.ppu
  cart : CartOk s.cart

theorem Inv.devices {s : State} (h : Inv s) : DevicesOk s := ⟨h.stores, h.scan, h.cart⟩

theorem DevicesOk.inv {s : State} (h : DevicesOk s) (hcpu : CpuOk s.cpu) : Inv s := ⟨h.stores, h.scan, h.cart, hcpu⟩

theorem SameScan.scanOk {p q : Ppu} (h : SameScan p q) {n : Nat} (hp : ScanOk n p) : ScanOk n q where
  line := by rw [h.line]; exact hp.line
  lineClock := by rw [h.lineClock]; exact hp.lineClock
  offClock := by rw [h.offClock]; exact hp.offClock
  off := by rw [h.lcdWasOn, h.line, h.lineClock, h.ly, h.mode]; exact hp.off
  ly := by rw [h.lcdWasOn, h.line, h.lineClock, h.ly]; exact hp.ly
  mode := by rw [h.lcdWasOn, h.line, h.lineClock, h.mode, h.mode3Scx]; exact hp.mode

/-- A control write selects no other mapper. -/
theorem sameKind_mapperWrite (k m : Mapper) (a : Nat) (v : Byte) : sameKind k (mapperWrite m a v) = sameKind k m := by
  cases m <;> cases k <;> rfl

/-- MBC1's five-bit bank register never comes to hold 0 (R101). -/
theorem mbc1Write_bank1_ne_zero {m : Mbc1} (a : Nat) (v : Byte) (h : m.bank1 ≠ 0) : (mbc1Write m a v).bank1 ≠ 0 := by
  unfold mbc1Write
  split_ifs with _ _ h0
  · exact h
  · exact (by decide : (1 : BitVec 5) ≠ 0)
  · exact h0
  · exact h
  · exact h

/-- MBC3's ROM bank register never comes to hold 0 (R111). -/
theorem mbc3Write_romBank_ne_zero {m : Mbc3} (a : Nat) (v : Byte) (h : m.romBank ≠ 0) :
    (mbc3Write m a v).romBank ≠ 0 := by
  unfold mbc3Write
  split_ifs with _ _ h0
  · exact h
  · exact (by decide : (1 : BitVec 7) ≠ 0)
  · exact h0
  · exact h
  · exact h

/-- A control write leaves the cartridge the one its header describes. -/
theorem mapperWrite_cartOk {c : Cartridge} (a : Nat) (v : Byte) (h : CartOk c) :
    CartOk { c with mapper := mapperWrite c.mapper a v } where
  image := h.image
  romBanks := h.romBanks
  ram := h.ram
  kind := by
    obtain ⟨k, hk, hs⟩ := h.kind
    exact ⟨k, hk, by rw [sameKind_mapperWrite]; exact hs⟩
  mbc1 := by
    intro m hm
    have h1 := h.mbc1
    cases hc : c.mapper with
    | mbc1 r =>
      simp only [hc, mapperWrite, Mapper.mbc1.injEq] at hm
      rw [← hm]
      exact mbc1Write_bank1_ne_zero a v (h1 r hc)
    | _ => simp [hc, mapperWrite] at hm
  mbc3 := by
    intro m hm
    have h3 := h.mbc3
    cases hc : c.mapper with
    | mbc3 r =>
      simp only [hc, mapperWrite, Mapper.mbc3.injEq] at hm
      rw [← hm]
      exact mbc3Write_romBank_ne_zero a v (h3 r hc)
    | _ => simp [hc, mapperWrite] at hm

theorem cartWrite_cartOk {c d : Cartridge} {a : Word} {v : Byte} (h : CartOk c) (hw : cartWrite c a v = .next d) :
    CartOk d := by
  obtain ⟨-, rfl⟩ | ⟨-, -, ⟨i, -, rfl⟩ | ⟨-, rfl⟩⟩ := cartWrite_cases hw
  · exact mapperWrite_cartOk a.toNat v h
  · exact ⟨h.image, h.romBanks, h.ram, h.kind, h.mbc1, h.mbc3⟩
  · exact h

theorem memWrite_cartOk {s t : State} {a : Word} {v : Byte} (h : CartOk s.cart) (hw : memWrite s a v = .next t) :
    CartOk t.cart := by
  obtain ⟨d, -, hd, rfl⟩ | ⟨-, rfl⟩ | ⟨-, rfl⟩ | ⟨-, rfl⟩ | ⟨-, rfl⟩ | ⟨-, rfl⟩ | ⟨-, rfl⟩ | ⟨-, rfl⟩ :=
    memWrite_cases hw
  · exact cartWrite_cartOk h hd
  all_goals exact h

theorem memWrite_devicesOk {s t : State} {a : Word} {v : Byte} (h : DevicesOk s) (hw : memWrite s a v = .next t) :
    DevicesOk t := by
  have frame := memWrite_frame hw
  refine ⟨memWrite_storesOk h.stores hw, ?_, memWrite_cartOk h.cart hw⟩
  rw [frame.config]
  exact frame.scan.scanOk h.scan

theorem tick_devicesOk {s : State} (h : DevicesOk s) : DevicesOk (tick s) :=
  ⟨tick_storesOk h.stores, tick_scanOk s h.scan, h.cart⟩

theorem Runs.devicesOk {P : State → State → Prop} {n : Nat} {s t : State} (hs : DevicesOk s) (h : Runs P n s t) :
    DevicesOk t := by
  induction h with
  | start => exact hs
  | tick _ ih => exact tick_devicesOk (ih hs)
  | write _ hw ih => exact memWrite_devicesOk (ih hs) hw
  | own _ _ _ _ _ ih =>
    obtain ⟨stores, scan, cart⟩ := ih hs
    exact ⟨⟨stores.flat, stores.vram, stores.oam, stores.rom, stores.ram, stores.pixels⟩, scan, cart⟩

end Sys2Proof.Machine
end

section
/-! PROOFS. What an instruction can do (R177): its body is a run of the machine cycles of R535, and of the CPU's own state it
changes no more than `MayChange` says. One lemma for each operation that bodies share, then one case for each family of
instructions. -/

namespace Sys2Proof.Machine

/-! ### The CPU state an instruction may write (R23 to R33) -/

/-- From `s` to `t`, instruction `i` is one that may write each piece of hidden CPU state, SP and the fault that differs. -/
structure MayChange (i : Instr) (s t : State) : Prop where
  ime : t.cpu.ime ≠ s.cpu.ime → i = .di ∨ i = .reti
  ei : t.cpu.eiScheduled ≠ s.cpu.eiScheduled → i = .di ∨ i = .ei
  halt : t.cpu.halted ≠ s.cpu.halted ∨ t.cpu.haltFresh ≠ s.cpu.haltFresh → i = .halt
  sp : t.cpu.sp ≠ s.cpu.sp → writesSp i = true
  fault : t.fault ≠ s.fault → ∃ op, (i, op) ∈ illegalForms
  armed : t.cpu.haltBugArmed = s.cpu.haltBugArmed
  opcodePc : t.cpu.opcodePc = s.cpu.opcodePc

theorem MayChange.of_same (i : Instr) (s t : State) (hc : t.cpu = s.cpu) (hf : t.fault = s.fault) : MayChange i s t := by
  constructor <;> simp [hc, hf]

theorem MayChange.trans (i : Instr) (s t u : State) (h : MayChange i s t) (k : MayChange i t u) : MayChange i s u where
  ime hne := (hne.ne_or_ne t.cpu.ime).elim k.ime fun e => h.ime e.symm
  ei hne := (hne.ne_or_ne t.cpu.eiScheduled).elim k.ei fun e => h.ei e.symm
  halt hne := by
    obtain hne | hne := hne
    · exact (hne.ne_or_ne t.cpu.halted).elim (fun e => k.halt (.inl e)) fun e => h.halt (.inl e.symm)
    · exact (hne.ne_or_ne t.cpu.haltFresh).elim (fun e => k.halt (.inr e)) fun e => h.halt (.inr e.symm)
  sp hne := (hne.ne_or_ne t.cpu.sp).elim k.sp fun e => h.sp e.symm
  fault hne := (hne.ne_or_ne t.fault).elim k.fault fun e => h.fault e.symm
  armed := k.armed.trans h.armed
  opcodePc := k.opcodePc.trans h.opcodePc

/-- `d` is `c` but for A, F, B, C, D, E, H, L and PC. -/
def RegsOnly (c d : Cpu) : Prop := d = { c with af := d.af, bc := d.bc, de := d.de, hl := d.hl, pc := d.pc }

theorem setReg_regsOnly (c : Cpu) (r : Reg8) (v : Byte) : RegsOnly c (setReg c r v) := by cases r <;> rfl

theorem setReg_setF_regsOnly (c : Cpu) (r : Reg8) (v fl : Byte) : RegsOnly c (setF (setReg c r v) fl) := by
  cases r <;> rfl

/-- `P` admits the changes that every instruction may make. -/
def AdmitsRegs (P : State → State → Prop) : Prop := ∀ s c, RegsOnly s.cpu c → P s (withCpu s c)

theorem mayChange_admitsRegs (i : Instr) : AdmitsRegs (MayChange i) := by
  intro s c h
  have e : withCpu s c = withCpu s { s.cpu with af := c.af, bc := c.bc, de := c.de, hl := c.hl, pc := c.pc } :=
    congrArg (withCpu s) h
  rw [e]
  constructor <;> simp

/-- `P` admits a write of SP. -/
def AdmitsSp (P : State → State → Prop) : Prop := ∀ s w, P s (setSp s w)

theorem mayChange_admitsSp {i : Instr} (h : writesSp i = true) : AdmitsSp (MayChange i) := by
  intro s w
  constructor <;> simp [h]

/-! ### Operations -/

/-- Whatever state `x` answers, it is reached from `s` in `n` machine cycles. -/
def Yields (P : State → State → Prop) (n : Nat) (s : State) (x : Result State) : Prop := ∀ t, x = .next t → Runs P n s t

section Operations

variable {P : State → State → Prop} {n m : Nat} {s : State} {x : Result State}

theorem Yields.next {t : State} (h : Runs P n s t) : Yields P n s (.next t) := by
  rintro _ ⟨⟩; exact h

/-- First a change that takes no cycle, then the rest. -/
theorem Yields.after {t : State} (h : Runs P 0 s t) (k : Yields P n t x) : Yields P n s x := by
  intro u hu
  rw [← Nat.zero_add n]
  exact h.trans (k u hu)

theorem Yields.andThen {f : State → Result State} (h : Yields P n s x) (k : ∀ t, Yields P m t (f t)) :
    Yields P (n + m) s (andThen x f) := by
  intro u hu
  obtain ⟨t, ht, hf⟩ := andThen_eq_next.mp hu
  exact (h t ht).trans (k t u hf)

/-- A cycle with no access. -/
theorem Yields.idle (k : Yields P n (tick s) x) : Yields P (n + 1) s x := by
  intro u hu
  rw [Nat.add_comm]
  exact (Runs.ticks 1 s).trans (k u hu)

/-- The write of a cycle. -/
theorem wr_yields (a : Word) (v : Byte) : Yields P 1 s (wr a v s) := fun _ ht => (Runs.ticks 1 s).write ht

/-- The read of a cycle at HL. -/
theorem readHl_yields {k : Byte → State → Result State} (h : ∀ v, Yields P n (tick s) (k v (tick s))) :
    Yields P (n + 1) s (readHl s k) := by
  intro u hu
  obtain ⟨⟨v, t⟩, hr, hk⟩ := andThen_eq_next.mp hu
  obtain ⟨-, rfl⟩ := rd_inv hr
  exact Yields.idle (h v) u hk

/-- A fetch of one byte moves PC past it. -/
theorem fetch8_inv {t : State} {v : Byte} (h : fetch8 s = .next (v, t)) :
    memRead (tick s) s.cpu.pc = .next v ∧ t = setPc (tick s) (s.cpu.pc + 1) := by
  obtain ⟨⟨w, u⟩, hr, hn⟩ := andThen_eq_next.mp h
  obtain ⟨hv, rfl⟩ := rd_inv hr
  cases hn
  exact ⟨hv, rfl⟩

/-- A pop of one byte moves SP past it. -/
theorem popByte_inv {t : State} {v : Byte} (h : popByte s = .next (v, t)) :
    memRead (tick s) s.cpu.sp = .next v ∧ t = setSp (tick s) (s.cpu.sp + 1) := by
  obtain ⟨⟨w, u⟩, hr, hn⟩ := andThen_eq_next.mp h
  obtain ⟨hv, rfl⟩ := rd_inv hr
  cases hn
  exact ⟨hv, rfl⟩

/-- A pop that completes read two bytes, in two cycles. -/
theorem pop16_inv {t : State} {w : Word} (h : pop16 s = .next (w, t)) :
    Pops s w ∧ t = setSp (ticks 2 s) (s.cpu.sp + 2) := by
  obtain ⟨⟨l, u⟩, hl, hrest⟩ := andThen_eq_next.mp h
  obtain ⟨hrl, rfl⟩ := popByte_inv hl
  obtain ⟨⟨hi, v⟩, hh, hn⟩ := andThen_eq_next.mp hrest
  obtain ⟨hrh, rfl⟩ := popByte_inv hh
  cases hn
  refine ⟨⟨l, hi, hrl, hrh, rfl⟩, ?_⟩
  have e : s.cpu.sp + 1 + 1 = s.cpu.sp + 2 := by bv_omega
  simp only [tick_setSp, setSp_cpu, tick_cpu, e]
  rfl

/-- A push that completes moves SP down by two and leaves the rest of the CPU. -/
theorem push16_cpu {t : State} {w : Word} (h : push16 w s = .next t) :
    t.cpu = { s.cpu with sp := s.cpu.sp - 2 } := by
  obtain ⟨u, hu, ht⟩ := andThen_eq_next.mp h
  have frameU := memWrite_frame hu
  have frameT := memWrite_frame ht
  have e : s.cpu.sp - 1 - 1 = s.cpu.sp - 2 := by bv_omega
  rw [frameT.cpu, tick_cpu, setSp_cpu, frameU.cpu, tick_cpu, setSp_cpu, e]

/-! ### Operations that write registers -/

section Regs

variable (hP : AdmitsRegs P)

include hP

theorem regs_runs {c : Cpu} (h : RegsOnly s.cpu c) : Runs P 0 s (withCpu s c) :=
  Runs.own (.start s) c s.intr s.fault (hP s c h)

theorem regs_yields {c : Cpu} (h : RegsOnly s.cpu c) : Yields P 0 s (.next (withCpu s c)) := .next (regs_runs hP h)

theorem setPc_runs (w : Word) : Runs P 0 s (setPc s w) := regs_runs hP rfl

theorem loadA_yields (a : Word) : Yields P 1 s (loadA a s) := by
  intro u hu
  obtain ⟨⟨v, t⟩, hr, hn⟩ := andThen_eq_next.mp hu
  obtain ⟨-, rfl⟩ := rd_inv hr
  exact Yields.idle (regs_yields hP (c := setA (tick s).cpu v) rfl) u hn

theorem addHl_yields (d : Word) : Yields P 0 s (.next (addHl d s)) := regs_yields hP rfl

theorem jumpTo_yields (w : Word) : Yields P 1 s (jumpTo w s) := .idle (.next (setPc_runs hP w))

theorem shiftReg_yields (r : Reg8) (o : ShiftOut) : Yields P 0 s (shiftReg s r o) :=
  regs_yields hP (setReg_setF_regsOnly _ _ _ _)

/-- The flags, then the write of a cycle. -/
theorem setF_wr_yields (a : Word) (v fl : Byte) : Yields P 1 s (wr a v (withCpu s (setF s.cpu fl))) :=
  .after (regs_runs hP (c := setF s.cpu fl) rfl) (wr_yields _ _)

theorem execShiftReg_yields (y : Nat) (r : Reg8) : Yields P 0 s (execShiftReg y r s) := by
  unfold execShiftReg
  split <;> exact shiftReg_yields hP _ _

theorem execShiftMemHl_yields (y : Nat) : Yields P 2 s (execShiftMemHl y s) := by
  unfold execShiftMemHl
  split <;> exact readHl_yields fun _ => setF_wr_yields hP _ _ _

/-- Every CB instruction writes registers, flags and memory alone, in at most two cycles beside its fetch. -/
theorem execCbByte_yields (cb : Byte) : ∃ n ≤ 2, Yields P n s (execCbByte cb s) := by
  unfold execCbByte
  split
  · exact ⟨0, by omega, execShiftReg_yields hP _ _⟩
  · exact ⟨0, by omega, regs_yields hP rfl⟩
  · exact ⟨0, by omega, regs_yields hP (setReg_regsOnly _ _ _)⟩
  · exact ⟨0, by omega, regs_yields hP (setReg_regsOnly _ _ _)⟩
  · exact ⟨2, by omega, execShiftMemHl_yields hP _⟩
  · exact ⟨1, by omega, readHl_yields fun _ => regs_yields hP rfl⟩
  · exact ⟨2, by omega, readHl_yields fun _ => wr_yields _ _⟩
  · exact ⟨2, by omega, readHl_yields fun _ => wr_yields _ _⟩

/-- 0xCB on its own fetches the CB byte and runs the CB instruction (R385). -/
theorem execPrefixCb_yields : ∃ n ≤ 3, Yields P n s (execPrefixCb s) := by
  unfold execPrefixCb
  cases hf : fetch8 s with
  | next p =>
    obtain ⟨cb, t⟩ := p
    obtain ⟨-, rfl⟩ := fetch8_inv hf
    obtain ⟨n, hn, hy⟩ := execCbByte_yields (s := setPc (tick s) (s.cpu.pc + 1)) hP cb
    exact ⟨n + 1, by omega, .idle (.after (setPc_runs hP _) hy)⟩
  | fault => exact ⟨0, by omega, fun _ h => by simp at h⟩
  | refused => exact ⟨0, by omega, fun _ h => by simp at h⟩

/-! ### The stack -/

variable (hSp : AdmitsSp P)

omit hP
include hSp

theorem setSp_runs (w : Word) : Runs P 0 s (setSp s w) :=
  Runs.own (.start s) { s.cpu with sp := w } s.intr s.fault (hSp s w)

theorem pushByte_yields (v : Byte) : Yields P 1 s (pushByte v s) := .after (setSp_runs hSp _) (wr_yields _ _)

theorem push16_yields (w : Word) : Yields P 2 s (push16 w s) :=
  .andThen (n := 1) (pushByte_yields hSp _) fun _ => pushByte_yields hSp _

/-- A pop, then the rest. -/
theorem pop16_yields {k : Word × State → Result State} (h : ∀ w t, Yields P n t (k (w, t))) :
    Yields P (n + 2) s (Machine.andThen (pop16 s) k) := by
  intro u hu
  obtain ⟨⟨w, t⟩, hp, hk⟩ := andThen_eq_next.mp hu
  obtain ⟨-, rfl⟩ := pop16_inv hp
  exact Yields.idle (Yields.idle (.after (setSp_runs hSp _) (h w _))) u hk

include hP

theorem callTo_yields (w : Word) : Yields P 3 s (callTo w s) :=
  .idle (.andThen (n := 2) (push16_yields hSp _) fun _ => .next (setPc_runs hP _))

theorem returnTo_yields : Yields P 3 s (returnTo s) :=
  pop16_yields hSp fun _ _ => .after (setPc_runs hP _) (.idle (.next (.start _)))

end Regs

end Operations

/-! ### The bodies, family by family -/

/-- The body of `i` at `s` answers only what a run of the cycles of R535 reaches, less those of its fetch, changing no more
than `i` may. -/
def BodyRuns (i : Instr) (s : State) : Prop :=
  ∃ n, Yields (MayChange i) n s (exec i s) ∧ n + (fetchedBytes i).length = (timing i (taken i s.cpu)).2

section Bodies

variable {i : Instr} {s : State}

/-- A change of hidden state that `i` may make. -/
theorem withCpu_yields {c : Cpu} (h : MayChange i s (withCpu s c)) : Yields (MayChange i) 0 s (.next (withCpu s c)) :=
  .next (Runs.own (.start s) c s.intr s.fault h)

theorem execDi_yields : Yields (MayChange .di) 0 s (execDi s) :=
  withCpu_yields ⟨fun _ => .inl rfl, fun _ => .inl rfl, by simp, by simp, by simp, rfl, rfl⟩

theorem execEi_yields : Yields (MayChange .ei) 0 s (execEi s) :=
  withCpu_yields ⟨by simp, fun _ => .inr rfl, by simp, by simp, by simp, rfl, rfl⟩

theorem execHalt_yields : Yields (MayChange .halt) 0 s (execHalt s) :=
  withCpu_yields ⟨by simp, by simp, fun _ => rfl, by simp, by simp, rfl, rfl⟩

theorem execReti_yields : Yields (MayChange .reti) 3 s (execReti s) :=
  pop16_yields (mayChange_admitsSp rfl) fun _ _ => .after (setPc_runs (mayChange_admitsRegs _) _)
    (.idle (withCpu_yields ⟨fun _ => .inr rfl, by simp, by simp, by simp, by simp, rfl, rfl⟩))

/-- The illegal opcodes record the fault and do nothing else (R386). -/
theorem recordUnknownOpcode_yields {op : Byte} (h : (i, op) ∈ illegalForms) :
    Yields (MayChange i) 0 s (.next (recordUnknownOpcode op s)) :=
  .next (Runs.own (.start s) s.cpu s.intr _ ⟨by simp, by simp, by simp, by simp, fun _ => ⟨op, h⟩, rfl, rfl⟩)

/-- A pair written, SP only where `i` may write it. -/
theorem setPair_yields {dd : Pair} (h : dd = .sp → writesSp i = true) (w : Word) :
    Yields (MayChange i) 0 s (.next (withCpu s (setPair s.cpu dd w))) := by
  cases dd with
  | sp => exact .next (setSp_runs (mayChange_admitsSp (h rfl)) w)
  | _ => exact regs_yields (mayChange_admitsRegs i) rfl

theorem execAddSpE_yields (e : Byte) : Yields (MayChange (.addSpE e)) 2 s (execAddSpE e s) :=
  .idle (.idle (.after (setSp_runs (mayChange_admitsSp rfl) (spPlus s.cpu.sp e))
    (regs_yields (mayChange_admitsRegs _) rfl)))

theorem setStackPair_regsOnly (c : Cpu) (qq : StackPair) (w : Word) : RegsOnly c (setStackPair c qq w) := by
  cases qq <;> rfl

theorem execPopQq_yields (qq : StackPair) : Yields (MayChange (.popQq qq)) 2 s (execPopQq qq s) :=
  pop16_yields (mayChange_admitsSp rfl) fun w t =>
    regs_yields (mayChange_admitsRegs _) (setStackPair_regsOnly t.cpu qq w)

end Bodies

/-- Every body but the bare 0xCB's, whose cycles its CB byte decides (`execPrefixCb_yields`). -/
theorem exec_bodyRuns (i : Instr) (s : State) (hi : i ≠ .prefixCb) : BodyRuns i s := by
  have hP := mayChange_admitsRegs i
  unfold BodyRuns exec
  cases i with
  | prefixCb => exact absurd rfl hi
  | nop => exact ⟨0, .next (.start s), rfl⟩
  -- registers and flags alone
  | rlca | rrca | rla | rra | daa | cpl | scf | ccf | addAR | addAN | adcAR | adcAN | subR | subN | sbcAR | sbcAN
  | andR | andN | xorR | xorN | orR | orN | cpR | cpN | bitBR => exact ⟨0, regs_yields hP rfl, rfl⟩
  | jpHl | stop => exact ⟨0, .next (setPc_runs hP _), rfl⟩
  | ldRR | ldRN | resBR | setBR => exact ⟨0, regs_yields hP (setReg_regsOnly _ _ _), rfl⟩
  | incR | decR | rlcR | rrcR | rlR | rrR | slaR | sraR | swapR | srlR =>
    exact ⟨0, regs_yields hP (setReg_setF_regsOnly _ _ _ _), rfl⟩
  | addHlDd | ldHlSpE => exact ⟨1, .idle (.next (regs_runs hP rfl)), rfl⟩
  -- a read at HL
  | addAMemHl | adcAMemHl | subMemHl | sbcAMemHl | andMemHl | xorMemHl | orMemHl | cpMemHl | bitBMemHl =>
    exact ⟨1, readHl_yields fun _ => regs_yields hP rfl, rfl⟩
  | ldRMemHl => exact ⟨1, readHl_yields fun _ => regs_yields hP (setReg_regsOnly _ _ _), rfl⟩
  -- a read and a write at HL
  | incMemHl | decMemHl | rlcMemHl | rrcMemHl | rlMemHl | rrMemHl | slaMemHl | sraMemHl | swapMemHl | srlMemHl =>
    exact ⟨2, readHl_yields fun _ => setF_wr_yields hP _ _ _, rfl⟩
  | resBMemHl | setBMemHl => exact ⟨2, readHl_yields fun _ => wr_yields _ _, rfl⟩
  -- loads of A and stores
  | ldABc | ldADe | ldANn | ldhAN | ldAC => exact ⟨1, loadA_yields hP _, rfl⟩
  | ldAHli | ldAHld => exact ⟨1, .andThen (n := 1) (loadA_yields hP _) fun _ => addHl_yields hP _, rfl⟩
  | ldMemHlR | ldMemHlN | ldBcA | ldDeA | ldNnA | ldhNA | ldCA => exact ⟨1, wr_yields _ _, rfl⟩
  | ldHliA | ldHldA => exact ⟨1, .andThen (n := 1) (wr_yields _ _) fun _ => addHl_yields hP _, rfl⟩
  | ldNnSp => exact ⟨2, .andThen (n := 1) (wr_yields _ _) fun _ => wr_yields _ _, rfl⟩
  -- pairs, SP and the stack
  | ldDdNn => exact ⟨0, setPair_yields (fun h => by subst h; rfl) _, rfl⟩
  | incDd | decDd => exact ⟨1, .idle (setPair_yields (fun h => by subst h; rfl) _), rfl⟩
  | ldSpHl => exact ⟨1, .idle (.next (setSp_runs (mayChange_admitsSp rfl) _)), rfl⟩
  | addSpE e => exact ⟨2, execAddSpE_yields e, rfl⟩
  | pushQq => exact ⟨3, .idle (push16_yields (mayChange_admitsSp rfl) _), rfl⟩
  | popQq qq => exact ⟨2, execPopQq_yields qq, rfl⟩
  -- control
  | jpNn | jrE => exact ⟨1, jumpTo_yields hP _, rfl⟩
  | callNn | rstT => exact ⟨3, callTo_yields hP (mayChange_admitsSp rfl) _, rfl⟩
  | ret => exact ⟨3, returnTo_yields hP (mayChange_admitsSp rfl), rfl⟩
  | jpCcNn cc | jrCcE cc =>
    cases h : condHolds s.cpu cc
    · exact ⟨0, by simpa [execJpCcNn, execJrCcE, h] using .next (.start s), by simp [taken, timing, h]; rfl⟩
    · exact ⟨1, by simpa [execJpCcNn, execJrCcE, h] using jumpTo_yields hP _, by simp [taken, timing, h]; rfl⟩
  | callCcNn cc nn =>
    have hSp := mayChange_admitsSp (i := .callCcNn cc nn) rfl
    cases h : condHolds s.cpu cc
    · exact ⟨0, by simpa [execCallCcNn, h] using .next (.start s), by simp [taken, timing, h]; rfl⟩
    · exact ⟨3, by simpa [execCallCcNn, h] using callTo_yields hP hSp _, by simp [taken, timing, h]; rfl⟩
  | retCc cc =>
    have hSp := mayChange_admitsSp (i := .retCc cc) rfl
    cases h : condHolds s.cpu cc
    · exact ⟨1, .idle (by simpa [execRetCc, h] using .next (.start _)), by simp [taken, timing, h]; rfl⟩
    · exact ⟨4, .idle (by simpa [execRetCc, h] using returnTo_yields hP hSp), by simp [taken, timing, h]; rfl⟩
  -- hidden state and the fault
  | di => exact ⟨0, execDi_yields, rfl⟩
  | ei => exact ⟨0, execEi_yields, rfl⟩
  | halt => exact ⟨0, execHalt_yields, rfl⟩
  | reti => exact ⟨3, execReti_yields, rfl⟩
  | illegalD3 | illegalDB | illegalDD | illegalE3 | illegalE4 | illegalEB | illegalEC | illegalED | illegalF4
  | illegalFC | illegalFD => exact ⟨0, recordUnknownOpcode_yields (by decide), rfl⟩

end Sys2Proof.Machine
end

section
/-! PROOFS. What a step can do (R171): its fetch, its body and the service call, each as a run of machine cycles. -/

namespace Sys2Proof.Machine

/-! ### The fetch -/

/-- As many bytes are fetched of an opcode's instruction as its first byte tells (R155). -/
theorem length_fetchedBytes_decodeOp (op n : Byte) (nn : Word) :
    (fetchedBytes (decodeOp op n nn)).length = operandBytes op + 1 := by
  obtain ⟨k, hk, rfl⟩ : ∃ k, k < 256 ∧ op = BitVec.ofNat 8 k := ⟨op.toNat, op.isLt, by simp⟩
  interval_cases k <;> rfl

theorem operandBytes_le_two (op : Byte) : operandBytes op ≤ 2 := by
  revert op
  decide

/-- A CB instruction is two bytes. -/
theorem length_fetchedBytes_decodeCb (cb : Byte) : (fetchedBytes (decodeCb cb)).length = 2 := by
  obtain ⟨k, hk, rfl⟩ : ∃ k, k < 256 ∧ cb = BitVec.ofNat 8 k := ⟨cb.toNat, cb.isLt, by simp⟩
  interval_cases k <;> rfl

section Fetch

variable {s t : State}

theorem setPc_tick_afterFetch (s : State) (n : Nat) (pc pc' : Word) :
    setPc (tick (afterFetch s n pc)) pc' = afterFetch s (n + 1) pc' := by
  rw [afterFetch, afterFetch, ticks_succ']
  rfl

theorem fetchOpcode_inv {op : Byte} (h : fetchOpcode s = .next (op, t)) :
    memRead (tick s) s.cpu.pc = .next op ∧
      t = afterFetch s 1 (if s.cpu.haltBugArmed then s.cpu.pc else s.cpu.pc + 1) := by
  obtain ⟨⟨v, u⟩, hr, hn⟩ := andThen_eq_next.mp h
  obtain ⟨hv, rfl⟩ := rd_inv hr
  cases hn
  exact ⟨hv, rfl⟩

theorem fetch8_afterFetch_inv {n : Nat} {pc : Word} {v : Byte} (h : fetch8 (afterFetch s n pc) = .next (v, t)) :
    t = afterFetch s (n + 1) (pc + 1) := by
  obtain ⟨-, rfl⟩ := fetch8_inv h
  exact setPc_tick_afterFetch s n pc _

theorem fetch16_afterFetch_inv {n : Nat} {pc w : Word} (h : fetch16 (afterFetch s n pc) = .next (w, t)) :
    t = afterFetch s (n + 2) (pc + 1 + 1) := by
  obtain ⟨⟨l, u⟩, hl, hrest⟩ := andThen_eq_next.mp h
  cases fetch8_afterFetch_inv hl
  obtain ⟨⟨hi, v⟩, hh, hn⟩ := andThen_eq_next.mp hrest
  cases fetch8_afterFetch_inv hh
  cases hn
  rfl

/-- A fetch takes a cycle for each byte it reads, moves PC and disarms the double fetch (R171 to R175). -/
theorem fetchInstr_inv {i : Instr} (h : fetchInstr s = .next (i, t)) :
    ∃ pc, t = afterFetch s (fetchedBytes i).length pc := by
  obtain ⟨⟨op, u⟩, ho, hrest⟩ := andThen_eq_next.mp h
  obtain ⟨-, rfl⟩ := fetchOpcode_inv ho
  dsimp only at hrest
  split at hrest
  · obtain ⟨⟨cb, v⟩, hf, hn⟩ := andThen_eq_next.mp hrest
    cases fetch8_afterFetch_inv hf
    cases hn
    rw [length_fetchedBytes_decodeCb]
    exact ⟨_, rfl⟩
  · split at hrest
    · rename_i hb
      cases hrest
      rw [length_fetchedBytes_decodeOp, hb]
      exact ⟨_, rfl⟩
    · rename_i hb
      obtain ⟨⟨n, v⟩, hf, hn⟩ := andThen_eq_next.mp hrest
      cases fetch8_afterFetch_inv hf
      cases hn
      rw [length_fetchedBytes_decodeOp, hb]
      exact ⟨_, rfl⟩
    · rename_i hb0 hb1
      obtain ⟨⟨nn, v⟩, hf, hn⟩ := andThen_eq_next.mp hrest
      cases fetch16_afterFetch_inv hf
      cases hn
      have h0 : operandBytes op ≠ 0 := hb0
      have h1 : operandBytes op ≠ 1 := hb1
      have hle := operandBytes_le_two op
      have hb : operandBytes op = 2 := by omega
      rw [length_fetchedBytes_decodeOp, hb]
      exact ⟨_, rfl⟩

end Fetch

/-! ### The service call -/

/-- A, F, B, C, D, E, H, L and the fault are as before. -/
structure KeepsRegs (s t : State) : Prop where
  af : t.cpu.af = s.cpu.af
  bc : t.cpu.bc = s.cpu.bc
  de : t.cpu.de = s.cpu.de
  hl : t.cpu.hl = s.cpu.hl
  fault : t.fault = s.fault

theorem keepsRegs_admitsSp : AdmitsSp KeepsRegs := fun _ _ => by constructor <;> rfl

section Service

variable {s t : State}

/-- A change of the CPU that keeps the registers. -/
theorem withCpu_keepsRegs_runs (c : Cpu) (h : KeepsRegs s (withCpu s c)) : Runs KeepsRegs 0 s (withCpu s c) :=
  Runs.own (.start s) c s.intr s.fault h

/-- Taking an interrupt is five cycles, and one more to wake from HALT (R410 to R412). -/
theorem enterInterrupt_inv {i : Nat} (h : enterInterrupt i s = .next t) :
    Runs KeepsRegs (if s.cpu.halted then 6 else 5) s t ∧ t.cpu.halted = false := by
  obtain ⟨u, hu, hn⟩ := andThen_eq_next.mp h
  have haccept : Runs KeepsRegs 0 s (acceptInterrupt i s) := Runs.own (.start s) _ _ s.fault (by constructor <;> rfl)
  have hpush : Runs KeepsRegs 4 s u :=
    Yields.after haccept (.idle (.idle (push16_yields keepsRegs_admitsSp _))) u hu
  have hjump : Runs KeepsRegs 5 s (setPc (tick u) (vector i)) :=
    hpush.tick.trans (withCpu_keepsRegs_runs _ (by constructor <;> rfl))
  have hhalted : (setPc (tick u) (vector i)).cpu.halted = s.cpu.halted := by
    rw [setPc_cpu, tick_cpu, push16_cpu hu]
    rfl
  rw [idle_eq_tick] at hn
  generalize setPc (tick u) (vector i) = v at hn hjump hhalted
  cases hn
  unfold wakeAfterEntry
  rw [hhalted]
  split
  · exact ⟨hjump.tick.trans (withCpu_keepsRegs_runs _ (by constructor <;> rfl)), rfl⟩
  · rename_i hs
    exact ⟨hjump, by rw [hhalted]; simpa using hs⟩

/-- A service call does nothing, takes an interrupt, or wakes the CPU without service, and then ends (R410, R413, R415). -/
theorem interruptServiceRoutine_cases (h : interruptServiceRoutine s = .next t) :
    ∃ u, t = endServiceCall u ∧
      (u = s ∨ enterInterrupt (lowestBit (pending s.intr)) s = .next u ∨
        s.cpu.halted = true ∧ u = wakeWithoutService s) := by
  unfold interruptServiceRoutine at h
  split at h
  · cases h
    exact ⟨s, rfl, .inl rfl⟩
  · split at h
    · obtain ⟨u, hu, hn⟩ := andThen_eq_next.mp h
      cases hn
      exact ⟨u, rfl, .inr (.inl hu)⟩
    · split at h
      · rename_i hh
        cases h
        exact ⟨_, rfl, .inr (.inr ⟨hh, rfl⟩)⟩
      · cases h
        exact ⟨s, rfl, .inl rfl⟩

/-- A service call takes at most five cycles, and six of a halted CPU. -/
theorem interruptServiceRoutine_runs (h : interruptServiceRoutine s = .next t) :
    ∃ n, Runs KeepsRegs n s t ∧ (n ≤ 5 ∨ s.cpu.halted = true ∧ n = 6) := by
  obtain ⟨u, rfl, hu⟩ := interruptServiceRoutine_cases h
  have hend : Runs KeepsRegs 0 u (endServiceCall u) := withCpu_keepsRegs_runs _ (by constructor <;> rfl)
  obtain rfl | hu | ⟨-, rfl⟩ := hu
  · exact ⟨0, hend, .inl (by omega)⟩
  · refine ⟨_, (enterInterrupt_inv hu).1.trans hend, ?_⟩
    split
    · rename_i hh
      exact .inr ⟨hh, rfl⟩
    · exact .inl (by omega)
  · have hwake : Runs KeepsRegs 0 (tick s) (wakeWithoutService s) :=
      withCpu_keepsRegs_runs _ (by constructor <;> rfl)
    exact ⟨_, ((Runs.ticks 1 s).trans hwake).trans hend, .inl (by omega)⟩

/-- A service call leaves the CPU as it may stand between two steps. -/
theorem interruptServiceRoutine_cpuOk (harmed : s.cpu.halted = true → s.cpu.haltBugArmed = false)
    (h : interruptServiceRoutine s = .next t) : CpuOk t.cpu := by
  obtain ⟨u, rfl, hu⟩ := interruptServiceRoutine_cases h
  refine ⟨rfl, rfl, fun hh => ?_⟩
  obtain rfl | hu | ⟨-, rfl⟩ := hu
  · exact harmed hh
  · have hwoken : u.cpu.halted = false := (enterInterrupt_inv hu).2
    exact absurd hh (by simp [endServiceCall_eq, hwoken])
  · cases hh

end Service

/-! ### The whole step -/

theorem timing_le_six (i : Instr) (b : Bool) : (timing i b).2 ≤ 6 := by
  cases b <;> unfold timing <;> split <;> simp

/-- What an instruction's body can do: a run of the cycles of R535 less those of its fetch. -/
theorem exec_runs {i : Instr} {s t : State} (h : exec i s = .next t) :
    ∃ n, Runs (MayChange i) n s t ∧ n + (fetchedBytes i).length ≤ 6 ∧
      (i ≠ .prefixCb → n + (fetchedBytes i).length = (timing i (taken i s.cpu)).2) := by
  by_cases hi : i = .prefixCb
  · subst hi
    obtain ⟨n, hn, hy⟩ := execPrefixCb_yields (s := s) (mayChange_admitsRegs .prefixCb)
    exact ⟨n, hy t h, Nat.le_trans (Nat.add_le_add_right hn 1) (by omega), fun hne => absurd rfl hne⟩
  · obtain ⟨n, hy, hn⟩ := exec_bodyRuns i s hi
    exact ⟨n, hy t h, hn ▸ timing_le_six i _, fun _ => hn⟩

theorem exec_mayChange {i : Instr} {s t : State} (h : exec i s = .next t) : MayChange i s t := by
  obtain ⟨n, hr, -⟩ := exec_runs h
  exact hr.related (MayChange.of_same i) (MayChange.trans i)

/-- What follows an instruction: nothing where a fault is recorded, else the service call. -/
theorem finishStep_cases {s t : State} (h : finishStep s = .next t) :
    s.fault ≠ none ∧ t = s ∨ s.fault = none ∧ interruptServiceRoutine s = .next t := by
  unfold finishStep at h
  cases hf : s.fault with
  | some f =>
    rw [hf] at h
    cases h
    exact .inl ⟨nofun, rfl⟩
  | none =>
    rw [hf] at h
    exact .inr ⟨rfl, h⟩

/-- A step starts at a machine with no fault: a halted one spends a cycle, any other fetches an instruction and runs it
(R170, R171, R176). -/
theorem step_cases {s t : State} (h : step s = .next t) : s.fault = none ∧
    (s.cpu.halted = true ∧ interruptServiceRoutine (tick s) = .next t ∨
      s.cpu.halted = false ∧ ∃ i pc u, exec i (afterFetch s (fetchedBytes i).length pc) = .next u ∧
        finishStep u = .next t) := by
  unfold step at h
  cases hf : s.fault with
  | some f => rw [hf] at h; cases h
  | none =>
    rw [hf] at h
    refine ⟨rfl, ?_⟩
    cases hh : s.cpu.halted with
    | true =>
      simp only [hh, if_true] at h
      obtain ⟨hne, -⟩ | ⟨-, hs⟩ := finishStep_cases h
      · exact absurd hf hne
      · exact .inl ⟨rfl, hs⟩
    | false =>
      simp only [hh, Bool.false_eq_true, if_false] at h
      obtain ⟨⟨i, v⟩, hi, hrest⟩ := andThen_eq_next.mp h
      obtain ⟨pc, rfl⟩ := fetchInstr_inv hi
      obtain ⟨u, hu, ht⟩ := andThen_eq_next.mp hrest
      exact .inr ⟨rfl, i, pc, u, hu, ht⟩

/-- A run, whatever its changes. -/
abbrev AnyRun (n : Nat) (s t : State) : Prop := Runs (fun _ _ => True) n s t

theorem Runs.any {P : State → State → Prop} {n : Nat} {s t : State} (h : Runs P n s t) : AnyRun n s t :=
  h.mono fun _ _ _ => trivial

theorem afterFetch_run (s : State) (n : Nat) (pc : Word) : AnyRun n s (afterFetch s n pc) :=
  (Runs.ticks n s).own _ (ticks n s).intr (ticks n s).fault trivial

/-- A step is a run of 1 to 11 machine cycles (R537). -/
theorem step_runs {s t : State} (h : step s = .next t) : ∃ n, 1 ≤ n ∧ n ≤ 11 ∧ AnyRun n s t := by
  obtain ⟨-, ⟨-, hs⟩ | ⟨hh, i, pc, u, hu, ht⟩⟩ := step_cases h
  · obtain ⟨n, hr, hn⟩ := interruptServiceRoutine_runs hs
    exact ⟨1 + n, by omega, by omega, (Runs.ticks 1 s).trans hr.any⟩
  · obtain ⟨m, hr, hle, htime⟩ := exec_runs hu
    have hlen : 1 ≤ (fetchedBytes i).length := by cases i <;> exact Nat.le_add_left _ _
    have hbody : AnyRun ((fetchedBytes i).length + m) s u := (afterFetch_run s _ pc).trans hr.any
    obtain ⟨-, rfl⟩ | ⟨-, hs⟩ := finishStep_cases ht
    · exact ⟨_, by omega, by omega, hbody⟩
    · obtain ⟨k, hk, hle5 | ⟨hhalt, hk6⟩⟩ := interruptServiceRoutine_runs hs
      · exact ⟨_, by omega, by omega, hbody.trans hk.any⟩
      · have hi : i = .halt := by
          refine (exec_mayChange hu).halt (.inl ?_)
          rw [hhalt]
          simp [afterFetch, hh]
        subst hi
        have hfetch : (fetchedBytes .halt).length = 1 := rfl
        have hm : m + 1 = 1 := htime nofun
        exact ⟨_, by omega, by omega, hbody.trans hk.any⟩

end Sys2Proof.Machine
end

section
/-! PROOFS. The invariant between two steps (O58, O60). -/

namespace Sys2Proof.Machine

/-- An illegal opcode is none of the instructions that write the EI schedule or HALT's flags. -/
theorem illegalForms_hidden : ∀ p ∈ illegalForms, p.1 ≠ .di ∧ p.1 ≠ .ei ∧ p.1 ≠ .halt := by decide

/-- Where a body records a fault the CPU stays as it may stand between two steps, since no service call follows. -/
theorem exec_faulted_cpuOk {i : Instr} {s t : State} (hs : CpuOk s.cpu) (h : exec i s = .next t)
    (hf : t.fault ≠ s.fault) : CpuOk t.cpu := by
  have hmay := exec_mayChange h
  obtain ⟨op, hop⟩ := hmay.fault hf
  obtain ⟨hdi, hei, hhalt⟩ := illegalForms_hidden _ hop
  have hei' : t.cpu.eiScheduled = s.cpu.eiScheduled := by
    by_contra hne
    exact (hmay.ei hne).elim hdi hei
  have hflags : t.cpu.halted = s.cpu.halted ∧ t.cpu.haltFresh = s.cpu.haltFresh := by
    by_contra hne
    exact hhalt (hmay.halt (not_and_or.mp hne))
  exact ⟨hei'.trans hs.ei, hflags.2.trans hs.fresh, by rw [hflags.1, hmay.armed]; exact hs.armed⟩

theorem step_cpuOk {s t : State} (hs : CpuOk s.cpu) (h : step s = .next t) : CpuOk t.cpu := by
  obtain ⟨hf, ⟨hh, ht⟩ | ⟨hh, i, pc, u, hu, ht⟩⟩ := step_cases h
  · exact interruptServiceRoutine_cpuOk (s := tick s) hs.armed ht
  · have hdisarmed : u.cpu.haltBugArmed = false := (exec_mayChange hu).armed
    obtain ⟨hne, rfl⟩ | ⟨-, ht⟩ := finishStep_cases ht
    · refine exec_faulted_cpuOk (s := afterFetch s _ pc) ⟨hs.ei, hs.fresh, fun _ => rfl⟩ hu ?_
      rwa [afterFetch, withCpu_fault, ticks_fault, hf]
    · exact interruptServiceRoutine_cpuOk (fun _ => hdisarmed) ht

/-- Settles O60: a step is a run, which keeps the devices' part, and ends in a service call or in a fault, which keep the
CPU's. -/
theorem stepKeepsInv : Obligations.StepKeepsInv := by
  unfold Obligations.StepKeepsInv
  intro s t hs h
  obtain ⟨n, -, -, hr⟩ := step_runs h
  exact (hr.devicesOk hs.devices).inv (step_cpuOk hs.cpu h)

/-- Settles O58. -/
theorem resetInv : Obligations.ResetInv := by
  unfold Obligations.ResetInv
  refine ⟨?_, ?_, ?_, ?_⟩
  · constructor <;> rfl
  · constructor <;> simp [State.reset, Ppu.resetWith]
  · exact ⟨by decide, rfl, rfl, ⟨.romOnly, rfl, rfl⟩, nofun, nofun⟩
  · exact ⟨rfl, rfl, nofun⟩

end Sys2Proof.Machine
end

section
/-! PROOFS. Who writes the CPU's hidden state (O33) and what no step writes (O34). -/

namespace Sys2Proof.Machine

theorem interruptServiceRoutine_keepsRegs {s t : State} (h : interruptServiceRoutine s = .next t) : KeepsRegs s t := by
  obtain ⟨n, hr, -⟩ := interruptServiceRoutine_runs h
  refine hr.related (fun s t hc hf => ?_) fun s t u h k => ?_
  · constructor <;> simp only [hc, hf]
  · exact ⟨k.af.trans h.af, k.bc.trans h.bc, k.de.trans h.de, k.hl.trans h.hl, k.fault.trans h.fault⟩

/-- Settles O33: each body changes no more than `MayChange` says, and a service call keeps the registers. -/
theorem whoWritesCpuState : Obligations.WhoWritesCpuState := by
  unfold Obligations.WhoWritesCpuState
  constructor
  · intro i s t h
    obtain ⟨ime, ei, halt, sp, fault, armed, opcodePc⟩ := exec_mayChange h
    exact ⟨ime, ei, halt, sp, fault, armed, opcodePc⟩
  · intro s t h
    obtain ⟨af, bc, de, hl, fault⟩ := interruptServiceRoutine_keepsRegs h
    exact ⟨af, bc, de, hl, fault⟩

/-- Settles O34: a step is a run of 1 to 11 machine cycles, and every run keeps the board. -/
theorem stepKeepsRom : Obligations.StepKeepsRom := by
  unfold Obligations.StepKeepsRom
  intro s t h
  obtain ⟨n, hlo, hhi, hr⟩ := step_runs h
  obtain ⟨header, imageLength, rom, romBanks, ramBytes, ramBanks, cross, buttons, config⟩ := hr.sameBoard
  have hclock := hr.clock
  exact ⟨header, imageLength, rom, romBanks, ramBytes, ramBanks, cross, buttons, config, by omega, by omega⟩

end Sys2Proof.Machine
end

section
/-! PROOFS. Device registers through the bus (O40, O42): what a write stores and what a read gives (R34, R35, R41 to R47, R51,
R471, R490). -/

namespace Sys2Proof.Machine

/-! ### IF, IE, SB and SC -/

/-- IF and IE read their upper three bits as 1 (R34, R35). -/
theorem append_extract_low5 (v : Byte) : 7#3 ++ v.extractLsb' 0 5 = 0xE0#8 ||| v := by
  revert v
  decide

theorem extract_low5 (v : Byte) : v.extractLsb' 0 5 = BitVec.ofNat 5 v.toNat := by
  apply BitVec.eq_of_toNat_eq
  simp

/-- Settles O40: each write is `intrWrite` or `serialWrite` at its address. -/
theorem interruptAndSerialRegisters : Obligations.InterruptAndSerialRegisters := by
  unfold Obligations.InterruptAndSerialRegisters
  intro s v
  have hread : Host.Outcome.next (7#3 ++ v.extractLsb' 0 5) = (.next (0xE0#8 ||| v) : Result Byte) :=
    congrArg _ (append_extract_low5 v)
  rw [← extract_low5]
  exact ⟨⟨_, rfl, hread, rfl⟩, ⟨_, rfl, hread, rfl⟩, ⟨_, rfl, rfl, rfl⟩, ⟨_, rfl, rfl, rfl⟩⟩

/-! ### The PPU's registers -/

/-- The addresses of the PPU's registers (R71). -/
def ppuRegAddresses : List Word :=
  [0xFF40#16, 0xFF41#16, 0xFF42#16, 0xFF43#16, 0xFF44#16, 0xFF45#16, 0xFF47#16, 0xFF48#16, 0xFF49#16, 0xFF4A#16, 0xFF4B#16]

/-- Those of the registers that read back what was written: all but STAT and LY. -/
def ppuPlainAddresses : List Word :=
  [0xFF40#16, 0xFF42#16, 0xFF43#16, 0xFF45#16, 0xFF47#16, 0xFF48#16, 0xFF49#16, 0xFF4A#16, 0xFF4B#16]

theorem mem_ppuRegAddresses_of_plain {a : Word} (ha : a ∈ ppuPlainAddresses) : a ∈ ppuRegAddresses := by
  fin_cases ha <;> decide

section PpuRegs

variable {a b : Word}

/-- At or above 0xFF00 the PPU owns its registers alone. -/
theorem mem_ppuRegAddresses_of_route (h : route b = some .ppu) (hF : 0xFF00 ≤ b.toNat) : b ∈ ppuRegAddresses := by
  have hgap : b ≠ 0xFF46#16 := by
    rintro rfl
    exact absurd h (by decide)
  have hregion := of_route_ppu h
  simp only [ppuRegAddresses, List.mem_cons, List.not_mem_nil, or_false]
  bv_omega

theorem memWrite_ppuReg (s : State) (v : Byte) (ha : a ∈ ppuRegAddresses) :
    memWrite s a v = .next { s with ppu := ppuRegWrite s.ppu a v } := by
  fin_cases ha <;> rfl

theorem memRead_ppuReg (s : State) (ha : a ∈ ppuRegAddresses) : memRead s a = .next (ppuRegRead s.ppu a) := by
  fin_cases ha <;> rfl

theorem ppuRegRead_ppuRegWrite_same (p : Ppu) (v : Byte) (ha : a ∈ ppuPlainAddresses) :
    ppuRegRead (ppuRegWrite p a v) a = v := by
  fin_cases ha <;> rfl

/-- A register write is seen at its own address alone. -/
theorem ppuRegRead_ppuRegWrite (p : Ppu) (v : Byte) (ha : a ∈ ppuRegAddresses) (hb : b ∈ ppuRegAddresses) :
    ppuRegRead (ppuRegWrite p a v) b = if b = a then ppuRegRead (ppuRegWrite p a v) a else ppuRegRead p b := by
  fin_cases ha <;> fin_cases hb <;> rfl

/-- The PPU takes no part in a read of another component's address. -/
theorem memRead_withPpu (s : State) (q : Ppu) (h : route b ≠ some .ppu) : memRead { s with ppu := q } b = memRead s b := by
  unfold memRead
  cases hr : route b with
  | none => rfl
  | some c =>
    cases c with
    | ppu => exact absurd hr h
    | _ => rfl

/-- A write of a PPU register changes no other register's reading, at or above 0xFF00. -/
theorem memRead_ppuRegWrite_ne (s : State) (v : Byte) (ha : a ∈ ppuRegAddresses) (hF : 0xFF00 ≤ b.toNat) (hne : b ≠ a) :
    memRead { s with ppu := ppuRegWrite s.ppu a v } b = memRead s b := by
  by_cases hr : route b = some .ppu
  · have hb := mem_ppuRegAddresses_of_route hr hF
    rw [memRead_ppuReg _ hb, memRead_ppuReg _ hb, ppuRegRead_ppuRegWrite _ _ ha hb, if_neg hne]
  · exact memRead_withPpu s _ hr

end PpuRegs

/-- STAT's enables lock no memory and are read at 0xFF41 alone. -/
theorem ppuRead_statEnables (cfg : Config) (p : Ppu) (e : BitVec 4) {b : Word} (hb : b ≠ 0xFF41#16) :
    ppuRead cfg { p with statEnables := e } b = ppuRead cfg p b := by
  unfold ppuRead ppuRegRead
  simp only [if_neg hb]
  rfl

theorem memRead_statEnables (s : State) (e : BitVec 4) {b : Word} (hb : b ≠ 0xFF41#16) :
    memRead { s with ppu := { s.ppu with statEnables := e } } b = memRead s b := by
  by_cases hr : route b = some .ppu
  · unfold memRead
    simp only [hr, ppuRead_statEnables _ _ _ hb]
  · exact memRead_withPpu s _ hr

/-- STAT as read, its enables being bits 6 to 3 of the byte written (R42). -/
theorem statByte_of_write (p : Ppu) (v : Byte) (h : p.statEnables = v.extractLsb' 3 4) :
    statByte p = 0x80#8 ||| (v &&& 0x78#8) ||| (if p.coincidence then 0x04#8 else 0x00#8) |||
      (match p.mode with
        | .hblank => 0x00#8
        | .vblank => 0x01#8
        | .oamRead => 0x02#8
        | .vramRead => 0x03#8) := by
  unfold statByte
  rw [h]
  clear h
  cases p.coincidence <;> cases p.mode <;> revert v <;> decide

/-- Settles O42: the nine plain registers at once, then STAT and LY. -/
theorem ppuRegisters : Obligations.PpuRegisters := by
  unfold Obligations.PpuRegisters
  intro s v
  refine ⟨fun a ha => ?_, ?_, rfl, rfl⟩
  · have hreg := mem_ppuRegAddresses_of_plain ha
    refine ⟨_, memWrite_ppuReg s v hreg, ?_, rfl, fun b hF hne => memRead_ppuRegWrite_ne s v hreg hF hne⟩
    rw [memRead_ppuReg _ hreg, ppuRegRead_ppuRegWrite_same _ _ ha]
  · refine ⟨_, rfl, rfl, ?_, fun b hb => memRead_statEnables s _ hb⟩
    exact congrArg Host.Outcome.next (statByte_of_write { s.ppu with statEnables := v.extractLsb' 3 4 } v rfl)

end Sys2Proof.Machine
end

section
/-! PROOFS. Where an operation stops (O7, O35): it completes, or it is refused at an address the machine it starts from
cannot access (R113, R126, R433). One lemma for each shared operation, then one case for each family of instructions. -/

namespace Sys2Proof.Machine

/-- What `accessible` excludes: the RAM window with a clock register selected (R113). -/
theorem accessible_eq_false_iff {s : State} {a : Word} :
    accessible s a = false ↔ clockSelected s.cart = true ∧ 0xA000 ≤ a.toNat ∧ a.toNat < 0xC000 := by
  simp only [accessible, Bool.not_eq_false', Bool.and_eq_true, decide_eq_true_eq, and_assoc]

/-- Where a byte of plain memory is, there is no clock register. -/
theorem accessible_of_locOf {s : State} {a : Word} {l : Loc} (h : locOf s a = some l) : accessible s a = true := by
  by_contra hne
  obtain ⟨hc, hlo, hhi⟩ := accessible_eq_false_iff.mp (Bool.eq_false_iff.mpr hne)
  simp [locOf, route_cartRam hlo hhi, hc, show ¬a.toNat < 0x8000 by omega] at h

/-- An access of `a` is refused. -/
def Refuses (s : State) (a : Word) : Prop := accessible s a = false

/-- `x` completes, or is the refusal of an access to an address in `P`. -/
def StopsOnlyAt (P : Word → Prop) {α : Type} (x : Result α) : Prop :=
  (∃ b, x = .next b) ∨ ∃ a, P a ∧ x = .refused (.mbc3ClockAccess a)

/-! ### Shared operations -/

section Operations

variable {α β : Type} {s t : State} {P Q : Word → Prop}

theorem StopsOnlyAt.next (b : α) : StopsOnlyAt P (.next b) := .inl ⟨b, rfl⟩

theorem StopsOnlyAt.mono {x : Result α} (hPQ : ∀ a, P a → Q a) (h : StopsOnlyAt P x) : StopsOnlyAt Q x :=
  h.imp id fun ⟨a, ha, hx⟩ => ⟨a, hPQ a ha, hx⟩

/-- A sequence stops in its first part or in its second. -/
theorem StopsOnlyAt.andThen {x : Result α} {f : α → Result β} (hx : StopsOnlyAt P x)
    (hf : ∀ b, x = .next b → StopsOnlyAt P (f b)) : StopsOnlyAt P (andThen x f) := by
  obtain ⟨b, rfl⟩ | ⟨a, ha, rfl⟩ := hx
  · exact hf b rfl
  · exact .inr ⟨a, ha, rfl⟩

/-- Only the cartridge says which addresses are refused. -/
theorem StopsOnlyAt.of_cart {x : Result α} (hc : t.cart = s.cart) (h : StopsOnlyAt (Refuses t) x) :
    StopsOnlyAt (Refuses s) x :=
  h.mono fun a ha => by simpa only [Refuses, accessible, hc] using ha

theorem rd_stops (a : Word) (s : State) : StopsOnlyAt (Refuses s) (rd a s) := by
  refine .andThen ?_ fun _ _ => .next _
  exact (memRead_stops (s := tick s) (a := a)).imp id fun h => ⟨a, h.2, h.1⟩

theorem wr_cases (a : Word) (v : Byte) (s : State) :
    (∃ t, wr a v s = .next t) ∨ accessible s a = false ∧ wr a v s = .refused (.mbc3ClockAccess a) := by
  cases h : accessible s a with
  | true => exact .inl (memWrite_of_accessible v h)
  | false =>
    obtain ⟨hc, hlo, hhi⟩ := accessible_eq_false_iff.mp h
    refine .inr ⟨rfl, ?_⟩
    simp [wr, memWrite, route_cartRam hlo hhi, cartWrite, hc, show ¬a.toNat < 0x8000 by omega]

theorem wr_stops (a : Word) (v : Byte) (s : State) : StopsOnlyAt (Refuses s) (wr a v s) :=
  (wr_cases a v s).imp id fun h => ⟨a, h⟩

/-- A second write is not refused by what the first selects: it is not in the RAM window where the first is a control
write. -/
theorem wr_after_wr_stops {u : State} {a b : Word} {v w : Byte} (h : wr a v s = .next t) (hu : u.cart = t.cart)
    (hab : 0x8000 ≤ a.toNat ∨ b.toNat < 0xA000 ∨ 0xC000 ≤ b.toNat) : StopsOnlyAt (Refuses s) (wr b w u) := by
  refine (wr_cases b w u).imp id fun ⟨hb, hr⟩ => ⟨b, Bool.eq_false_iff.mpr fun hs => ?_, hr⟩
  have ht : accessible t b = true := memWrite_accessible (s := tick s) h (by simpa using hs) hab
  simp only [accessible, hu] at hb ht
  exact absurd ht (by simp [hb])

theorem fetch8_stops (s : State) : StopsOnlyAt (Refuses s) (fetch8 s) := .andThen (rd_stops _ s) fun _ _ => .next _

theorem popByte_stops (s : State) : StopsOnlyAt (Refuses s) (popByte s) := .andThen (rd_stops _ s) fun _ _ => .next _

theorem pop16_stops (s : State) : StopsOnlyAt (Refuses s) (pop16 s) := by
  refine .andThen (popByte_stops s) fun ⟨v, t⟩ h => ?_
  obtain ⟨-, rfl⟩ := popByte_inv h
  exact .of_cart (t := setSp (tick s) (s.cpu.sp + 1)) rfl (.andThen (popByte_stops _) fun _ _ => .next _)

/-- The second byte of a push is one below the first, so never in the RAM window where the first is a control write. -/
theorem push16_stops (w : Word) (s : State) : StopsOnlyAt (Refuses s) (push16 w s) := by
  refine .andThen (wr_stops _ _ _) fun t h => ?_
  have hsp : t.cpu.sp = s.cpu.sp - 1 := by rw [(memWrite_frame h).cpu]; rfl
  refine .of_cart (s := s) (t := setSp s (s.cpu.sp - 1)) rfl (wr_after_wr_stops h rfl ?_)
  rw [hsp]
  bv_omega

theorem readHl_stops {k : Byte → State → Result State} (h : ∀ v, StopsOnlyAt (Refuses s) (k v (tick s))) :
    StopsOnlyAt (Refuses s) (readHl s k) := by
  refine .andThen (rd_stops _ s) fun ⟨v, t⟩ hr => ?_
  obtain ⟨-, rfl⟩ := rd_inv hr
  exact h v

/-- The write of the cycle after a read at HL, the flags written in between. -/
theorem tick_wr_stops (a : Word) (v : Byte) (c : Cpu) : StopsOnlyAt (Refuses s) (wr a v (withCpu (tick s) c)) :=
  .of_cart (t := withCpu (tick s) c) rfl (wr_stops a v _)

theorem loadA_stops (a : Word) (s : State) : StopsOnlyAt (Refuses s) (loadA a s) :=
  .andThen (rd_stops a s) fun _ _ => .next _

theorem callTo_stops (w : Word) (s : State) : StopsOnlyAt (Refuses s) (callTo w s) :=
  .andThen (.of_cart (t := tick s) rfl (push16_stops _ _)) fun _ _ => .next _

theorem returnTo_stops (s : State) : StopsOnlyAt (Refuses s) (returnTo s) := .andThen (pop16_stops s) fun _ _ => .next _

/-- A conditional body completes where its condition fails. -/
theorem StopsOnlyAt.ite (b : Bool) {x : Result α} {y : α} (hx : StopsOnlyAt P x) :
    StopsOnlyAt P (if b then x else .next y) := by
  cases b
  · exact .next y
  · exact hx

theorem execShiftReg_stops (y : Nat) (r : Reg8) (s : State) : StopsOnlyAt (Refuses s) (execShiftReg y r s) := by
  unfold execShiftReg
  split <;> exact .next _

theorem execShiftMemHl_stops (y : Nat) (s : State) : StopsOnlyAt (Refuses s) (execShiftMemHl y s) := by
  unfold execShiftMemHl
  split <;> exact readHl_stops fun _ => tick_wr_stops _ _ _

theorem execCbByte_stops (cb : Byte) (s : State) : StopsOnlyAt (Refuses s) (execCbByte cb s) := by
  unfold execCbByte
  split
  · exact execShiftReg_stops _ _ s
  · exact .next _
  · exact .next _
  · exact .next _
  · exact execShiftMemHl_stops _ s
  · exact readHl_stops fun _ => .next _
  · exact readHl_stops fun _ => tick_wr_stops _ _ s.cpu
  · exact readHl_stops fun _ => tick_wr_stops _ _ s.cpu

theorem execPrefixCb_stops (s : State) : StopsOnlyAt (Refuses s) (execPrefixCb s) := by
  refine .andThen (fetch8_stops s) fun ⟨cb, t⟩ h => ?_
  obtain ⟨-, rfl⟩ := fetch8_inv h
  exact .of_cart (t := setPc (tick s) (s.cpu.pc + 1)) rfl (execCbByte_stops cb _)

/-- The two writes of LD (nn),SP are at neighbouring addresses, so the second is not in the RAM window where the first
is a control write (R331). -/
theorem execLdNnSp_stops (nn : Word) (s : State) : StopsOnlyAt (Refuses s) (execLdNnSp nn s) :=
  .andThen (wr_stops _ _ _) fun _ h => wr_after_wr_stops h rfl (by bv_omega)

end Operations

/-- An instruction's body completes, or is refused at an address that the machine it starts from cannot access. -/
theorem exec_stops (i : Instr) (s : State) : StopsOnlyAt (Refuses s) (exec i s) := by
  unfold exec
  cases i with
  -- no access
  | nop | ldDdNn | incDd | decDd | incR | decR | ldRN | rlca | rrca | rla | rra | addHlDd | stop | jrE | daa | cpl | scf
  | ccf | ldRR | halt | addAR | addAN | adcAR | adcAN | subR | subN | sbcAR | sbcAN | andR | andN | xorR | xorN | orR
  | orN | cpR | cpN | jpNn | addSpE | jpHl | di | ldHlSpE | ldSpHl | ei | illegalD3 | illegalDB | illegalDD | illegalE3
  | illegalE4 | illegalEB | illegalEC | illegalED | illegalF4 | illegalFC | illegalFD | rlcR | rrcR | rlR | rrR | slaR
  | sraR | swapR | srlR | bitBR | resBR | setBR => exact .next _
  | jrCcE | jpCcNn => exact .ite _ (.next _)
  -- a read at HL
  | ldRMemHl | addAMemHl | adcAMemHl | subMemHl | sbcAMemHl | andMemHl | xorMemHl | orMemHl | cpMemHl | bitBMemHl =>
    exact readHl_stops fun _ => .next _
  -- a read and a write at HL
  | incMemHl | decMemHl | rlcMemHl | rrcMemHl | rlMemHl | rrMemHl | slaMemHl | sraMemHl | swapMemHl | srlMemHl =>
    exact readHl_stops fun _ => tick_wr_stops _ _ _
  | resBMemHl | setBMemHl => exact readHl_stops fun _ => tick_wr_stops _ _ s.cpu
  -- loads of A and stores
  | ldABc | ldADe | ldANn | ldhAN | ldAC => exact loadA_stops _ s
  | ldAHli | ldAHld => exact .andThen (loadA_stops _ s) fun _ _ => .next _
  | ldMemHlR | ldMemHlN | ldBcA | ldDeA | ldNnA | ldhNA | ldCA => exact wr_stops _ _ s
  | ldHliA | ldHldA => exact .andThen (wr_stops _ _ s) fun _ _ => .next _
  | ldNnSp nn => exact execLdNnSp_stops nn s
  -- the stack
  | pushQq => exact .of_cart (t := tick s) rfl (push16_stops _ _)
  | popQq | reti => exact .andThen (pop16_stops s) fun _ _ => .next _
  | callNn | rstT => exact callTo_stops _ s
  | callCcNn => exact .ite _ (callTo_stops _ s)
  | ret => exact returnTo_stops s
  | retCc => exact .of_cart (t := tick s) rfl (.ite _ (returnTo_stops _))
  | prefixCb => exact execPrefixCb_stops s

/-- Settles O35: a body is refused only where a clock register is selected. -/
theorem everyInstructionCompletes : Obligations.EveryInstructionCompletes := by
  unfold Obligations.EveryInstructionCompletes
  intro i s hc
  obtain ht | ⟨a, ha, -⟩ := exec_stops i s
  · exact ht
  · rw [(accessible_eq_false_iff.mp ha).1] at hc
    cases hc

/-! ### The step -/

theorem fetch16_stops (s : State) : StopsOnlyAt (Refuses s) (fetch16 s) := by
  refine .andThen (fetch8_stops s) fun ⟨v, t⟩ h => ?_
  obtain ⟨-, rfl⟩ := fetch8_inv h
  exact .of_cart (t := setPc (tick s) (s.cpu.pc + 1)) rfl (.andThen (fetch8_stops _) fun _ _ => .next _)

theorem fetchInstr_stops (s : State) : StopsOnlyAt (Refuses s) (fetchInstr s) := by
  refine .andThen (.andThen (rd_stops _ s) fun _ _ => .next _) fun ⟨op, t⟩ h => ?_
  have hcart : t.cart = s.cart := by
    rw [(fetchOpcode_inv h).2]
    rfl
  refine .of_cart hcart ?_
  dsimp only
  split
  · exact .andThen (fetch8_stops _) fun _ _ => .next _
  · split
    · exact .next _
    · exact .andThen (fetch8_stops _) fun _ _ => .next _
    · exact .andThen (fetch16_stops _) fun _ _ => .next _

theorem enterInterrupt_stops (i : Nat) (s : State) : StopsOnlyAt (Refuses s) (enterInterrupt i s) :=
  .andThen (.of_cart (t := idle (idle (acceptInterrupt i s))) rfl (push16_stops _ _)) fun _ _ => .next _

theorem interruptServiceRoutine_stops (s : State) : StopsOnlyAt (Refuses s) (interruptServiceRoutine s) := by
  unfold interruptServiceRoutine
  split_ifs
  · exact .next _
  · exact .andThen (enterInterrupt_stops _ s) fun _ _ => .next _
  · exact .next _
  · exact .next _

theorem finishStep_stops (s : State) : StopsOnlyAt (Refuses s) (finishStep s) := by
  unfold finishStep
  split
  · exact .next s
  · exact interruptServiceRoutine_stops s

/-- The cartridge is an MBC3. -/
def IsMbc3 (s : State) : Prop := ∃ m, s.cart.mapper = .mbc3 m

theorem isMbc3_iff_sameKind (s : State) (r : Mbc3) : IsMbc3 s ↔ sameKind (.mbc3 r) s.cart.mapper = true := by
  unfold IsMbc3
  cases s.cart.mapper <;> simp [sameKind]

theorem memWrite_sameKind {s t : State} {a : Word} {v : Byte} (k : Mapper) (h : memWrite s a v = .next t) :
    sameKind k t.cart.mapper = sameKind k s.cart.mapper := by
  obtain ⟨d, -, hd, rfl⟩ | ⟨-, rfl⟩ | ⟨-, rfl⟩ | ⟨-, rfl⟩ | ⟨-, rfl⟩ | ⟨-, rfl⟩ | ⟨-, rfl⟩ | ⟨-, rfl⟩ :=
    memWrite_cases h
  · obtain ⟨-, rfl⟩ | ⟨-, -, ⟨i, -, rfl⟩ | ⟨-, rfl⟩⟩ := cartWrite_cases hd
    · exact sameKind_mapperWrite k _ _ v
    · rfl
    · rfl
  all_goals rfl

/-- No run changes the kind of the mapper. -/
theorem Runs.sameKind {P : State → State → Prop} {n : Nat} {s t : State} (k : Mapper) (h : Runs P n s t) :
    sameKind k t.cart.mapper = sameKind k s.cart.mapper := by
  induction h with
  | start => rfl
  | tick _ ih => exact ih
  | write _ hw ih => exact (memWrite_sameKind k hw).trans ih
  | own _ _ _ _ _ ih => exact ih

theorem isMbc3_of_run {s t : State} {n : Nat} (h : AnyRun n s t) (ht : IsMbc3 t) : IsMbc3 s := by
  obtain ⟨r, hr⟩ := ht
  rw [isMbc3_iff_sameKind s r, ← h.sameKind, ← isMbc3_iff_sameKind]
  exact ⟨r, hr⟩

theorem isMbc3_of_refuses {s : State} {a : Word} (h : Refuses s a) : IsMbc3 s := by
  have hc := (accessible_eq_false_iff.mp h).1
  unfold clockSelected at hc
  split at hc
  · rename_i m hm
    exact ⟨m, hm⟩
  · cases hc

/-- The window of the clock registers of an MBC3 cartridge (R113). -/
def InMbc3Window (s : State) (a : Word) : Prop := IsMbc3 s ∧ 0xA000 ≤ a.toNat ∧ a.toNat < 0xC000

/-- A part of a step stops as the step may. -/
theorem StopsOnlyAt.of_run {α : Type} {s t : State} {n : Nat} {x : Result α} (hr : AnyRun n s t)
    (h : StopsOnlyAt (Refuses t) x) : StopsOnlyAt (InMbc3Window s) x :=
  h.mono fun _ ha => ⟨isMbc3_of_run hr (isMbc3_of_refuses ha), (accessible_eq_false_iff.mp ha).2⟩

/-- A step of a machine with no fault completes, or is refused in the RAM window of an MBC3. -/
theorem step_stops {s : State} (hf : s.fault = none) : StopsOnlyAt (InMbc3Window s) (step s) := by
  unfold step
  rw [hf]
  dsimp only
  split
  · exact .of_run (Runs.ticks 1 s) (finishStep_stops _)
  · refine .andThen (.of_run (.start s) (fetchInstr_stops s)) fun ⟨i, t⟩ hi => ?_
    obtain ⟨pc, rfl⟩ := fetchInstr_inv hi
    have hfetch := afterFetch_run s (fetchedBytes i).length pc
    refine .andThen (.of_run hfetch (exec_stops i _)) fun u hu => ?_
    obtain ⟨n, hbody, -⟩ := exec_runs hu
    exact .of_run (hfetch.trans hbody.any) (finishStep_stops u)

theorem step_of_fault {s : State} {f : Fault} (h : s.fault = some f) : step s = .fault f := by
  unfold step
  rw [h]

/-- Settles O7: with a fault by definition, without one by `step_stops`. -/
theorem stepStops : Obligations.StepStops := by
  unfold Obligations.StepStops
  intro s
  cases hf : s.fault with
  | some g =>
    rw [step_of_fault hf]
    exact ⟨fun f => by simp, nofun⟩
  | none =>
    obtain ⟨t, ht⟩ | ⟨a, ⟨hm, ha⟩, hr⟩ := step_stops hf
    · rw [ht]
      exact ⟨fun _ => ⟨nofun, nofun⟩, nofun⟩
    · rw [hr]
      refine ⟨fun _ => ⟨nofun, nofun⟩, ?_⟩
      rintro _ ⟨⟩
      exact ⟨hm, a, rfl, ha⟩

end Sys2Proof.Machine
end

section
/-! PROOFS. Stores through the bus (O21): a store of a machine cycle, and the instructions that make one (R314 to
R331). -/

namespace Sys2Proof.Machine

/-! ### Words and bytes -/

theorem loByte_eq_ofNat (w : Word) : loByte w = BitVec.ofNat 8 w.toNat := by
  apply BitVec.eq_of_toNat_eq
  simp [loByte]

theorem hiByte_eq_ofNat (w : Word) : hiByte w = BitVec.ofNat 8 (w.toNat / 256) := by
  apply BitVec.eq_of_toNat_eq
  simp [hiByte, Nat.shiftRight_eq_div_pow]

theorem zext16_eq_ofNat (v : Byte) : zext16 v = BitVec.ofNat 16 v.toNat := by
  apply BitVec.eq_of_toNat_eq
  simp [zext16]

theorem highPage_eq_ofNat (n : Byte) : highPage n = BitVec.ofNat 16 (0xFF00 + n.toNat) := by
  rw [highPage, zext16_eq_ofNat, BitVec.ofNat_add]

/-! ### One store -/

/-- A write in the machine cycle after `s` is what `Stores` says, whatever the body then does to the CPU. -/
theorem wr_stores {s t : State} {a : Word} {v : Byte} (c : Cpu) (h : wr a v s = .next t) :
    Stores s (tick s) (withCpu t c) a v where
  write := memWrite_withCpu c h
  placed hok l hl := by
    rw [readLoc_withCpu]
    exact memWrite_placed (tick_storesOk hok) h l hl
  others l hl := by
    rw [readLoc_withCpu, memWrite_others h l hl, readLoc_tick]

theorem wr_cpu {s t : State} {a : Word} {v : Byte} (h : wr a v s = .next t) : t.cpu = s.cpu := (memWrite_frame h).cpu

theorem wr_of_accessible {s : State} {a : Word} (v : Byte) (h : accessible s a = true) : ∃ t, wr a v s = .next t :=
  memWrite_of_accessible v (by simpa using h)

/-- `i` at `s` stores `v` at `a`, then adds `d` to HL. -/
def StoresOne (s : State) (i : Instr) (a : Word) (v : Byte) (d : Word) : Prop :=
  ∃ t, exec i s = .next t ∧ Stores s (tick s) t a v ∧ t.cpu = { s.cpu with hl := s.cpu.hl + d }

variable {s : State} {i : Instr} {a : Word} {v : Byte}

theorem wr_storesOne (hi : exec i s = wr a v s) (h : accessible s a = true) : StoresOne s i a v 0 := by
  obtain ⟨t, ht⟩ := wr_of_accessible v h
  have hc := wr_cpu ht
  refine ⟨t, hi.trans ht, ?_, by simp [hc]⟩
  simpa using wr_stores t.cpu ht

theorem wr_addHl_storesOne (d : Word) (hi : exec i s = andThen (wr a v s) fun t => .next (addHl d t))
    (h : accessible s a = true) : StoresOne s i a v d := by
  obtain ⟨t, ht⟩ := wr_of_accessible v h
  refine ⟨addHl d t, by rw [hi, ht]; rfl, wr_stores _ ht, ?_⟩
  rw [addHl, withCpu_cpu, wr_cpu ht]

/-- Every form of the list stores its byte at its address. -/
theorem storeForms_storesOne (s : State) (r : Reg8) (n : Byte) (nn : Word) :
    ∀ f ∈ storeForms s.cpu r n nn, accessible s f.2.1 = true → StoresOne s f.1 f.2.1 f.2.2.1 f.2.2.2 := by
  simp only [storeForms, List.forall_mem_cons, ← highPage_eq_ofNat]
  exact ⟨wr_storesOne rfl, wr_storesOne rfl, wr_storesOne rfl, wr_storesOne rfl, wr_storesOne rfl, wr_storesOne rfl,
    wr_storesOne rfl, wr_addHl_storesOne 1 rfl, wr_addHl_storesOne (-1) rfl, fun _ h => absurd h List.not_mem_nil⟩

/-- LD (nn),SP is two stores, each in its own cycle (R331). -/
theorem execLdNnSp_stores {nn : Word} (hlo : accessible s nn = true) (hhi : accessible s (nn + 1) = true) :
    ∃ m t, exec (.ldNnSp nn) s = .next t ∧ t.cpu = s.cpu ∧ Stores s (tick s) m nn (loByte s.cpu.sp) ∧
      Stores m (tick m) t (nn + 1) (hiByte s.cpu.sp) := by
  obtain ⟨m, hm⟩ := wr_of_accessible (loByte s.cpu.sp) hlo
  have hcm := wr_cpu hm
  have hacc : accessible m (nn + 1) = true := memWrite_accessible hm (by simpa using hhi) (by bv_omega)
  obtain ⟨t, ht⟩ := wr_of_accessible (hiByte s.cpu.sp) hacc
  refine ⟨m, t, ?_, (wr_cpu ht).trans hcm, by simpa using wr_stores m.cpu hm, by simpa using wr_stores t.cpu ht⟩
  change execLdNnSp nn s = _
  rw [execLdNnSp, hm, andThen_next, hcm, ht]

/-- Settles O21: each form is one store of a cycle, LD (nn),SP two. -/
theorem memoryStores : Obligations.MemoryStores := by
  unfold Obligations.MemoryStores
  intro s
  refine ⟨fun r n nn f hf hacc => storeForms_storesOne s r n nn f hf hacc, fun nn hlo hhi => ?_⟩
  rw [← loByte_eq_ofNat, ← hiByte_eq_ofNat]
  exact execLdNnSp_stores hlo hhi

end Sys2Proof.Machine
end

section
/-! PROOFS. Calls (O25): each call is a cycle, a push of PC and a jump (R356, R357, R361). -/

namespace Sys2Proof.Machine

theorem condHolds_eq_true_iff (cc : Cond) (s : State) : condHolds s.cpu cc = true ↔ Holds cc s := by
  cases cc <;> simp [condHolds, Holds]

/-- A call pushes PC a cycle on and jumps. -/
theorem callTo_pushes {s : State} (w : Word) (hhi : accessible s (s.cpu.sp - 1) = true)
    (hlo : accessible s (s.cpu.sp - 2) = true) :
    ∃ u t, Pushes s 1 s.cpu.pc u ∧ callTo w s = .next t ∧
      t = { u with cpu := { s.cpu with sp := s.cpu.sp - 2, pc := w } } := by
  obtain ⟨u, hu, hp⟩ := push16_pushes 1 s.cpu.pc hhi hlo
  have hcpu : u.cpu = { s.cpu with sp := s.cpu.sp - 2 } := push16_cpu (s := tick s) hu
  refine ⟨u, setPc u w, hp, ?_, by rw [setPc, hcpu]⟩
  rw [callTo, idle_eq_tick]
  change andThen (push16 s.cpu.pc (ticks 1 s)) _ = _
  rw [hu, andThen_next]

/-- Settles O25: every call taken is `callTo` at its target. -/
theorem calls : Obligations.Calls := by
  unfold Obligations.Calls
  intro s nn t8 cc
  refine ⟨fun hhi hlo => ⟨callTo_pushes nn hhi hlo, ?_, fun hcc => ?_⟩, fun hcc => ?_⟩
  · rw [← zext16_eq_ofNat]
    exact callTo_pushes (zext16 t8) hhi hlo
  · have hexec : exec (.callCcNn cc nn) s = callTo nn s := if_pos ((condHolds_eq_true_iff cc s).mpr hcc)
    rw [hexec]
    exact callTo_pushes nn hhi hlo
  · exact if_neg fun h => hcc ((condHolds_eq_true_iff cc s).mp h)

end Sys2Proof.Machine
end

section
/-! PROOFS. A push and a pop with the stack in flat RAM (O23, R333, R334). -/

namespace Sys2Proof.Machine

/-- The addresses that name a byte of flat RAM, the same in every state (R76, R77). -/
theorem locOf_eq_flat_iff {s : State} {a : Word} {x : Nat} : locOf s a = some (.flat x) ↔
    route a = some .echo ∧ echoTarget a.toNat = x ∨ route a = none ∧ a.toNat = x := by
  unfold locOf
  cases hr : route a with
  | none =>
    have h8 : 0x8000 ≤ a.toNat := by have := of_route_none hr; omega
    simp [h8]
  | some c =>
    cases c with
    | cartridge =>
      dsimp only
      split_ifs
      · simp
      · simp
      · split <;> simp
    | ppu =>
      dsimp only
      split_ifs <;> simp
    | _ => simp

section Flat

variable {s : State} {a : Word} {x : Nat} (h : locOf s a = some (.flat x))

include h

theorem locOf_flat_congr (t : State) : locOf t a = some (.flat x) := locOf_eq_flat_iff.mpr (locOf_eq_flat_iff.mp h)

theorem storedLoc_flat (t : State) : storedLoc t a = some (.flat x) := by
  rw [storedLoc, locOf_flat_congr h t]

theorem memRead_flat (t : State) : memRead t a = .next (readLoc t (.flat x)) :=
  memRead_of_locOf (locOf_flat_congr h t) nofun nofun

/-- Flat RAM is above the cartridge's RAM window. -/
theorem le_toNat_of_flat : 0xC000 ≤ a.toNat := by
  obtain ⟨hr, -⟩ | ⟨hr, -⟩ := locOf_eq_flat_iff.mp h
  · have := of_route_echo hr
    omega
  · exact of_route_none hr

theorem accessible_flat (t : State) : accessible t a = true := accessible_of_locOf (locOf_flat_congr h t)

/-- Neighbouring addresses never name one byte of flat RAM. -/
theorem flat_ne_flat_below {y : Nat} (hy : locOf s (a - 1) = some (.flat y)) : x ≠ y := by
  have hw := le_toNat_of_flat h
  have hsub : (a - 1).toNat = a.toNat - 1 := by bv_omega
  have hxa := (locOf_eq_flat_iff.mp h).imp And.right And.right
  have hya := (locOf_eq_flat_iff.mp hy).imp And.right And.right
  unfold echoTarget at hxa hya
  omega

end Flat

/-- With both slots of the stack in flat RAM, a push leaves its word there. -/
theorem push16_flat {s : State} {k x y : Nat} (w : Word) (hok : StoresOk s)
    (hx : locOf s (s.cpu.sp - 1) = some (.flat x)) (hy : locOf s (s.cpu.sp - 2) = some (.flat y)) :
    ∃ t, push16 w (ticks k s) = .next t ∧ t.cpu = { s.cpu with sp := s.cpu.sp - 2 } ∧
      t.clock = s.clock + 4 * (k + 2) ∧ readLoc t (.flat x) = hiByte w ∧ readLoc t (.flat y) = loByte w := by
  obtain ⟨t, ht, m, -, -, hcpu, hclock, hlo, hhi, -⟩ := push16_pushes k w (accessible_flat hx s) (accessible_flat hy s)
  have e2 : s.cpu.sp - 1 - 1 = s.cpu.sp - 2 := by bv_omega
  have hxy : x ≠ y := flat_ne_flat_below hx (by rw [e2]; exact hy)
  refine ⟨t, ht, hcpu, hclock, hhi hok _ (storedLoc_flat hx _) ?_, hlo hok _ (storedLoc_flat hy _)⟩
  rw [storedLoc_flat hy]
  simpa using hxy.symm

/-- A pop reads the word that its two slots hold. -/
theorem pops_flat {s : State} {x y : Nat} {w : Word} (hx : locOf s (s.cpu.sp + 1) = some (.flat x))
    (hy : locOf s s.cpu.sp = some (.flat y)) (h : Pops s w) :
    w = joinBytes (readLoc s (.flat x)) (readLoc s (.flat y)) := by
  obtain ⟨l, hi, hl, hh, rfl⟩ := h
  rw [memRead_flat hy, readLoc_tick] at hl
  rw [memRead_flat hx, readLoc_ticks] at hh
  cases hl
  cases hh
  rfl

theorem afterPop_sp (s : State) (qq : StackPair) (w : Word) : (afterPop s qq w).cpu.sp = s.cpu.sp + 2 := by
  rw [afterPop_frame]

theorem afterPop_clock (s : State) (qq : StackPair) (w : Word) : (afterPop s qq w).clock = s.clock + 8 :=
  ticks_clock 2 s

/-- Settles O23: the push leaves the word in two different bytes of flat RAM, and the pop reads them. -/
theorem pushPopRoundTrip : Obligations.PushPopRoundTrip := by
  unfold Obligations.PushPopRoundTrip
  intro s qq q x y hok hx hy
  rw [exec_pushQq]
  obtain ⟨t, ht, hcpu, hclock, hhi, hlo⟩ := push16_flat (k := 1) (getStackPair s.cpu qq) hok hx hy
  have hsp : t.cpu.sp = s.cpu.sp - 2 := by rw [hcpu]
  have hsp1 : t.cpu.sp + 1 = s.cpu.sp - 1 := by bv_omega
  have hx' : locOf t (t.cpu.sp + 1) = some (.flat x) := by rw [hsp1]; exact locOf_flat_congr hx t
  have hy' : locOf t t.cpu.sp = some (.flat y) := by rw [hsp]; exact locOf_flat_congr hy t
  obtain ⟨w, hw, hpop⟩ := exec_popQq q (accessible_flat hy' t) (accessible_flat hx' t)
  have hword : w = getStackPair s.cpu qq := by rw [pops_flat hx' hy' hw, hhi, hlo, joinBytes_hiByte_loByte]
  refine ⟨t, _, ht, hpop, ?_, ?_, hclock, afterPop_clock t q w⟩
  · rw [afterPop_pair, hword]
  · rw [afterPop_sp, hsp]
    bv_omega

end Sys2Proof.Machine
end

section
/-! PROOFS. The memory map (O37), the echo of work RAM (O39), and stores read back through the bus (O38). -/

namespace Sys2Proof.Machine

/-! ### The owner of every address (R71, R72) -/

section Owners

variable {a : Word}

theorem route_joypad (h : a = 0xFF00#16) : route a = some .joypad := by
  rw [h]
  rfl

theorem route_serial (h : a = 0xFF01#16 ∨ a = 0xFF02#16) : route a = some .serial := by
  rcases h with rfl | rfl <;> rfl

theorem route_timer (h : 0xFF04 ≤ a.toNat ∧ a.toNat ≤ 0xFF07) : route a = some .timer := by
  have ha : a = 0xFF04#16 ∨ a = 0xFF05#16 ∨ a = 0xFF06#16 ∨ a = 0xFF07#16 := by bv_omega
  rcases ha with rfl | rfl | rfl | rfl <;> rfl

theorem route_interruptController (h : a = 0xFF0F#16 ∨ a = 0xFFFF#16) : route a = some .interruptController := by
  rcases h with rfl | rfl <;> rfl

theorem route_ppuReg (h : 0xFF40 ≤ a.toNat ∧ a.toNat ≤ 0xFF4B ∧ a ≠ 0xFF46#16) : route a = some .ppu := by
  have ha : a ∈ ppuRegAddresses := by
    simp only [ppuRegAddresses, List.mem_cons, List.not_mem_nil, or_false]
    bv_omega
  fin_cases ha <;> rfl

/-- What is left above OAM lies in no range. -/
theorem route_unclaimed (h : 0xFEA0 ≤ a.toNat) (hJoy : a ≠ 0xFF00#16) (hSer : ¬(a = 0xFF01#16 ∨ a = 0xFF02#16))
    (hTim : ¬(0xFF04 ≤ a.toNat ∧ a.toNat ≤ 0xFF07)) (hInt : ¬(a = 0xFF0F#16 ∨ a = 0xFFFF#16))
    (hPpu : ¬(0xFF40 ≤ a.toNat ∧ a.toNat ≤ 0xFF4B ∧ a ≠ 0xFF46#16)) : route a = none := by
  simp only [ne_eq, ← BitVec.toNat_inj, BitVec.toNat_ofNat] at hJoy hSer hInt hPpu
  refine routeIn_eq_none fun r hr => ?_
  fin_cases hr <;> dsimp only <;> omega

end Owners

/-- Settles O37: the regions one after another, what is left lying in no range. -/
theorem memoryMap : Obligations.MemoryMap := by
  unfold Obligations.MemoryMap
  refine ⟨by simp [rangeTable], fun a => Eq.symm ?_⟩
  refine ite_eq_iff'.mpr ⟨fun h => (route_rom h).symm, fun hRom => ?_⟩
  refine ite_eq_iff'.mpr ⟨fun h => (route_vram (by omega) h).symm, fun hVram => ?_⟩
  refine ite_eq_iff'.mpr ⟨fun h => (route_cartRam (by omega) h).symm, fun hCart => ?_⟩
  refine ite_eq_iff'.mpr ⟨fun h => (route_workRam (by omega) h).symm, fun hWork => ?_⟩
  refine ite_eq_iff'.mpr ⟨fun h => (route_echo (by omega) h).symm, fun hEcho => ?_⟩
  refine ite_eq_iff'.mpr ⟨fun h => (route_oam (by omega) h).symm, fun hOam => ?_⟩
  refine ite_eq_iff'.mpr ⟨fun h => (route_joypad h).symm, fun hJoy => ?_⟩
  refine ite_eq_iff'.mpr ⟨fun h => (route_serial h).symm, fun hSer => ?_⟩
  refine ite_eq_iff'.mpr ⟨fun h => (route_timer h).symm, fun hTim => ?_⟩
  refine ite_eq_iff'.mpr ⟨fun h => (route_interruptController h).symm, fun hInt => ?_⟩
  refine ite_eq_iff'.mpr ⟨fun h => (route_ppuReg h).symm, fun hPpu => ?_⟩
  exact (route_unclaimed (by omega) hJoy hSer hTim hInt hPpu).symm

/-! ### The echo (R77) -/

/-- Settles O39: both addresses reach the same byte of flat RAM. -/
theorem echoRam : Obligations.EchoRam := by
  unfold Obligations.EchoRam
  intro s a v hlo hhi
  have hecho : route a = some .echo := route_echo hlo (by omega)
  have hbelow : (a - 0x2000#16).toNat = a.toNat - 0x2000 := by bv_omega
  have hwork : route (a - 0x2000#16) = none := route_workRam (by omega) (by omega)
  have hflat : 0x8000 ≤ a.toNat - 0x2000 := by omega
  have hread : memRead s a = .next (storeRead s.flat (a.toNat - 0x2000)) := by
    rw [memRead, hecho]
    rfl
  have hwrite : memWrite s a v = .next { s with flat := storeWrite s.flat (a.toNat - 0x2000) v } := by
    rw [memWrite, hecho]
    rfl
  refine ⟨hread, hwrite, ?_, ?_⟩
  · rw [hread]
    simp only [memRead, hwork, hbelow, if_pos hflat]
  · rw [hwrite]
    simp only [memWrite, hwork, hbelow, if_pos hflat]

/-! ### What a read gives -/

/-- The CPU is locked out of a byte of plain memory (R470). -/
def locked (s : State) (l : Loc) : Bool :=
  match l with
  | .vram _ => vramLocked s.config s.ppu
  | .oam _ => oamLocked s.config s.ppu
  | _ => false

theorem locOf_vram (s : State) {a : Word} (h : 0x8000 ≤ a.toNat) (h' : a.toNat < 0xA000) :
    locOf s a = some (.vram a.toNat) := by
  simp [locOf, route_vram h h', h']

theorem locOf_oam (s : State) {a : Word} (h : 0xFE00 ≤ a.toNat) (h' : a.toNat < 0xFEA0) :
    locOf s a = some (.oam a.toNat) := by
  simp [locOf, route_oam h h', show ¬a.toNat < 0xA000 by omega, show a.toNat < 0xFF00 by omega]

/-- Behind an address of the PPU is a byte of VRAM, a byte of OAM, or a register. -/
theorem locOf_ppu {s : State} {a : Word} (hr : route a = some .ppu) :
    locOf s a = if a.toNat < 0xA000 then some (.vram a.toNat)
      else if a.toNat < 0xFF00 then some (.oam a.toNat) else none := by
  unfold locOf
  rw [hr]

theorem locOf_cartridge {s : State} {a : Word} (hr : route a = some .cartridge) :
    locOf s a = if a.toNat < 0x8000 then some (.rom (romIndex s.cart a.toNat))
      else if clockSelected s.cart then none else (ramIndex s.cart a.toNat).map .cartRam := by
  unfold locOf
  rw [hr]
  dsimp only
  cases ramIndex s.cart a.toNat <;> rfl

/-- The bytes the CPU can be locked out of are the PPU's. -/
theorem route_of_locked {s : State} {a : Word} {l : Loc} (h : locOf s a = some l) (hl : locked s l = true) :
    route a = some .ppu := by
  unfold locOf at h
  cases hr : route a with
  | none =>
    simp only [hr] at h
    split at h <;> cases h
    cases hl
  | some c =>
    cases c <;> simp only [hr] at h
    case ppu => rfl
    case cartridge =>
      split_ifs at h
      · cases h
        cases hl
      · split at h <;> cases h
        cases hl
    case echo =>
      cases h
      cases hl
    all_goals cases h

/-- A read at an address that names a byte of plain memory. -/
theorem memRead_plain {s : State} {a : Word} {l : Loc} (h : locOf s a = some l) :
    memRead s a = .next (if locked s l then 0xFF#8 else readLoc s l) := by
  cases hk : locked s l with
  | false => exact memRead_of_locOf h (fun b hb => by subst hb; exact hk) (fun b hb => by subst hb; exact hk)
  | true =>
    have hr := route_of_locked h hk
    rw [locOf_ppu hr] at h
    rw [memRead, hr]
    dsimp only [ppuRead]
    split_ifs at h ⊢ <;> cases h <;> simp_all [locked]

/-- `t` is `s` but for the bytes of its memories above ROM. -/
def SameButMemory (s t : State) : Prop :=
  t = { s with
    flat := t.flat
    ppu := { s.ppu with vram := t.ppu.vram, oam := t.ppu.oam }
    cart := { s.cart with ram := t.cart.ram } }

/-- Where no RAM stands behind the window, the RAM buffer takes no part in a read. -/
theorem cartRead_withRam (c : Cartridge) (m : Memory) {a : Word} (hRom : ¬a.toNat < 0x8000)
    (h : clockSelected c = true ∨ ramIndex c a.toNat = none) : cartRead { c with ram := m } a = cartRead c a := by
  have hClock : clockSelected { c with ram := m } = clockSelected c := rfl
  have hIndex : ramIndex { c with ram := m } a.toNat = ramIndex c a.toNat := rfl
  simp only [cartRead, if_neg hRom, hClock, hIndex]
  rcases h with h | h
  · rw [if_pos h, if_pos h]
  · rw [h]

section SameButMemory

variable {s t : State} (h : SameButMemory s t)

include h

theorem SameButMemory.locOf (a : Word) : locOf t a = Machine.locOf s a := by
  rw [h]
  rfl

theorem SameButMemory.locked (l : Loc) : locked t l = Machine.locked s l := by
  rw [h]
  rfl

/-- An address of no byte of plain memory reads a device register, or 0xFF where the window has no RAM behind it. -/
theorem SameButMemory.memRead_device {a : Word} (ha : Machine.locOf s a = none) : memRead t a = memRead s a := by
  rw [h]
  unfold memRead
  cases hr : route a with
  | none =>
    have h8 : 0x8000 ≤ a.toNat := by have := of_route_none hr; omega
    simp [Machine.locOf, hr, h8] at ha
  | some c =>
    cases c with
    | cartridge =>
      rw [locOf_cartridge hr] at ha
      by_cases hRom : a.toNat < 0x8000
      · simp [hRom] at ha
      · refine cartRead_withRam s.cart t.cart.ram hRom ?_
        cases hc : clockSelected s.cart with
        | true => exact .inl rfl
        | false => simpa [hRom, hc] using ha
    | ppu =>
      rw [locOf_ppu hr] at ha
      by_cases hVram : a.toNat < 0xA000
      · simp [hVram] at ha
      · by_cases hOam : a.toNat < 0xFF00
        · simp [hVram, hOam] at ha
        · simp only [ppuRead, if_neg hVram, if_neg hOam]
          rfl
    | echo => simp [Machine.locOf, hr] at ha
    | _ => rfl

end SameButMemory

/-! ### A store to plain memory -/

/-- The byte a store changes is the one its address names, where that is no ROM byte and the CPU is not locked out
of it. -/
theorem storedLoc_eq_some {s : State} {a : Word} {l : Loc} (h : storedLoc s a = some l) :
    locOf s a = some l ∧ locked s l = false ∧ ∀ i, l ≠ .rom i := by
  unfold storedLoc at h
  split at h
  · cases h
  · rename_i b hb
    split at h <;> cases h
    rename_i hk
    exact ⟨hb, by simpa [locked] using hk, nofun⟩
  · rename_i b hb
    split at h <;> cases h
    rename_i hk
    exact ⟨hb, by simpa [locked] using hk, nofun⟩
  · rename_i k hrom hvram hoam
    refine ⟨h, ?_, fun i hi => hrom i (by rw [h, hi])⟩
    unfold locked
    split
    · exact absurd h (hvram _)
    · exact absurd h (hoam _)
    · rfl

/-- A store to plain memory writes memories above ROM alone. -/
theorem memWrite_sameButMemory {s t : State} {a : Word} {v : Byte} {l : Loc} (hl : storedLoc s a = some l)
    (h : memWrite s a v = .next t) : SameButMemory s t := by
  obtain ⟨hloc, -, hrom⟩ := storedLoc_eq_some hl
  unfold locOf at hloc
  obtain ⟨d, hr, hd, rfl⟩ | ⟨hr, rfl⟩ | ⟨hr, rfl⟩ | ⟨hr, rfl⟩ | ⟨hr, rfl⟩ | ⟨hr, rfl⟩ | ⟨hr, rfl⟩ | ⟨hr, rfl⟩ :=
    memWrite_cases h <;> simp only [hr] at hloc
  · obtain ⟨h8, rfl⟩ | ⟨h8, hc, ⟨i, hi, rfl⟩ | ⟨hi, rfl⟩⟩ := cartWrite_cases hd
    · rw [if_pos h8] at hloc
      cases hloc
      exact absurd rfl (hrom _)
    · rfl
    · rfl
  · unfold ppuWrite
    split_ifs at hloc ⊢ <;> rfl
  · rfl
  iterate 4 cases hloc
  · rfl

/-- A store to plain memory is read back at the addresses that name its byte and at no other. -/
theorem memRead_memWrite {s t : State} {a : Word} {v : Byte} {l : Loc} (hok : StoresOk s) (hl : storedLoc s a = some l)
    (h : memWrite s a v = .next t) (b : Word) : memRead t b = if locOf s b = some l then .next v else memRead s b := by
  have hsame := memWrite_sameButMemory hl h
  obtain ⟨-, hopen, -⟩ := storedLoc_eq_some hl
  cases hb : locOf s b with
  | none =>
    rw [if_neg nofun]
    exact hsame.memRead_device hb
  | some k =>
    rw [memRead_plain hb, memRead_plain ((hsame.locOf b).trans hb), hsame.locked]
    by_cases hk : k = l
    · subst hk
      rw [if_pos rfl, hopen, memWrite_placed hok h k hl]
      rfl
    · have hne : some k ≠ some l := fun e => hk (Option.some.inj e)
      rw [if_neg hne, memWrite_others h k fun e => hne (e.symm.trans hl)]

/-! ### Control writes and the lockout -/

/-- A write below 0x8000 is a mapper control write (R82, R97). -/
theorem memWrite_control (s : State) {a : Word} (v : Byte) (h : a.toNat < 0x8000) :
    memWrite s a v = .next { s with cart := { s.cart with mapper := mapperWrite s.cart.mapper a.toNat v } } := by
  simp only [memWrite, route_rom h, cartWrite, if_pos h]

theorem memWrite_vram_locked {s : State} {a : Word} (v : Byte) (h : 0x8000 ≤ a.toNat) (h' : a.toNat < 0xA000)
    (hk : vramLocked s.config s.ppu = true) : memWrite s a v = .next s := by
  simp only [memWrite, route_vram h h', ppuWrite, if_pos h', if_pos hk]

theorem memWrite_oam_locked {s : State} {a : Word} (v : Byte) (h : 0xFE00 ≤ a.toNat) (h' : a.toNat < 0xFEA0)
    (hk : oamLocked s.config s.ppu = true) : memWrite s a v = .next s := by
  have hA : ¬a.toNat < 0xA000 := by omega
  have hF : a.toNat < 0xFF00 := by omega
  simp only [memWrite, route_oam h h', ppuWrite, if_neg hA, if_pos hF, if_pos hk]

theorem memRead_locked {s : State} {a : Word} {l : Loc} (h : locOf s a = some l) (hk : locked s l = true) :
    memRead s a = .next 0xFF#8 := by
  rw [memRead_plain h, if_pos hk]

/-- Settles O38: the store read back by `memRead_memWrite`, the control write, and the two lockouts. -/
theorem storeThenLoad : Obligations.StoreThenLoad := by
  unfold Obligations.StoreThenLoad
  intro s a v
  refine ⟨fun l hok _ hl => ?_, fun h => ?_, fun hcfg hlcd h => ?_⟩
  · obtain ⟨t, ht⟩ := memWrite_of_accessible v (accessible_of_locOf (storedLoc_eq_some hl).1)
    exact ⟨t, ht, memRead_memWrite hok hl ht⟩
  · exact ⟨_, memWrite_control s v h, fun l => by cases l <;> rfl, rfl⟩
  · obtain ⟨hlo, hhi, hm⟩ | ⟨hlo, hhi, hm⟩ := h
    · have hk : vramLocked s.config s.ppu = true := by simp [vramLocked, lcdOn, hcfg, hlcd, hm]
      exact ⟨memRead_locked (locOf_vram s hlo hhi) hk, memWrite_vram_locked v hlo hhi hk⟩
    · have hk : oamLocked s.config s.ppu = true := by simp [oamLocked, lcdOn, hcfg, hlcd, hm]
      exact ⟨memRead_locked (locOf_oam s hlo hhi) hk, memWrite_oam_locked v hlo hhi hk⟩

end Sys2Proof.Machine
end

section
/-! PROOFS. The four mappers through the bus (O53 to O56): control writes, the two ROM windows and the RAM window. -/

namespace Sys2Proof.Machine

/-! ### Bits of a control write -/

theorem extractLsb'_zero_eq_ofNat (w : Nat) (v : Byte) : v.extractLsb' 0 w = BitVec.ofNat w v.toNat := by
  apply BitVec.eq_of_toNat_eq
  simp

/-- A bank register of `w` bits that cannot hold 0 takes 1 for it (R101, R111). -/
theorem nonzeroBank_eq_ofNat {w k : Nat} (hk : 2 ^ w = k) (n : Nat) :
    (if BitVec.ofNat w n = 0#w then 1#w else BitVec.ofNat w n) = BitVec.ofNat w (if n % k = 0 then 1 else n % k) := by
  subst hk
  have hzero : BitVec.ofNat w n = 0#w ↔ n % 2 ^ w = 0 := by
    rw [← BitVec.toNat_inj]
    simp
  by_cases hn : n % 2 ^ w = 0
  · rw [if_pos (hzero.mpr hn), if_pos hn]
  · rw [if_neg fun h => hn (hzero.mp h), if_neg hn]
    apply BitVec.eq_of_toNat_eq
    simp

theorem ramEnablePattern_eq (v : Byte) : ramEnablePattern v = decide (v.toNat % 16 = 0x0A) := by
  revert v
  decide

/-- A bank number from two registers side by side. -/
theorem shiftLeft_or_eq {x y k : Nat} (h : y < 2 ^ k) : (x <<< k) ||| y = x * 2 ^ k + y := by
  rw [← Nat.shiftLeft_add_eq_or_of_lt h, Nat.shiftLeft_eq]

/-! ### The cartridge's windows -/

section Windows

variable {s : State} {a : Word}

theorem memRead_rom (h : a.toNat < 0x8000) : memRead s a = .next (romByte s.cart (romIndex s.cart a.toNat)) := by
  simp only [memRead, route_rom h, cartRead, if_pos h]

/-- A control write changes the mapper's registers alone (R82). -/
theorem memWrite_control_mapper {m : Mapper} (v : Byte) (h : a.toNat < 0x8000)
    (hm : mapperWrite s.cart.mapper a.toNat v = m) :
    ∃ t, memWrite s a v = .next t ∧ t = { s with cart := { s.cart with mapper := t.cart.mapper } } ∧
      t.cart.mapper = m :=
  ⟨_, memWrite_control s v h, rfl, hm⟩

/-- What the RAM window does where no clock register is selected: byte `i` of the RAM buffer if `p`, else nothing
(R98). -/
theorem ramWindow {p : Prop} [Decidable p] {i : Nat} (v : Byte) (hlo : 0xA000 ≤ a.toNat) (hhi : a.toNat < 0xC000)
    (hc : clockSelected s.cart = false) (hi : ramIndex s.cart a.toNat = if p then some i else none) :
    if p then
      memRead s a = .next (storeRead s.cart.ram i) ∧
        memWrite s a v = .next { s with cart := { s.cart with ram := storeWrite s.cart.ram i v } }
    else memRead s a = .next 0xFF#8 ∧ memWrite s a v = .next s := by
  have hRom : ¬a.toNat < 0x8000 := by omega
  simp only [memRead, memWrite, route_cartRam hlo hhi, cartRead, cartWrite, if_neg hRom, hc, hi, Bool.false_eq_true,
    if_false]
  split <;> exact ⟨rfl, rfl⟩

/-- The RAM buffer's index, the bank starting at `base` (R98). -/
theorem ramIndexAt_eq (c : Cartridge) (enabled : Bool) (base n : Nat) :
    ramIndexAt c enabled base n =
      if enabled = true ∧ base + (n - 0xA000) < c.ramBytes then some (base + (n - 0xA000)) else none := by
  have hpos : base + (n - 0xA000) < c.ramBytes → 0 < c.ramBytes := by omega
  unfold ramIndexAt
  congr 1
  exact propext (and_congr_right fun _ => and_iff_right_of_imp hpos)

end Windows

/-! ### RomOnly (R97) -/

/-- Settles O53: no write changes the mapper, and no RAM stands behind the window. -/
theorem romOnlyCartridge : Obligations.RomOnlyCartridge := by
  unfold Obligations.RomOnlyCartridge
  intro s a v hm
  refine ⟨fun h => ⟨?_, ?_⟩, fun hlo hhi => ?_⟩
  · rw [memRead_rom h]
    simp [romIndex, hm]
  · rw [memWrite_control s v h, hm, mapperWrite, ← hm]
  · have hc : clockSelected s.cart = false := by simp only [clockSelected, hm]
    have hi : ramIndex s.cart a.toNat = if False then some 0 else none := by simp [ramIndex, hm]
    simpa using ramWindow v hlo hhi hc hi

/-! ### MBC1 (R101 to R103) -/

section Mbc1

variable {s : State} {a : Word} {m : Mbc1} (hm : s.cart.mapper = .mbc1 m)

theorem mbc1Write_eq (m : Mbc1) (n : Nat) (v : Byte) : mbc1Write m n v =
    { ramEnable := if n < 0x2000 then decide (v.toNat % 16 = 0x0A) else m.ramEnable
      bank1 := if 0x2000 ≤ n ∧ n < 0x4000 then
        BitVec.ofNat 5 (if v.toNat % 32 = 0 then 1 else v.toNat % 32) else m.bank1
      bank2 := if 0x4000 ≤ n ∧ n < 0x6000 then BitVec.ofNat 2 v.toNat else m.bank2
      mode := if 0x6000 ≤ n then BitVec.ofNat 1 v.toNat else m.mode } := by
  have hregion : n < 0x2000 ∨ 0x2000 ≤ n ∧ n < 0x4000 ∨ 0x4000 ≤ n ∧ n < 0x6000 ∨ 0x6000 ≤ n := by omega
  unfold mbc1Write
  obtain h | h | h | h := hregion <;>
    simp (disch := omega) only [if_pos, if_neg, ramEnablePattern_eq, extractLsb'_zero_eq_ofNat,
      nonzeroBank_eq_ofNat (w := 5) (k := 32) rfl]

include hm

theorem romIndex_mbc1_fixed (h : a.toNat < 0x4000) : romIndex s.cart a.toNat =
    (if m.mode = 1 then (m.bank2.toNat <<< 5) % s.cart.romBanks else 0) * 0x4000 + a.toNat := by
  simp only [romIndex, if_pos h, hm, Nat.shiftLeft_eq]
  split
  · rfl
  · omega

theorem romIndex_mbc1_switchable (h : ¬a.toNat < 0x4000) : romIndex s.cart a.toNat =
    notBankZero (((m.bank2.toNat <<< 5) ||| m.bank1.toNat) % s.cart.romBanks) * 0x4000 + (a.toNat - 0x4000) := by
  simp only [romIndex, if_neg h, hm, shiftLeft_or_eq (k := 5) m.bank1.isLt]
  rfl

theorem ramIndex_mbc1 (n : Nat) : ramIndex s.cart n =
    (let k := if m.mode = 1 ∧ s.cart.ramBanks ≠ 0 then m.bank2.toNat % s.cart.ramBanks else 0
      let i := k * 0x2000 + (n - 0xA000)
      if m.ramEnable = true ∧ i < s.cart.ramBytes then some i else none) := by
  have hk : (if m.mode = 1 then ramBankOf m.bank2.toNat s.cart.ramBanks else 0) =
      if m.mode = 1 ∧ s.cart.ramBanks ≠ 0 then m.bank2.toNat % s.cart.ramBanks else 0 := by
    unfold ramBankOf maskBank
    by_cases h1 : m.mode = 1 <;> by_cases h2 : s.cart.ramBanks = 0 <;> simp [h1, h2]
  simp only [ramIndex, hm, ramIndexAt_eq, hk]
  rfl

end Mbc1

/-- Settles O54: the control write, then one index for each window. -/
theorem mbc1Cartridge : Obligations.Mbc1Cartridge := by
  unfold Obligations.Mbc1Cartridge
  intro s a v m hm
  refine ⟨fun h => ?_, fun h => ?_, fun hlo hhi => ?_, fun hlo hhi => ?_⟩
  · exact memWrite_control_mapper v h (by rw [hm, mapperWrite, mbc1Write_eq])
  · rw [memRead_rom (by omega), romIndex_mbc1_fixed hm h]
  · dsimp only
    rw [memRead_rom hhi, romIndex_mbc1_switchable hm (by omega), notBankZero]
  · exact ramWindow v hlo hhi (by simp only [clockSelected, hm]) (ramIndex_mbc1 hm _)

/-! ### MBC3 (R111 to R113) -/

section Mbc3

variable {s : State} {a : Word} {m : Mbc3} (hm : s.cart.mapper = .mbc3 m)

theorem mbc3Write_eq (m : Mbc3) (n : Nat) (v : Byte) : mbc3Write m n v =
    { ramEnable := if n < 0x2000 then decide (v.toNat % 16 = 0x0A) else m.ramEnable
      romBank := if 0x2000 ≤ n ∧ n < 0x4000 then
        BitVec.ofNat 7 (if v.toNat % 128 = 0 then 1 else v.toNat % 128) else m.romBank
      ramSel := if 0x4000 ≤ n ∧ n < 0x6000 then BitVec.ofNat 4 v.toNat else m.ramSel } := by
  have hregion : n < 0x2000 ∨ 0x2000 ≤ n ∧ n < 0x4000 ∨ 0x4000 ≤ n ∧ n < 0x6000 ∨ 0x6000 ≤ n := by omega
  unfold mbc3Write
  obtain h | h | h | h := hregion <;>
    simp (disch := omega) only [if_pos, if_neg, ramEnablePattern_eq, extractLsb'_zero_eq_ofNat,
      nonzeroBank_eq_ofNat (w := 7) (k := 128) rfl]

include hm

theorem romIndex_mbc3_fixed (h : a.toNat < 0x4000) : romIndex s.cart a.toNat = a.toNat := by
  simp only [romIndex, if_pos h, hm]

theorem romIndex_mbc3_switchable (h : ¬a.toNat < 0x4000) : romIndex s.cart a.toNat =
    notBankZero (m.romBank.toNat % s.cart.romBanks) * 0x4000 + (a.toNat - 0x4000) := by
  simp only [romIndex, if_neg h, hm]
  rfl

theorem clockSelected_mbc3_iff : clockSelected s.cart = true ↔
    m.ramEnable = true ∧ 0x08 ≤ m.ramSel.toNat ∧ m.ramSel.toNat ≤ 0x0C := by
  simp only [clockSelected, hm, Bool.and_eq_true, decide_eq_true_eq, and_assoc]

theorem ramIndex_mbc3 (n : Nat) : ramIndex s.cart n =
    (let k := if s.cart.ramBanks = 0 then 0 else m.ramSel.toNat % s.cart.ramBanks
     let i := k * 0x2000 + (n - 0xA000)
     if m.ramEnable = true ∧ m.ramSel.toNat ≤ 0x07 ∧ i < s.cart.ramBytes then some i else none) := by
  simp only [ramIndex, hm, ramIndexAt_eq]
  by_cases hsel : m.ramSel.toNat ≤ 7
  · simp only [hsel, if_true, true_and]
    rfl
  · simp only [hsel, if_false, false_and, and_false]

end Mbc3

/-- Where a clock register is selected both accesses of the RAM window are refused (R113). -/
theorem ramWindow_clock {s : State} {a : Word} (v : Byte) (hlo : 0xA000 ≤ a.toNat) (hhi : a.toNat < 0xC000)
    (hc : clockSelected s.cart = true) :
    memRead s a = .refused (.mbc3ClockAccess a) ∧ memWrite s a v = .refused (.mbc3ClockAccess a) := by
  have hRom : ¬a.toNat < 0x8000 := by omega
  simp only [memRead, memWrite, route_cartRam hlo hhi, cartRead, cartWrite, if_neg hRom, hc, if_true, and_self]

/-- Settles O55: as for MBC1, the clock registers being looked at before the RAM. -/
theorem mbc3Cartridge : Obligations.Mbc3Cartridge := by
  unfold Obligations.Mbc3Cartridge
  intro s a v m hm
  refine ⟨fun h => ?_, fun h => ?_, fun hlo hhi => ?_, fun hlo hhi => ?_⟩
  · exact memWrite_control_mapper v h (by rw [hm, mapperWrite, mbc3Write_eq])
  · rw [memRead_rom (by omega), romIndex_mbc3_fixed hm h]
  · dsimp only
    rw [memRead_rom hhi, romIndex_mbc3_switchable hm (by omega), notBankZero]
  · dsimp only
    split
    · rename_i hc
      exact ramWindow_clock v hlo hhi ((clockSelected_mbc3_iff hm).mpr hc)
    · rename_i hc
      exact ramWindow v hlo hhi (Bool.eq_false_iff.mpr fun h => hc ((clockSelected_mbc3_iff hm).mp h))
        (ramIndex_mbc3 hm _)

/-! ### MBC5 (R121 to R124) -/

section Mbc5

variable {s : State} {a : Word} {m : Mbc5} (hm : s.cart.mapper = .mbc5 m)

theorem mbc5Write_eq (m : Mbc5) (n : Nat) (v : Byte) : mbc5Write m n v =
    { ramEnable := if n < 0x2000 then decide (v.toNat % 16 = 0x0A) else m.ramEnable
      romLo := if 0x2000 ≤ n ∧ n < 0x3000 then v else m.romLo
      romHi := if 0x3000 ≤ n ∧ n < 0x4000 then BitVec.ofNat 1 v.toNat else m.romHi
      ramBank := if 0x4000 ≤ n ∧ n < 0x6000 then BitVec.ofNat 4 v.toNat else m.ramBank
      mode := if 0x6000 ≤ n then BitVec.ofNat 1 v.toNat else m.mode } := by
  have hregion : n < 0x2000 ∨ 0x2000 ≤ n ∧ n < 0x3000 ∨ 0x3000 ≤ n ∧ n < 0x4000 ∨ 0x4000 ≤ n ∧ n < 0x6000 ∨
      0x6000 ≤ n := by omega
  unfold mbc5Write
  obtain h | h | h | h | h := hregion <;>
    simp (disch := omega) only [if_pos, if_neg, ramEnablePattern_eq, extractLsb'_zero_eq_ofNat]

theorem mbc5EffBank_eq (m : Mbc5) (n : Nat) :
    mbc5EffBank m n = notBankZero (((m.romHi.toNat <<< 8) ||| m.romLo.toNat) % n) := by
  rw [shiftLeft_or_eq (k := 8) m.romLo.isLt]
  rfl

theorem notBankZero_pos (b : Nat) : 0 < notBankZero b := by
  unfold notBankZero
  split <;> omega

include hm

theorem romIndex_mbc5_fixed (h : a.toNat < 0x4000) : romIndex s.cart a.toNat =
    (if m.mode = 1 then mbc5EffBank m s.cart.romBanks / 0x20 * 0x20 else 0) * 0x4000 + a.toNat := by
  simp only [romIndex, if_pos h, hm]
  have hdiv := Nat.div_add_mod (mbc5EffBank m s.cart.romBanks) 0x20
  split
  · rw [romBankSize]
    omega
  · omega

theorem romIndex_mbc5_switchable (h : ¬a.toNat < 0x4000) : romIndex s.cart a.toNat =
    mbc5EffBank m s.cart.romBanks * 0x4000 + (a.toNat - 0x4000) := by
  simp only [romIndex, if_neg h, hm, mbc5RomOffset, romBankSize]
  have hpos : 0 < mbc5EffBank m s.cart.romBanks := notBankZero_pos _
  omega

theorem ramIndex_mbc5 (n : Nat) : ramIndex s.cart n =
    (let k := if s.cart.ramBanks = 0 then 0 else m.ramBank.toNat % s.cart.ramBanks
     let i := k * 0x2000 + (n - 0xA000)
     if m.ramEnable = true ∧ i < s.cart.ramBytes then some i else none) := by
  simp only [ramIndex, hm, ramIndexAt_eq]
  cases he : m.ramEnable with
  | false => simp
  | true =>
    have hk : mbc5RamOffset m s.cart.ramBanks =
        (if s.cart.ramBanks = 0 then 0 else m.ramBank.toNat % s.cart.ramBanks) * 0x2000 := by
      simp only [mbc5RamOffset, he, if_true, maskBank, ramBankSize]
      split <;> omega
    rw [hk]

end Mbc5

/-- Settles O56: as for MBC1, both ROM windows through the effective bank. -/
theorem mbc5Cartridge : Obligations.Mbc5Cartridge := by
  unfold Obligations.Mbc5Cartridge
  intro s a v m hm
  have hbank := mbc5EffBank_eq m s.cart.romBanks
  rw [notBankZero] at hbank
  dsimp only
  rw [← hbank]
  refine ⟨fun h => ?_, fun h => ?_, fun hlo hhi => ?_, fun hlo hhi => ?_⟩
  · exact memWrite_control_mapper v h (by rw [hm, mapperWrite, mbc5Write_eq])
  · rw [memRead_rom (by omega), romIndex_mbc5_fixed hm h]
  · rw [memRead_rom hhi, romIndex_mbc5_switchable hm (by omega)]
  · exact ramWindow v hlo hhi (by simp only [clockSelected, hm]) (ramIndex_mbc5 hm _)

end Sys2Proof.Machine
end

section
/-! PROOFS. The invariant of every board that construction gives (O59). -/

namespace Sys2Proof.Machine

/-! ### The stores of a draw are canonical -/

theorem mem_storeWrite {w : Nat} {m : Store w} {a : Nat} {v : BitVec w} {c : Nat × BitVec w}
    (h : c ∈ storeWrite m a v) : c ∈ m ∨ c = (a, v) := by
  induction m with
  | nil =>
    rw [storeWrite] at h
    split at h <;> simp_all
  | cons d t ih =>
    obtain ⟨k, u⟩ := d
    rw [storeWrite] at h
    split_ifs at h <;> simp only [List.mem_cons] at h ⊢ <;> tauto

/-- The store of a list of entries holds no others. -/
theorem mem_of_mem_storeOfEntries {w : Nat} {l : List (Nat × BitVec w)} {c : Nat × BitVec w}
    (h : c ∈ storeOfEntries l) : c ∈ l := by
  induction l using List.reverseRecOn with
  | nil => exact h
  | append_singleton t d ih =>
    rw [storeOfEntries, List.foldl_append] at h
    obtain h | rfl := mem_storeWrite h
    · exact List.mem_append_left _ (ih h)
    · exact List.mem_append_right _ List.mem_cons_self

theorem storeWfFrom_mem {w : Nat} {m : Store w} {lo hi : Nat} (h : storeWfFrom lo hi m = true) :
    ∀ c ∈ m, lo ≤ c.1 ∧ c.1 < hi := by
  induction m generalizing lo with
  | nil => nofun
  | cons d t ih =>
    obtain ⟨k, v⟩ := d
    simp only [storeWfFrom, Bool.and_eq_true, decide_eq_true_eq] at h
    obtain ⟨⟨⟨hlo, hhi⟩, -⟩, ht⟩ := h
    refine List.forall_mem_cons.mpr ⟨⟨hlo, hhi⟩, fun c hc => ?_⟩
    have := ih ht c hc
    omega

/-- A part of a canonical store is canonical in any region that holds its indexes. -/
theorem storeWfFrom_filter {w : Nat} {m : Store w} {lo hi lo' hi' : Nat} (p : Nat × BitVec w → Bool)
    (h : storeWfFrom lo hi m = true) (hp : ∀ c ∈ m, p c = true → lo' ≤ c.1 ∧ c.1 < hi') :
    storeWfFrom lo' hi' (m.filter p) = true := by
  induction m generalizing lo lo' with
  | nil => rfl
  | cons c t ih =>
    obtain ⟨k, v⟩ := c
    simp only [storeWfFrom, Bool.and_eq_true, decide_eq_true_eq] at h
    obtain ⟨⟨-, hv⟩, ht⟩ := h
    obtain ⟨hk, hpt⟩ := List.forall_mem_cons.mp hp
    rw [List.filter_cons]
    split
    · rename_i hpk
      have htail : storeWfFrom (k + 1) hi' (t.filter p) = true :=
        ih ht fun c hc hpc => ⟨(storeWfFrom_mem ht c hc).1, (hpt c hc hpc).2⟩
      simp only [storeWfFrom, Bool.and_eq_true, decide_eq_true_eq]
      exact ⟨⟨hk hpk, hv⟩, htail⟩
    · exact ih ht hpt

/-- What a component's part of a draw lists. -/
theorem mem_drawFor {ram : List (Nat × Byte)} {o : Option Component} {c : Nat × Byte} (h : c ∈ drawFor ram o) :
    0x8000 ≤ c.1 ∧ c.1 < 0xFF00 ∧ routeIn rangeTable c.1 = o := by
  have hc := (List.mem_filter.mp (mem_of_mem_storeOfEntries h)).2
  simpa only [Bool.and_eq_true, decide_eq_true_eq, and_assoc] using hc

theorem drawFor_wf (ram : List (Nat × Byte)) (o : Option Component) {hi : Nat} (hhi : 0xFF00 ≤ hi) :
    storeWfFrom 0x8000 hi (drawFor ram o) = true := by
  refine storeOfEntries_wf _ _ _ fun c hc => ?_
  have hc := (List.mem_filter.mp hc).2
  simp only [Bool.and_eq_true, decide_eq_true_eq] at hc
  omega

/-- From 0xFE00 on the PPU's part of a draw is OAM's. -/
theorem lt_oamEnd_of_mem_drawFor {ram : List (Nat × Byte)} {c : Nat × Byte} (h : c ∈ drawFor ram (some .ppu))
    (hc : 0xFE00 ≤ c.1) : c.1 < 0xFEA0 := by
  obtain ⟨-, hlt, hroute⟩ := mem_drawFor h
  have hn : (BitVec.ofNat 16 c.1).toNat = c.1 := by simp; omega
  have hppu : route (BitVec.ofNat 16 c.1) = some .ppu := by rw [route, hn, hroute]
  have := of_route_ppu hppu
  omega

/-! ### The board -/

theorem boardWith_storesOk {cart : Cartridge} (d : Draws) (hrom : Memory.wf 0 cart.imageLength cart.rom = true)
    (hram : cart.ram = []) : StoresOk (boardWith cart d) where
  flat := drawFor_wf d.ram none (by decide)
  vram := storeWfFrom_filter _ (drawFor_wf d.ram _ le_rfl) fun c hc hp => ⟨(mem_drawFor hc).1, of_decide_eq_true hp⟩
  oam := storeWfFrom_filter _ (drawFor_wf d.ram _ le_rfl) fun c hc hp =>
    ⟨of_decide_eq_true hp, lt_oamEnd_of_mem_drawFor hc (of_decide_eq_true hp)⟩
  rom := hrom
  ram := by
    have e : (boardWith cart d).cart.ram = [] := hram
    rw [e]
    rfl
  pixels := rfl

/-- The PPU's clock starts at the beginning of a frame, the display off (R48, R466). -/
theorem resetWith_scanOk (n : Nat) (vram oam : Memory) : ScanOk n (Ppu.resetWith vram oam) := by
  constructor <;> simp [Ppu.resetWith]

theorem sameKind_self (m : Mapper) : sameKind m m = true := by cases m <;> rfl

/-- At reset the bank registers that cannot hold 0 hold 1 (R100, R110). -/
theorem mapperOfType_bank {t : Byte} {m : Mapper} (h : mapperOfType t = some m) :
    (∀ r, m = .mbc1 r → r.bank1 ≠ 0) ∧ ∀ r, m = .mbc3 r → r.romBank ≠ 0 := by
  have hm := mapperOfType_eq_some_iff.mp h
  fin_cases hm <;> simp

/-- Settles O59: a board is the reset state around the cartridge its header describes. -/
theorem constructInv : Obligations.ConstructInv := by
  unfold Obligations.ConstructInv
  intro image d s hs
  obtain ⟨m, b, r, hlen, hm, hb, hr, rfl⟩ := construct_next image d s hs
  obtain ⟨h1, h3⟩ := mapperOfType_bank hm
  refine ⟨boardWith_storesOk d (storeOfList_wf 0 _ image (by simp)) rfl, resetWith_scanOk _ _ _, ?_, ⟨rfl, rfl, nofun⟩⟩
  exact ⟨hlen, hb, hr, ⟨m, hm, sameKind_self m⟩, h1, h3⟩

end Sys2Proof.Machine
end

section
/-! PROOFS. The decoder and the encoder (O1 to O3): a round trip in each direction, from the fields of an opcode byte (R141)
and the rows of the two tables (R151, R152). -/

namespace Sys2Proof.Machine

/-! ### The fields of an opcode byte -/

section Fields

variable {x y z : Nat} (hx : x < 4) (hy : y < 8) (hz : z < 8)
include hx hy hz

theorem toNat_opByte : (opByte x y z).toNat = x * 64 + y * 8 + z := by
  rw [opByte, BitVec.toNat_ofNat]
  omega

@[simp] theorem fieldX_opByte : fieldX (opByte x y z) = x := by
  rw [fieldX, toNat_opByte hx hy hz]
  omega

@[simp] theorem fieldY_opByte : fieldY (opByte x y z) = y := by
  rw [fieldY, toNat_opByte hx hy hz]
  omega

@[simp] theorem fieldZ_opByte : fieldZ (opByte x y z) = z := by
  rw [fieldZ, toNat_opByte hx hy hz]
  omega

end Fields

@[simp] theorem reg8OfCode_reg8Code (r : Reg8) : reg8OfCode (reg8Code r) = some r := by cases r <;> rfl

@[simp] theorem reg8OfCode_six : reg8OfCode 6 = none := rfl

@[simp] theorem reg8Code_lt (r : Reg8) : reg8Code r < 8 := by cases r <;> decide

/-! ### Encoding, then decoding -/

/-- A 16-bit operand is put together again from its two bytes (format OP_IMM16 of R140). -/
theorem decode_encImm16 {x y z : Nat} (nn : Word) (rest : List Byte) (h : operandBytes (opByte x y z) = 2) :
    decode (encImm16 x y z nn ++ rest) = .ok (decodeOp (opByte x y z) 0 nn) := by
  have hcb : opByte x y z ≠ 0xCB#8 := fun e => absurd (e ▸ h) (by decide)
  simp [encImm16, decode, hcb, h]

/-- The CB byte alone after 0xCB tells the instruction (format CB of R140). -/
theorem decode_encCb (x y z : Nat) (rest : List Byte) :
    decode (encCb x y z ++ rest) = .ok (decodeCb (opByte x y z)) := rfl

/-- A well-formed RST target is one of the eight of R149. -/
theorem exists_of_validRst {t : Byte} (h : validRst t = true) : ∃ k < 8, t = BitVec.ofNat 8 (k * 8) := by
  obtain ⟨hm, hle⟩ := of_decide_eq_true h
  refine ⟨t.toNat / 8, by omega, ?_⟩
  rw [Nat.div_mul_cancel (Nat.dvd_of_mod_eq_zero hm), BitVec.ofNat_toNat, BitVec.setWidth_eq]

/-- The decoder reads an encoding back, whatever follows: the opcode or CB byte gives the form and its register, pair,
condition or bit, and the bytes after it the immediate. -/
theorem decode_encode_append {i : Instr} (hwf : i.wf = true) (hi : i ≠ .prefixCb) (rest : List Byte) :
    decode (encode i ++ rest) = .ok i := by
  cases i with
  | prefixCb => exact absurd rfl hi
  -- a 16-bit operand
  | ldDdNn dd nn => cases dd <;> exact decode_encImm16 nn rest rfl
  | jpCcNn cc nn | callCcNn cc nn => cases cc <;> exact decode_encImm16 nn rest rfl
  | ldNnSp nn | jpNn nn | callNn nn | ldNnA nn | ldANn nn => exact decode_encImm16 nn rest rfl
  -- an operand code in the opcode or CB byte
  | incR r | decR r | ldRN r _ | ldRMemHl r | ldMemHlR r | addAR r | adcAR r | subR r | sbcAR r | andR r | xorR r | orR r
  | cpR r | rlcR r | rrcR r | rlR r | rrR r | slaR r | sraR r | swapR r | srlR r => cases r <;> rfl
  | ldRR r r1 => cases r <;> cases r1 <;> rfl
  | incDd dd | decDd dd | addHlDd dd => cases dd <;> rfl
  | popQq qq | pushQq qq => cases qq <;> rfl
  | jrCcE cc _ | retCc cc => cases cc <;> rfl
  -- an operand that well-formedness bounds
  | rstT t =>
    obtain ⟨k, hk, rfl⟩ := exists_of_validRst hwf
    interval_cases k <;> rfl
  | bitBR b r | resBR b r | setBR b r | bitBMemHl b | resBMemHl b | setBMemHl b =>
    have hb : b < 8 := of_decide_eq_true hwf
    simp [encode, decode_encCb, decodeCb, hb]
  -- one row of a table, with an 8-bit operand or none
  | _ => rfl

/-- Settles O2: PREFIX CB is read alone, every other encoding whatever follows it. -/
theorem decodeEncode : Obligations.DecodeEncode := by
  unfold Obligations.DecodeEncode
  intro i hwf
  refine ⟨?_, decode_encode_append hwf⟩
  by_cases hi : i = .prefixCb
  · subst hi
    rfl
  · simpa using decode_encode_append hwf hi []

/-! ### Decoding, then encoding -/

/-- The operand bytes of an opcode's format, the immediate low byte first (R140, R155). -/
def operandList (op n : Byte) (nn : Word) : List Byte :=
  match operandBytes op with
  | 0 => []
  | 1 => [n]
  | _ => [loByte nn, hiByte nn]

/-- A row of the main table is well formed, and its bytes are the opcode and the operands of its format (R151). -/
theorem decodeOp_row (op n : Byte) (nn : Word) :
    (decodeOp op n nn).wf = true ∧ fetchedBytes (decodeOp op n nn) = op :: operandList op n nn := by
  obtain ⟨k, hk, rfl⟩ : ∃ k, k < 256 ∧ op = BitVec.ofNat 8 k := ⟨op.toNat, op.isLt, by simp⟩
  interval_cases k <;> exact ⟨rfl, rfl⟩

/-- A row of the CB table is well formed, and its bytes are 0xCB and the CB byte (R152). -/
theorem decodeCb_row (cb : Byte) : (decodeCb cb).wf = true ∧ fetchedBytes (decodeCb cb) = [0xCB#8, cb] := by
  revert cb
  decide

/-- An opcode and the operands of its format at the head of the bytes read. -/
theorem decodeOp_reads {op n : Byte} {nn : Word} {rest : List Byte} (h : operandList op n nn <+: rest) :
    (decodeOp op n nn).wf = true ∧ fetchedBytes (decodeOp op n nn) <+: op :: rest := by
  obtain ⟨hwf, hb⟩ := decodeOp_row op n nn
  exact ⟨hwf, hb ▸ (List.prefix_cons_inj op).mpr h⟩

/-- What the decoder reads is well formed, and the bytes fetched of it are the head of the bytes read. -/
theorem decode_inv {bs : List Byte} {i : Instr} (h : decode bs = .ok i) : i.wf = true ∧ fetchedBytes i <+: bs := by
  cases bs with
  | nil => cases h
  | cons op rest =>
    by_cases hcb : op = 0xCB#8
    · subst hcb
      cases rest with
      | nil =>
        cases h
        exact ⟨rfl, List.prefix_refl _⟩
      | cons cb rest =>
        cases h
        obtain ⟨hwf, hb⟩ := decodeCb_row cb
        exact ⟨hwf, hb ▸ List.prefix_append _ _⟩
    · simp only [decode, hcb, if_false] at h
      split at h <;> cases h <;> exact decodeOp_reads (by simp [operandList, *])

theorem fetchedBytes_of_ne_stop {i : Instr} (h : i ≠ .stop) : fetchedBytes i = encode i := by
  cases i with
  | stop => exact absurd rfl h
  | _ => rfl

/-- Settles O3: STOP is the one instruction whose fetched bytes are not its whole encoding (R381). -/
theorem encodeDecode : Obligations.EncodeDecode := by
  unfold Obligations.EncodeDecode
  intro bs i h
  obtain ⟨hwf, hpre⟩ := decode_inv h
  refine ⟨hwf, ?_⟩
  by_cases hs : i = .stop
  · subst hs
    obtain ⟨rest, rfl⟩ := hpre
    rfl
  · rwa [if_neg hs, ← fetchedBytes_of_ne_stop hs]

/-! ### Words of the opcode maps -/

/-- Settles O1: the decoder evaluated at each word. -/
theorem decodeWords : Obligations.DecodeWords :=
  ⟨rfl, rfl, rfl, rfl, rfl, rfl, rfl, rfl, rfl, rfl, rfl, rfl, rfl, rfl⟩

end Sys2Proof.Machine
end

section
/-! PROOFS. The illegal opcodes (O29): the rows of R153 through the decoder's round trips, and the fault as the last thing that
happens (R170, R386). -/

namespace Sys2Proof.Machine

/-! ### Which bytes -/

theorem mem_illegalOpcodes {op : Byte} : op ∈ illegalOpcodes ↔ ∃ i, (i, op) ∈ illegalForms := by
  have h : illegalOpcodes = illegalForms.map Prod.snd := rfl
  simp [h]

/-- An illegal form is a well-formed one-byte row. -/
theorem illegalForms_row :
    ∀ p ∈ illegalForms, p.1.wf = true ∧ p.1 ≠ .prefixCb ∧ encode p.1 = [p.2] ∧ fetchedBytes p.1 = [p.2] := by
  decide

theorem decode_illegal {i : Instr} {op : Byte} (h : (i, op) ∈ illegalForms) (rest : List Byte) :
    decode (op :: rest) = .ok i := by
  obtain ⟨hwf, hi, he, -⟩ := illegalForms_row _ h
  simpa [he] using decode_encode_append hwf hi rest

/-- What reads as an illegal instruction begins with its byte. -/
theorem head_of_decode_illegal {i : Instr} {op b : Byte} {rest : List Byte} (hd : decode (op :: rest) = .ok i)
    (h : (i, b) ∈ illegalForms) : b = op := by
  obtain ⟨-, -, -, hb⟩ := illegalForms_row _ h
  obtain ⟨-, hpre⟩ := decode_inv hd
  rw [hb, List.cons_prefix_cons] at hpre
  exact hpre.1

/-! ### What they do -/

theorem exec_illegal {i : Instr} {op : Byte} (h : (i, op) ∈ illegalForms) (s : State) :
    exec i s = .next (recordUnknownOpcode op s) := by
  fin_cases h <;> rfl

theorem recordUnknownOpcode_sameMemory (op : Byte) (s : State) : SameMemory s (recordUnknownOpcode op s) :=
  fun l => by cases l <;> rfl

theorem finishStep_of_fault {s : State} {f : Fault} (h : s.fault = some f) : finishStep s = .next s := by
  rw [finishStep, h]

theorem run_of_fault {s : State} {f : Fault} (h : s.fault = some f) : run s = .next s := by
  rw [run, h]

/-! ### Their step -/

/-- The opcode fetch reads the byte at PC in its one cycle (R171, R173). -/
theorem fetchOpcode_next {s : State} {op : Byte} (h : memRead (tick s) s.cpu.pc = .next op) :
    fetchOpcode s = .next (op, afterFetch s 1 (if s.cpu.haltBugArmed then s.cpu.pc else s.cpu.pc + 1)) := by
  rw [fetchOpcode, rd_next h]
  rfl

/-- Nothing is fetched after the opcode of a one-byte instruction. -/
theorem fetchInstr_of_decode_singleton {s : State} {i : Instr} {op : Byte} (hd : decode [op] = .ok i)
    (hi : i ≠ .prefixCb) (h : memRead (tick s) s.cpu.pc = .next op) :
    fetchInstr s = .next (i, afterFetch s 1 (if s.cpu.haltBugArmed then s.cpu.pc else s.cpu.pc + 1)) := by
  have hcb : op ≠ 0xCB#8 := by
    rintro rfl
    cases hd
    exact hi rfl
  simp only [decode, hcb, if_false] at hd
  split at hd
  · rename_i h0
    cases hd
    simp [fetchInstr, fetchOpcode_next h, hcb, h0]
  all_goals contradiction

theorem step_of_fetch {s t : State} {i : Instr} (hf : s.fault = none) (hh : s.cpu.halted = false)
    (h : fetchInstr s = .next (i, t)) : step s = andThen (exec i t) finishStep := by
  simp [step, hf, hh, h]

/-- Settles O29: a byte is illegal exactly when its row is, the body records the fault, and a recorded fault ends the step and
stops every later one. -/
theorem illegalOpcodes_recordFault : Obligations.IllegalOpcodes := by
  unfold Obligations.IllegalOpcodes
  refine ⟨?_, ?_, ?_⟩
  · intro op rest i hd
    refine ⟨mem_illegalOpcodes.trans ⟨fun ⟨j, hj⟩ => ?_, fun hi => ⟨i, hi⟩⟩, fun b => head_of_decode_illegal hd⟩
    cases hd.symm.trans (decode_illegal hj rest)
    exact hj
  · intro i op s hi
    exact ⟨_, exec_illegal hi s, rfl, recordUnknownOpcode_sameMemory op s, finishStep_of_fault rfl,
      step_of_fault rfl, run_of_fault rfl⟩
  · intro s op hop hf hh hm
    obtain ⟨i, hi⟩ := mem_illegalOpcodes.mp hop
    obtain ⟨-, hne, -, -⟩ := illegalForms_row _ hi
    have hfetch := fetchInstr_of_decode_singleton (decode_illegal hi []) hne hm
    rw [step_of_fetch hf hh hfetch, exec_illegal hi, andThen_next, finishStep_of_fault rfl]
    rfl

end Sys2Proof.Machine
end

section
/-! PROOFS. The fetch of a step (O4, O5): the bytes that decode to an instruction are fetched as that instruction, with
or without the double fetch armed (R171 to R175, R178). -/

namespace Sys2Proof.Machine

section FetchDecoded

variable {s : State} {a : Word} {b op : Byte} {bs rest : List Byte} {i : Instr}

theorem add_ofNat_succ (a : Word) (k : Nat) : a + BitVec.ofNat 16 (k + 1) = a + 1 + BitVec.ofNat 16 k := by
  rw [BitVec.ofNat_add, BitVec.add_assoc, BitVec.add_comm 1]
  rfl

/-- The bus gives a byte string when it gives its first byte, and a machine cycle later the rest at the next address. -/
theorem fetches_cons : Fetches s a (b :: bs) ↔ memRead (tick s) a = .next b ∧ Fetches (tick s) (a + 1) bs := by
  constructor
  · intro h
    refine ⟨by simpa [ticks] using h 0 b rfl, fun k c hc => ?_⟩
    have hk := h (k + 1) c hc
    rwa [add_ofNat_succ] at hk
  · rintro ⟨hb, hbs⟩ k c hc
    cases k with
    | zero =>
      cases hc
      simpa [ticks] using hb
    | succ k =>
      rw [add_ofNat_succ]
      exact hbs k c hc

/-- An operand byte, after `n` bytes of the fetch (R178). -/
theorem fetch8_afterFetch {n : Nat} (h : memRead (ticks (n + 1) s) a = .next b) :
    fetch8 (afterFetch s n a) = .next (b, afterFetch s (n + 1) (a + 1)) := by
  rw [fetch8_next (v := b) (by rw [← h, ticks_succ']; rfl), ← setPc_tick_afterFetch s n a (a + 1)]
  rfl

/-- A 16-bit operand, after the opcode: low byte first (R78). -/
theorem fetch16_afterFetch {lo hi : Byte} (hlo : memRead (ticks 2 s) a = .next lo)
    (hhi : memRead (ticks 3 s) (a + 1) = .next hi) :
    fetch16 (afterFetch s 1 a) = .next (joinBytes hi lo, afterFetch s 3 (a + 1 + 1)) := by
  rw [fetch16, fetch8_afterFetch hlo, andThen_next, fetch8_afterFetch hhi]
  rfl

/-- Where the operand bytes are read from: the opcode's own address while the double fetch is armed (R175, R178). -/
def operandPc (c : Cpu) : Word := if c.haltBugArmed then c.pc else c.pc + 1

/-- The fetch of the bytes of an instruction gives that instruction, one machine cycle for each byte. -/
theorem fetchInstr_of_decode (hd : decode (op :: rest) = .ok i) (hi : i ≠ .prefixCb)
    (hlen : rest.length + 1 = (fetchedBytes i).length) (hop : memRead (tick s) s.cpu.pc = .next op)
    (hrest : Fetches (tick s) (operandPc s.cpu) rest) :
    fetchInstr s = .next (i, afterFetch s (rest.length + 1) (operandPc s.cpu + BitVec.ofNat 16 rest.length)) := by
  have hopcode : fetchOpcode s = .next (op, afterFetch s 1 (operandPc s.cpu)) := fetchOpcode_next hop
  generalize operandPc s.cpu = pc at hrest hopcode ⊢
  rw [fetchInstr, hopcode, andThen_next]
  by_cases hcb : op = 0xCB#8
  · subst hcb
    match rest with
    | [] => cases hd; exact absurd rfl hi
    | cb :: tail =>
      cases hd
      rw [length_fetchedBytes_decodeCb] at hlen
      obtain rfl : tail = [] := by simpa using hlen
      obtain ⟨hcbRead, -⟩ := fetches_cons.mp hrest
      simp only [if_true, fetch8_afterFetch (n := 1) hcbRead, andThen_next]
      rfl
  · simp only [decode, hcb, if_false] at hd ⊢
    -- The decoder's formats (R155): no operand, a byte, a word.
    split at hd <;> cases hd
    all_goals
      rename_i hbytes
      rw [length_fetchedBytes_decodeOp, hbytes, Nat.add_right_cancel_iff] at hlen
      simp only [hbytes]
    · obtain rfl := List.length_eq_zero_iff.mp hlen
      simp
    · obtain rfl : _ = [] := by simpa using hlen
      obtain ⟨hn, -⟩ := fetches_cons.mp hrest
      rw [fetch8_afterFetch (n := 1) hn]
      rfl
    · obtain rfl : _ = [] := by simpa using hlen
      obtain ⟨hlo, hrest⟩ := fetches_cons.mp hrest
      obtain ⟨hhi, -⟩ := fetches_cons.mp hrest
      rw [fetch16_afterFetch hlo hhi, BitVec.add_assoc]
      rfl

end FetchDecoded

/-- Settles O5: while the double fetch is armed the operand bytes are read from the opcode's own address. -/
theorem doubleFetch : Obligations.DoubleFetch := by
  unfold Obligations.DoubleFetch
  intro s op rest i hd hi hlen hf hh harmed hop hrest
  have hpc : operandPc s.cpu = s.cpu.pc := by simp [operandPc, harmed]
  have hfetch := fetchInstr_of_decode hd hi hlen hop (hpc ▸ hrest)
  rw [step_of_fetch hf hh hfetch, hpc]

/-- Settles O4: with no double fetch armed the operand bytes follow the opcode. -/
theorem stepRunsDecoded : Obligations.StepRunsDecoded := by
  unfold Obligations.StepRunsDecoded
  intro s bs i hd hi hlen hf hh harmed hbs
  cases bs with
  | nil => cases hd
  | cons op rest =>
    have hpc : operandPc s.cpu = s.cpu.pc + 1 := by simp [operandPc, harmed]
    obtain ⟨hop, hrest⟩ := fetches_cons.mp hbs
    have hfetch := fetchInstr_of_decode hd hi hlen hop (hpc ▸ hrest)
    rw [step_of_fetch hf hh hfetch, hpc, List.length_cons, add_ofNat_succ]

end Sys2Proof.Machine
end

section
/-! PROOFS. The row 0xCB as an instruction of its own (O6): the CB instruction's body by its byte and by its constructor,
and where it completes (R174, R385). -/

namespace Sys2Proof.Machine

/-- `ExecuteCB` runs the instruction that the CB table gives (R148, R152, R177). -/
theorem execCbByte_eq_exec (cb : Byte) (s : State) : execCbByte cb s = exec (decodeCb cb) s := by
  unfold execCbByte decodeCb execShiftReg execShiftMemHl
  cases reg8OfCode (fieldZ cb) with
  | some r | none =>
    match fieldX cb, fieldY cb with
    | 0, 0 | 0, 1 | 0, 2 | 0, 3 | 0, 4 | 0, 5 | 0, 6 | 0, _ + 7 => rfl
    | 1, _ | 2, _ | _ + 3, _ => rfl

section Completes

variable {s : State} (ha : accessible s s.cpu.hl = true)

include ha

theorem readHl_completes {k : Byte → State → Result State} (hk : ∀ v, ∃ t, k v (tick s) = .next t) :
    ∃ t, readHl s k = .next t := by
  obtain ⟨v, -, hr⟩ := rd_of_accessible ha
  rw [readHl, hr]
  exact hk v

theorem tick_wr_completes (v : Byte) (c : Cpu) : ∃ t, wr s.cpu.hl v (withCpu (tick s) c) = .next t :=
  wr_of_accessible v (by simpa using ha)

theorem execShiftMemHl_completes (y : Nat) : ∃ t, execShiftMemHl y s = .next t := by
  unfold execShiftMemHl
  split <;> exact readHl_completes ha fun _ => tick_wr_completes ha _ _

/-- A CB instruction accesses no address but HL's. -/
theorem execCbByte_completes (cb : Byte) : ∃ t, execCbByte cb s = .next t := by
  unfold execCbByte
  split
  · unfold execShiftReg
    split <;> exact ⟨_, rfl⟩
  · exact ⟨_, rfl⟩
  · exact ⟨_, rfl⟩
  · exact ⟨_, rfl⟩
  · exact execShiftMemHl_completes ha _
  · exact readHl_completes ha fun _ => ⟨_, rfl⟩
  · exact readHl_completes ha fun _ => tick_wr_completes ha _ s.cpu
  · exact readHl_completes ha fun _ => tick_wr_completes ha _ s.cpu

end Completes

/-- Settles O6: the CB byte is fetched in one cycle, and its instruction completes where HL is accessible. -/
theorem prefixRunsCb : Obligations.PrefixRunsCb := by
  unfold Obligations.PrefixRunsCb
  intro s hpc hhl
  obtain ⟨cb, hcb, -⟩ := rd_of_accessible hpc
  obtain ⟨t, ht⟩ := execCbByte_completes (s := setPc (tick s) (s.cpu.pc + 1)) (by simpa using hhl) cb
  refine ⟨cb, t, hcb, ?_, execCbByte_eq_exec cb _ ▸ ht⟩
  calc exec .prefixCb s
    _ = andThen (fetch8 s) (fun p => execCbByte p.1 p.2) := rfl
    _ = .next t := by rw [fetch8_next hcb]; exact ht

end Sys2Proof.Machine
end

section
/-! PROOFS. A machine cycle with no bus access (O36): its frame, and the requests it raises (R172, R401, R440, R443,
R490). -/

namespace Sys2Proof.Machine

/-- The requests that are not the PPU's own are as they were: the timer's, the serial one and the joypad's. -/
def SameOtherRequests (f g : BitVec 5) : Prop := ∀ j, 2 ≤ j → g.getLsbD j = f.getLsbD j

theorem ppuLineEvents_otherRequests {p : Ppu} (f : BitVec 5) (hc : p.lineClock = 0 → p.statFired = .empty) :
    SameOtherRequests f (ppuLineEvents p f).2 := by
  intro j hj
  have h0 : j ≠ 0 := by omega
  have h1 : j ≠ 1 := by omega
  obtain ⟨P, hP⟩ := ppuLineEvents_eq p f hc
  simp only [hP]
  split <;> split <;> simp [h0, h1]

theorem ppuCoincidence_otherRequests (p : Ppu) (f : BitVec 5) : SameOtherRequests f (ppuCoincidence p f).2 := by
  intro j hj
  have h1 : j ≠ 1 := by omega
  rw [ppuCoincidence_eq]
  dsimp only
  split <;> simp [h1]

/-- `statFired` is empty at the start of a line (R465). -/
theorem ppuLineStart_statFired (p : Ppu) (h : (ppuLineStart p).lineClock = 0) :
    (ppuLineStart p).statFired = .empty := by
  unfold ppuLineStart at h ⊢
  split
  · rfl
  · rename_i hne
    rw [if_neg hne] at h
    exact absurd h hne

/-- A PPU clock raises VBLANK's and STAT's request alone. -/
theorem ppuClock_otherRequests (n : Nat) (p : Ppu) (f : BitVec 5) : SameOtherRequests f (ppuClock n p f).2 := by
  intro j hj
  unfold ppuClock
  split
  · exact (ppuCoincidence_otherRequests _ _ j hj).trans
      (ppuLineEvents_otherRequests f (ppuLineStart_statFired (ppuTurnOn p)) j hj)
  · rfl

theorem ppuUpdate_otherRequests (n k : Nat) (p : Ppu) (f : BitVec 5) : SameOtherRequests f (ppuUpdate n k p f).2 := by
  induction k generalizing p f with
  | zero => exact fun _ _ => rfl
  | succ k ih => exact fun j hj => (ih _ _ j hj).trans (ppuClock_otherRequests n p f j hj)

/-- Of those requests a machine cycle raises the timer's alone, at the end of a pending overflow (R443). -/
theorem tick_otherRequests (s : State) {j : Nat} (hj : 2 ≤ j) :
    (tick s).intr.ifReg.getLsbD j = (s.intr.ifReg.getLsbD j || (decide (j = 2) && s.timer.pendingOverflow)) := by
  refine (ppuUpdate_otherRequests _ _ _ _ j hj).trans ?_
  unfold timerRequests
  cases s.timer.pendingOverflow <;> simp

/-- A timer update writes neither TMA nor TAC. -/
theorem timerUpdate_registers (t : Timer) : (timerUpdate 4 t).tma = t.tma ∧ (timerUpdate 4 t).tac = t.tac := by
  rw [timerUpdate_eq]
  exact ⟨rfl, rfl⟩

/-- Settles O36: the PPU keeps its ports, the timer its two registers, and every byte of memory is as it was. -/
theorem tickFrame : Obligations.TickFrame := by
  unfold Obligations.TickFrame
  intro s
  refine ⟨?_, readLoc_tick s, tick_keepsIf s, ?_, ?_, ?_⟩
  · obtain ⟨hlcdc, hstat, hscy, hscx, hlyc, hbgp, hobp0, hobp1, hwy, hwx, hvram, hoam⟩ := tick_ports s
    obtain ⟨htma, htac⟩ := timerUpdate_registers s.timer
    rw [← hlcdc, ← hstat, ← hscy, ← hscx, ← hlyc, ← hbgp, ← hobp0, ← hobp1, ← hwy, ← hwx, ← hvram, ← hoam,
      ← htma, ← htac]
    rfl
  · exact (tick_otherRequests s (le_refl 2)).trans (by simp)
  · exact (tick_otherRequests s (show 2 ≤ 3 by decide)).trans (by simp)
  · exact (tick_otherRequests s (show 2 ≤ 4 by decide)).trans (by simp)

end Sys2Proof.Machine
end

section
/-! PROOFS. `RunOneFrame()` (O52): the clocks to the next frame end with the display off, the steps of a halted machine
with every interrupt masked, and the fault's exits (R182, R432, R466, R474). -/

namespace Sys2Proof.Machine

/-! ### The frame clock of the display-off state (R466) -/

/-- The frame clock that a clock with the display off counts on from: 0 where it finds the display just turned off. -/
def offFrameClock (p : Ppu) : Nat := if p.lcdWasOn then 0 else p.offClock

/-- The clocks to the next frame end while the display stays off; none once a frame has ended. -/
def clocksToFrame (p : Ppu) : Nat := if p.endOfFrame then 0 else clocksPerFrame - offFrameClock p

theorem clocksToFrame_le (p : Ppu) : clocksToFrame p ≤ clocksPerFrame := by
  unfold clocksToFrame
  split <;> omega

theorem endOfFrame_of_clocksToFrame {p : Ppu} (hoff : offFrameClock p < clocksPerFrame) (h : clocksToFrame p = 0) :
    p.endOfFrame = true := by
  unfold clocksToFrame at h
  split at h
  · assumption
  · omega

/-- A clock with the display off counts the frame clock on, or ends the frame. -/
theorem ppuOffClock_frame (p : Ppu) :
    (ppuOffClock p).endOfFrame = (p.endOfFrame || decide (offFrameClock p + 1 = clocksPerFrame)) ∧
      offFrameClock (ppuOffClock p) = if offFrameClock p + 1 = clocksPerFrame then 0 else offFrameClock p + 1 := by
  cases hon : p.lcdWasOn with
  | false => by_cases hlast : p.offClock + 1 = clocksPerFrame <;> simp [ppuOffClock, offFrameClock, hon, hlast]
  | true => simp [ppuOffClock, offFrameClock, hon, clocksPerFrame]

/-- Such a clock brings the frame end one clock nearer. -/
theorem ppuOffClock_clocksToFrame {p : Ppu} (hoff : offFrameClock p < clocksPerFrame) :
    offFrameClock (ppuOffClock p) < clocksPerFrame ∧ clocksToFrame (ppuOffClock p) ≤ clocksToFrame p - 1 := by
  obtain ⟨hend, hclock⟩ := ppuOffClock_frame p
  unfold clocksToFrame
  rw [hend, hclock]
  by_cases hlast : offFrameClock p + 1 = clocksPerFrame
  · simp [hlast, clocksPerFrame]
  · cases p.endOfFrame <;> simp [hlast] <;> omega

theorem ppuUpdate_clocksToFrame {n k : Nat} {p : Ppu} {f : BitVec 5} (hlcd : lcdOn p = false)
    (hoff : offFrameClock p < clocksPerFrame) :
    offFrameClock (ppuUpdate n k p f).1 < clocksPerFrame ∧
      clocksToFrame (ppuUpdate n k p f).1 ≤ clocksToFrame p - k := by
  induction k generalizing p with
  | zero => exact ⟨hoff, Nat.le_refl _⟩
  | succ k ih =>
    have hclock : ppuClock n p f = (ppuOffClock p, f) := by simp [ppuClock, hlcd]
    obtain ⟨hoff', hnear⟩ := ppuOffClock_clocksToFrame hoff
    have hlcd' : lcdOn (ppuOffClock p) = false := by rw [lcdOn, (ppuOffClock_ports p).lcdc]; exact hlcd
    obtain ⟨hlt, hle⟩ := ih hlcd' hoff'
    rw [ppuUpdate, hclock]
    exact ⟨hlt, hle.trans (by omega)⟩

/-! ### The steps of a waiting machine (R176, R474) -/

/-- Halted for good: no enabled interrupt can wake the machine, and the display is off. -/
structure Waiting (s : State) : Prop where
  fault : s.fault = none
  halted : s.cpu.halted = true
  masked : s.intr.ieReg = 0
  displayOff : lcdOn s.ppu = false
  frameClock : offFrameClock s.ppu < clocksPerFrame

theorem step_of_waiting {s : State} (h : Waiting s) : step s = .next (endServiceCall (tick s)) := by
  have hpending : pending (tick s).intr = 0#5 := by simp [pending, h.masked]
  simp [step, h.fault, h.halted, finishStep, haltedCycle, interruptServiceRoutine, hpending]

/-- The machine goes on waiting, four clocks nearer to the frame end. -/
theorem waiting_step {s : State} (h : Waiting s) :
    Waiting (endServiceCall (tick s)) ∧
      clocksToFrame (endServiceCall (tick s)).ppu ≤ clocksToFrame s.ppu - 4 := by
  obtain ⟨hoff, hnear⟩ := ppuUpdate_clocksToFrame (n := s.config.line153Ly0At) (k := 4)
    (f := if timerRequests s.timer then requestInterrupt 2 s.intr.ifReg else s.intr.ifReg) h.displayOff h.frameClock
  refine ⟨⟨h.fault, h.halted, h.masked, ?_, hoff⟩, hnear⟩
  show lcdOn (tick s).ppu = false
  rw [lcdOn, (tick_ports s).lcdc]
  exact h.displayOff

/-! ### `RunOneFrame()` -/

section RunOneFrame

variable {s t : State} {fuel : Nat} {r : Fault}

theorem runOneFrame_of_fault (h : s.fault = some r) : runOneFrame fuel s = .fault r s := by
  unfold runOneFrame
  rw [h]

theorem runOneFrame_of_endOfFrame (hf : s.fault = none) (he : s.ppu.endOfFrame = true) :
    runOneFrame fuel s = .frame (draw s).1 (draw s).2 := by
  unfold runOneFrame
  simp [hf, checkEndOfFrame, he]

theorem runOneFrame_of_step (hf : s.fault = none) (he : s.ppu.endOfFrame = false) (h : step s = .next t) :
    runOneFrame (fuel + 1) s = runOneFrame fuel t := by
  rw [runOneFrame, hf]
  simp [checkEndOfFrame, he, h]

/-- A waiting machine ends its frame once the steps cover the clocks that are left. -/
theorem runOneFrame_of_waiting (h : Waiting s) (hfuel : clocksToFrame s.ppu ≤ 4 * fuel) :
    ∃ buffer t, runOneFrame fuel s = .frame buffer t ∧ t.ppu.endOfFrame = false := by
  induction fuel generalizing s with
  | zero => exact ⟨_, _, runOneFrame_of_endOfFrame h.fault (endOfFrame_of_clocksToFrame h.frameClock (by omega)), rfl⟩
  | succ fuel ih =>
    cases he : s.ppu.endOfFrame with
    | true => exact ⟨_, _, runOneFrame_of_endOfFrame h.fault he, rfl⟩
    | false =>
      obtain ⟨hwaiting, hnear⟩ := waiting_step h
      rw [runOneFrame_of_step h.fault he (step_of_waiting h)]
      exact ih hwaiting (by omega)

end RunOneFrame

/-- Settles O52: the display-off frame is 70224 clocks, four to a step; a fault is looked at before anything else. -/
theorem haltedFrameEnds : Obligations.HaltedFrameEnds := by
  unfold Obligations.HaltedFrameEnds
  refine ⟨fun s hf hh hie hlcd hoff => ?_, fun s fuel r => runOneFrame_of_fault, fun s t fuel r hf he hstep ht => ?_⟩
  · have hle : clocksToFrame s.ppu ≤ 70224 := clocksToFrame_le s.ppu
    have hclock : offFrameClock s.ppu < 70224 := by unfold offFrameClock; split <;> omega
    exact runOneFrame_of_waiting ⟨hf, hh, hie, hlcd, hclock⟩ (by omega)
  · rw [runOneFrame_of_step hf he hstep, runOneFrame_of_fault ht]

end Sys2Proof.Machine
end

section
/-! PROOFS. The 8-bit arithmetic and logic (O8 to O12): each ALU function in the terms of its rule, and the operand forms of
R209 once for all of them. -/

namespace Sys2Proof.Machine

/-! ### Arithmetic on bytes -/

theorem toNat_lowNibble (v : Byte) : (v &&& 0x0F#8).toNat = v.toNat % 16 := by
  rw [BitVec.toNat_and]
  exact Nat.and_two_pow_sub_one_eq_mod v.toNat 4

/-- A low nibble as a byte and as a number. -/
theorem lowNibble_eq_iff (v : Byte) {k : Nat} (hk : k < 256) : v &&& 0x0F#8 = BitVec.ofNat 8 k ↔ v.toNat % 16 = k := by
  rw [← BitVec.toNat_inj, toNat_lowNibble, BitVec.toNat_ofNat, Nat.mod_eq_of_lt (by omega : k < 2 ^ 8)]

theorem ofNat_beq_zero (n : Nat) : (BitVec.ofNat 8 n == 0) = decide (n % 256 = 0) := by
  refine decide_eq_decide.mpr ?_
  rw [← BitVec.toNat_inj]
  simp

theorem ofInt_beq_zero (n : Int) : (BitVec.ofInt 8 n == 0) = decide (n % 256 = 0) := by
  refine decide_eq_decide.mpr ?_
  rw [← BitVec.toNat_inj, BitVec.toNat_ofInt]
  change (n % 256).toNat = 0 ↔ _
  omega

theorem bit_eq_toNat (b : Bool) : bit b = b.toNat := by cases b <;> rfl

/-- An addition is one with carry, the carry clear (R201, R202). -/
theorem add8_eq_adc8 (a b : Byte) : add8 a b = adc8 a b false := rfl

/-- A subtraction is one with borrow, the borrow clear (R203, R204). -/
theorem sub8_eq_sbc8 (a b : Byte) : sub8 a b = sbc8 a b false := by simp [sub8, sbc8, bit]

/-! ### The operand forms (R209) -/

/-- A read of HL's byte goes on one cycle later. -/
theorem readHl_next {s : State} {v : Byte} (h : memRead (tick s) s.cpu.hl = .next v) (k : Byte → State → Result State) :
    readHl s k = k v (tick s) := by
  rw [readHl, rd_next h, andThen_next]

/-- Three forms that run one operation `f` on their operand relate the states as `f` does. -/
theorem operandForms_of_operation {reg : Reg8 → Instr} {imm : Byte → Instr} {mem : Instr} {R : State → State → Byte → Prop}
    (f : Byte → State → State) (hR : ∀ s b, R s (f b s) b)
    (hreg : ∀ r s, exec (reg r) s = .next (f (getReg s.cpu r) s) := by intros; rfl)
    (himm : ∀ n s, exec (imm n) s = .next (f n s) := by intros; rfl)
    (hmem : ∀ s, exec mem s = readHl s fun v t => .next (f v t) := by intros; rfl) : OperandForms reg imm mem R := by
  intro s
  refine ⟨fun r => ⟨_, hreg r s, hR s _⟩, fun n => ⟨_, himm n s, hR s n⟩, fun hacc => ?_⟩
  obtain ⟨v, hv, -⟩ := rd_of_accessible hacc
  exact ⟨v, _, hv, (hmem s).trans (readHl_next hv _), hR (tick s) v⟩

/-! ### Addition and subtraction -/

section Sums

variable (s : State) (b : Byte) (cin : Bool)

theorem adc8_addsToA : AddsToA s (withCpu s (writeAluOut s.cpu (adc8 (regA s.cpu) b cin))) b cin.toNat := by
  refine writeAluOut_writesA s _ ?_ ?_
  · rw [adc8, bit_eq_toNat]
  · rw [adc8, ofNat_beq_zero, bit_eq_toNat, toNat_lowNibble, toNat_lowNibble]

/-- The flags of a subtraction in the terms of its rule (R203, R204). -/
theorem sbc8_fl (a : Byte) :
    let diff : Int := (a.toNat : Int) - (b.toNat : Int) - (cin.toNat : Int)
    (sbc8 a b cin).fl = flagByte (decide (diff % 256 = 0)) true
      (decide ((a &&& 0x0F#8).toNat < (b &&& 0x0F#8).toNat + cin.toNat)) (decide (diff < 0)) := by
  rw [sbc8, ofInt_beq_zero, bit_eq_toNat, toNat_lowNibble, toNat_lowNibble]

theorem sbc8_subtractsFromA :
    SubtractsFromA s (withCpu s (writeAluOut s.cpu (sbc8 (regA s.cpu) b cin))) b cin.toNat false :=
  writeAluOut_writesA s _ (by rw [sbc8, bit_eq_toNat]; rfl) (sbc8_fl b cin _)

/-- CP keeps the flags of the subtraction and discards its result (R208). -/
theorem cp8_subtractsFromA : SubtractsFromA s (withCpu s (setF s.cpu (cp8 (regA s.cpu) b).fl)) b 0 true :=
  setF_writesA s _ (by rw [cp8, sub8_eq_sbc8]; exact sbc8_fl b false _)

end Sums

/-- Settles O8: both are `adc8` on the operand, for ADD with the carry clear. -/
theorem addAdc : Obligations.AddAdc := by
  unfold Obligations.AddAdc
  constructor
  · exact operandForms_of_operation (fun b s => withCpu s (writeAluOut s.cpu (add8 (regA s.cpu) b)))
      fun s b => add8_eq_adc8 _ b ▸ adc8_addsToA s b false
  · exact operandForms_of_operation (fun b s => withCpu s (writeAluOut s.cpu (adc8 (regA s.cpu) b (flagC s.cpu))))
      fun s b => adc8_addsToA s b _

/-- Settles O9: all three are `sbc8` on the operand, for SUB and CP with the borrow clear. -/
theorem subSbcCp : Obligations.SubSbcCp := by
  unfold Obligations.SubSbcCp
  refine ⟨?_, ?_, ?_⟩
  · exact operandForms_of_operation (fun b s => withCpu s (writeAluOut s.cpu (sub8 (regA s.cpu) b)))
      fun s b => sub8_eq_sbc8 _ b ▸ sbc8_subtractsFromA s b false
  · exact operandForms_of_operation (fun b s => withCpu s (writeAluOut s.cpu (sbc8 (regA s.cpu) b (flagC s.cpu))))
      fun s b => sbc8_subtractsFromA s b _
  · exact operandForms_of_operation (fun b s => withCpu s (setF s.cpu (cp8 (regA s.cpu) b).fl))
      cp8_subtractsFromA

/-! ### Logic -/

section Logic

variable (a b : Byte)

theorem and8_fl : (and8 a b).fl = flagByte (decide (a &&& b = 0)) false true false := rfl

/-- Z of XOR says that the operands agree (R206). -/
theorem xor8_fl : (xor8 a b).fl = flagByte (decide (a = b)) false false false := by
  have hz : (a ^^^ b == 0) = decide (a = b) :=
    decide_eq_decide.mpr BitVec.xor_eq_zero_iff
  rw [xor8, hz]

/-- Z of OR says that both operands are 0 (R207). -/
theorem or8_fl : (or8 a b).fl = flagByte (decide (a = 0 ∧ b = 0)) false false false := by
  have hz : (a ||| b == 0) = decide (a = 0 ∧ b = 0) :=
    decide_eq_decide.mpr BitVec.or_eq_zero_iff
  rw [or8, hz]

end Logic

/-- Settles O10: each writes its ALU function's result and flags. -/
theorem andXorOr : Obligations.AndXorOr := by
  unfold Obligations.AndXorOr
  refine ⟨?_, ?_, ?_⟩
  · exact operandForms_of_operation (fun b s => withCpu s (writeAluOut s.cpu (and8 (regA s.cpu) b)))
      fun s _ => writeAluOut_writesA s _ rfl (and8_fl ..)
  · exact operandForms_of_operation (fun b s => withCpu s (writeAluOut s.cpu (xor8 (regA s.cpu) b)))
      fun s _ => writeAluOut_writesA s _ rfl (xor8_fl ..)
  · exact operandForms_of_operation (fun b s => withCpu s (writeAluOut s.cpu (or8 (regA s.cpu) b)))
      fun s _ => writeAluOut_writesA s _ rfl (or8_fl ..)

/-! ### Increment and decrement -/

/-- INC in the terms of its rule (R234). -/
theorem inc8_eq (v : Byte) (c : Bool) : inc8 v c =
    { res := BitVec.ofNat 8 (v.toNat + 1)
      fl := flagByte (decide (v = 0xFF#8)) false (decide (v &&& 0x0F#8 = 0x0F#8)) c } := by
  have hres : v + 1 = BitVec.ofNat 8 (v.toNat + 1) := by bv_omega
  have hz : (v + 1 == 0) = decide (v = 0xFF#8) := decide_eq_decide.mpr (by bv_omega)
  rw [inc8, hz, hres]
  simp only [lowNibble_eq_iff v (k := 0x0F) (by decide)]

/-- DEC in the terms of its rule (R236). -/
theorem dec8_eq (v : Byte) (c : Bool) : dec8 v c =
    { res := BitVec.ofNat 8 (v.toNat + 255)
      fl := flagByte (decide (v = 0x01#8)) true (decide (v &&& 0x0F#8 = 0x00#8)) c } := by
  have hres : v - 1 = BitVec.ofNat 8 (v.toNat + 255) := by bv_omega
  have hz : (v - 1 == 0) = decide (v = 0x01#8) := decide_eq_decide.mpr (by bv_omega)
  rw [dec8, hz, hres]
  simp only [lowNibble_eq_iff v (k := 0x00) (by decide)]

/-- The second cycle of a read-modify-write at HL, the flags written before it. -/
theorem setF_wr_stores {s : State} (hacc : accessible s s.cpu.hl = true) (v fl : Byte) :
    ∃ t, wr s.cpu.hl v (withCpu (tick s) (setF s.cpu fl)) = .next t ∧ Stores s (ticks 2 s) t s.cpu.hl v ∧
      t.cpu = setF s.cpu fl := by
  obtain ⟨t, ht⟩ := tick_wr_completes hacc v (setF s.cpu fl)
  obtain ⟨hwrite, hplaced, hothers⟩ := wr_stores t.cpu ht
  refine ⟨t, ht, ⟨hwrite, fun hok => hplaced (withCpu_storesOk _ (tick_storesOk hok)), fun l hl => ?_⟩, wr_cpu ht⟩
  calc readLoc t l
    _ = readLoc (withCpu (tick s) (setF s.cpu fl)) l := hothers l hl
    _ = readLoc s l := by rw [readLoc_withCpu, readLoc_tick]

/-- A write of the flags keeps A and every other register. -/
theorem flags_of_setF {s t : State} {z n h c : Bool} (e : t.cpu = setF s.cpu (flagByte z n h c)) :
    t.cpu = { s.cpu with af := t.cpu.af } ∧ regA t.cpu = regA s.cpu ∧ FlagsAre t z n h c :=
  ⟨by rw [e, setF], by rw [e]; exact getReg_setF s.cpu _ .a, flagsAre_setF _ e⟩

/-- An instruction that changes the byte at HL and the flags does so in two cycles, A and the registers kept. -/
theorem modifyHl_stores {s : State} {i : Instr} {res : Byte} {z n h c : Bool} (hacc : accessible s s.cpu.hl = true)
    (hi : exec i s = wr s.cpu.hl res (withCpu (tick s) (setF s.cpu (flagByte z n h c)))) :
    ∃ t, exec i s = .next t ∧ Stores s (ticks 2 s) t s.cpu.hl res ∧ t.cpu = { s.cpu with af := t.cpu.af } ∧
      regA t.cpu = regA s.cpu ∧ FlagsAre t z n h c := by
  obtain ⟨t, ht, hstores, hcpu⟩ := setF_wr_stores hacc res (flagByte z n h c)
  exact ⟨t, hi.trans ht, hstores, flags_of_setF hcpu⟩

/-- Settles O11: the register forms write the register and the flags, the (HL) forms are a read cycle and a write cycle. -/
theorem incDec8 : Obligations.IncDec8 := by
  unfold Obligations.IncDec8
  intro s
  refine ⟨fun r => ⟨_, rfl, ?_⟩, fun r => ⟨_, rfl, ?_⟩, fun hacc => ?_⟩
  · rw [inc8_eq]
    exact setReg_setF_writesReg ..
  · rw [dec8_eq]
    exact setReg_setF_writesReg ..
  · obtain ⟨v, hv, -⟩ := rd_of_accessible hacc
    refine ⟨v, hv, modifyHl_stores hacc ?_, modifyHl_stores hacc ?_⟩
    · change execIncMemHl s = _
      rw [execIncMemHl, readHl_next hv, inc8_eq]
      rfl
    · change execDecMemHl s = _
      rw [execDecMemHl, readHl_next hv, dec8_eq]
      rfl

/-! ### Decimal adjust and the flag instructions -/

section Daa

variable (a : Byte) (h c : Bool)

/-- The correction after an addition, by its two conditions (R238). -/
theorem daaCorrection_add :
    let low := h = true ∨ (a &&& 0x0F#8).toNat > 0x09
    let high := c = true ∨ a.toNat > 0x99
    daaCorrection a false h c =
      if low ∧ high then 0x66#8 else if high then 0x60#8 else if low then 0x06#8 else 0x00#8 := by
  intro low high
  have hlow : (h || decide (a.toNat % 16 > 0x09)) = decide low := by
    simp only [low, toNat_lowNibble, Bool.decide_or, Bool.decide_eq_true]
  have hhigh : (c || decide (a.toNat > 0x99)) = decide high := by
    simp only [high, Bool.decide_or, Bool.decide_eq_true]
  rw [daaCorrection, hlow, hhigh]
  by_cases hl : low <;> by_cases hh : high <;> simp [hl, hh]

/-- DAA after an addition (R238). -/
theorem daa8_add :
    let low := h = true ∨ (a &&& 0x0F#8).toNat > 0x09
    let high := c = true ∨ a.toNat > 0x99
    let res : Byte := a + (if low ∧ high then 0x66#8 else if high then 0x60#8 else if low then 0x06#8 else 0x00#8)
    daa8 a false h c = { res := res, fl := flagByte (decide (res = 0)) false false (decide high) } := by
  intro low high res
  have hcarry : daaCarry a false c = decide high := by
    simp only [daaCarry, high, Bool.decide_or, Bool.decide_eq_true, Bool.false_eq_true, if_false]
  rw [daa8, daaCorrection_add, hcarry]
  rfl

/-- After a subtraction the two corrections are taken off one by one (R238). -/
theorem sub_daaCorrection_sub :
    a - daaCorrection a true h c = a - (if h then 0x06#8 else 0x00#8) - (if c then 0x60#8 else 0x00#8) := by
  have hsum : daaCorrection a true h c = (if h then 0x06#8 else 0x00#8) + (if c then 0x60#8 else 0x00#8) := by
    cases h <;> cases c <;> rfl
  rw [hsum]
  bv_omega

/-- DAA after a subtraction (R238). -/
theorem daa8_sub :
    let res : Byte := a - (if h then 0x06#8 else 0x00#8) - (if c then 0x60#8 else 0x00#8)
    daa8 a true h c = { res := res, fl := flagByte (decide (res = 0)) true false c } := by
  intro res
  rw [daa8, sub_daaCorrection_sub]
  rfl

end Daa

/-- Settles O12: DAA by N, and the flags that CPL, SCF and CCF write. -/
theorem daaCplScfCcf : Obligations.DaaCplScfCcf := by
  unfold Obligations.DaaCplScfCcf
  intro s a c
  refine ⟨fun hn => ⟨_, rfl, ?_⟩, fun hn => ⟨_, rfl, ?_⟩, ⟨_, rfl, ?_⟩, ⟨_, rfl, ?_⟩, ⟨_, rfl, ?_⟩⟩
  · rw [hn, daa8_add]
    exact writeAluOut_writesA s _ rfl rfl
  · rw [hn, daa8_sub]
    exact writeAluOut_writesA s _ rfl rfl
  · exact writeAluOut_writesA s _ (BitVec.xor_allOnes (w := 8)) rfl
  · exact setF_writesA s _ rfl
  · exact setF_writesA s _ rfl

end Sys2Proof.Machine
end

section
/-! PROOFS. The 16-bit arithmetic (O13, O14): the carries and the signed sum in the terms of their rules, and a write of the
flags or of a pair after idle cycles. -/

namespace Sys2Proof.Machine

/-! ### Carries and sums in the terms of their rules -/

/-- A mask of the low `k` bits is the remainder by `2 ^ k`. -/
theorem toNat_and_lowBits {w : Nat} (k : Nat) (x : BitVec w) (hk : k ≤ w) :
    (x &&& BitVec.ofNat w (2 ^ k - 1)).toNat = x.toNat % 2 ^ k := by
  have hmask : 2 ^ k - 1 < 2 ^ w :=
    (Nat.sub_lt (Nat.two_pow_pos k) Nat.one_pos).trans_le (Nat.pow_le_pow_right Nat.two_pos hk)
  rw [BitVec.toNat_and, BitVec.toNat_ofNat, Nat.mod_eq_of_lt hmask, Nat.and_two_pow_sub_one_eq_mod]

section Sums

variable (a b sp : Word) (e : Byte)

/-- The carry of bit 11 (R251). -/
theorem carry11_eq : carry11 a b = decide ((a &&& 0x0FFF#16).toNat + (b &&& 0x0FFF#16).toNat > 0x0FFF) := by
  have hlow (x : Word) : (x &&& 0x0FFF#16).toNat = x.toNat % 4096 := toNat_and_lowBits 12 x (by decide)
  rw [carry11, hlow, hlow]

/-- The carry of bit 3 (R254). -/
theorem carrySp3_eq : carrySp3 sp e = decide ((sp &&& 0x000F#16).toNat + (e &&& 0x0F#8).toNat > 0x0F) := by
  have hlow : (sp &&& 0x000F#16).toNat = sp.toNat % 16 := toNat_and_lowBits 4 sp (by decide)
  rw [carrySp3, hlow, toNat_lowNibble]

/-- The carry of bit 7 (R254). -/
theorem carrySp7_eq : carrySp7 sp e = decide ((sp &&& 0x00FF#16).toNat + e.toNat > 0xFF) := by
  have hlow : (sp &&& 0x00FF#16).toNat = sp.toNat % 256 := toNat_and_lowBits 8 sp (by decide)
  rw [carrySp7, hlow]

/-- The flags of both SP-relative additions (R254, R255). -/
theorem spFlags_eq : spFlags sp e = flagByte false false
    (decide ((sp &&& 0x000F#16).toNat + (e &&& 0x0F#8).toNat > 0x0F))
    (decide ((sp &&& 0x00FF#16).toNat + e.toNat > 0xFF)) := by
  rw [spFlags, carrySp3_eq, carrySp7_eq]

/-- The sign-extended displacement adds its signed value (R254). -/
theorem spPlus_eq : spPlus sp e = BitVec.ofInt 16 ((sp.toNat : Int) + e.toInt) := by
  rw [BitVec.ofInt_add, BitVec.ofInt_natCast, BitVec.ofNat_toNat, BitVec.setWidth_eq]
  rfl

end Sums

/-! ### Writes after idle cycles -/

theorem tick_sameMemory (s : State) : SameMemory s (tick s) := readLoc_tick s

theorem ticks_sameMemory (n : Nat) (s : State) : SameMemory s (ticks n s) := readLoc_ticks n s

section Writes

variable {s u : State} {i : Instr} (hmem : SameMemory s u)
include hmem

theorem withCpu_sameMemory (c : Cpu) : SameMemory s (withCpu u c) :=
  fun l => (readLoc_withCpu u c l).trans (hmem l)

/-- An instruction that ends with registers `c`, whose A is the old one, and new flags. -/
theorem setF_writesFlags {c : Cpu} {z n h cy : Bool}
    (hi : exec i s = .next (withCpu u (setF c (flagByte z n h cy)))) (ha : regA c = regA s.cpu) :
    ∃ t, exec i s = .next t ∧ t = { u with cpu := { c with af := t.cpu.af } } ∧ regA t.cpu = regA s.cpu ∧
      SameMemory s t ∧ FlagsAre t z n h cy :=
  ⟨_, hi, rfl, (getReg_setF c _ .a).trans ha, withCpu_sameMemory hmem _, flagsAre_setF c rfl⟩

end Writes

theorem getPair_setPair_same (c : Cpu) (dd : Pair) (w : Word) : getPair (setPair c dd w) dd = w := by
  cases dd <;> rfl

theorem getPair_setPair_ne (c : Cpu) {dd e : Pair} (w : Word) (h : e ≠ dd) :
    getPair (setPair c dd w) e = getPair c e := by
  cases dd <;> cases e <;> simp_all [getPair, setPair]

theorem setPair_frame (c : Cpu) (dd : Pair) (w : Word) :
    let d := setPair c dd w
    d = { c with bc := d.bc, de := d.de, hl := d.hl, sp := d.sp } := by
  cases dd <;> rfl

/-- An instruction that ends with one pair written. -/
theorem setPair_writesPair {s u : State} {i : Instr} (hmem : SameMemory s u) (dd : Pair) (w : Word)
    (hi : exec i s = .next (withCpu u (setPair s.cpu dd w))) :
    ∃ t, exec i s = .next t ∧ getPair t.cpu dd = w ∧ (∀ e, e ≠ dd → getPair t.cpu e = getPair s.cpu e) ∧
      SameMemory s t ∧
      t = { u with cpu := { s.cpu with bc := t.cpu.bc, de := t.cpu.de, hl := t.cpu.hl, sp := t.cpu.sp } } :=
  ⟨_, hi, getPair_setPair_same .., fun _ he => getPair_setPair_ne _ w he, withCpu_sameMemory hmem _,
    congrArg (withCpu u) (setPair_frame s.cpu dd w)⟩

/-! ### The instructions -/

/-- ADD HL,dd in the terms of its rule (R251). -/
theorem exec_addHlDd (dd : Pair) (s : State) : exec (.addHlDd dd) s = .next (withCpu (tick s)
    (setF { s.cpu with hl := BitVec.ofNat 16 (s.cpu.hl.toNat + (getPair s.cpu dd).toNat) }
      (flagByte (flagZ s.cpu) false
        (decide ((s.cpu.hl &&& 0x0FFF#16).toNat + (getPair s.cpu dd &&& 0x0FFF#16).toNat > 0x0FFF))
        (decide (s.cpu.hl.toNat + (getPair s.cpu dd).toNat > 0xFFFF))))) := by
  rw [← carry11_eq, ← BitVec.add_def]
  rfl

/-- INC dd in the terms of its rule (R252). -/
theorem exec_incDd (dd : Pair) (s : State) : exec (.incDd dd) s =
    .next (withCpu (tick s) (setPair s.cpu dd (BitVec.ofNat 16 ((getPair s.cpu dd).toNat + 1)))) := by
  have hsum : BitVec.ofNat 16 ((getPair s.cpu dd).toNat + 1) = getPair s.cpu dd + 1 := by bv_omega
  rw [hsum]
  rfl

/-- DEC dd in the terms of its rule (R253). -/
theorem exec_decDd (dd : Pair) (s : State) : exec (.decDd dd) s =
    .next (withCpu (tick s) (setPair s.cpu dd (BitVec.ofNat 16 ((getPair s.cpu dd).toNat + 65535)))) := by
  have hdiff : BitVec.ofNat 16 ((getPair s.cpu dd).toNat + 65535) = getPair s.cpu dd - 1 := by bv_omega
  rw [hdiff]
  rfl

/-- ADD SP,e writes the signed sum to SP (R254). -/
theorem exec_addSpE (e : Byte) (s : State) : exec (.addSpE e) s = .next (withCpu (ticks 2 s)
    (setF { s.cpu with sp := BitVec.ofInt 16 ((s.cpu.sp.toNat : Int) + e.toInt) } (spFlags s.cpu.sp e))) := by
  rw [← spPlus_eq]
  rfl

/-- LD HL,SP+e writes the signed sum to HL (R255). -/
theorem exec_ldHlSpE (e : Byte) (s : State) : exec (.ldHlSpE e) s = .next (withCpu (tick s)
    (setF { s.cpu with hl := BitVec.ofInt 16 ((s.cpu.sp.toNat : Int) + e.toInt) } (spFlags s.cpu.sp e))) := by
  rw [← spPlus_eq]
  rfl

/-- Settles O13: ADD HL,dd writes HL and the flags after one idle cycle, INC dd and DEC dd one pair. -/
theorem pairArithmetic : Obligations.PairArithmetic := by
  unfold Obligations.PairArithmetic
  intro s dd
  refine ⟨setF_writesFlags (tick_sameMemory s) (exec_addHlDd dd s) rfl, fun i v hiv => ?_⟩
  obtain ⟨rfl, rfl⟩ | ⟨rfl, rfl⟩ := hiv
  · exact setPair_writesPair (tick_sameMemory s) dd _ (exec_incDd dd s)
  · exact setPair_writesPair (tick_sameMemory s) dd _ (exec_decDd dd s)

/-- Settles O14: one sum and one flag byte, written to SP after two idle cycles and to HL after one. -/
theorem spArithmetic : Obligations.SpArithmetic := by
  unfold Obligations.SpArithmetic
  intro s e sum h c
  have haddSp := exec_addSpE e s
  have hldHl := exec_ldHlSpE e s
  rw [spFlags_eq] at haddSp hldHl
  exact ⟨setF_writesFlags (ticks_sameMemory 2 s) haddSp rfl, setF_writesFlags (tick_sameMemory s) hldHl rfl⟩

end Sys2Proof.Machine
end

section
/-! PROOFS. The rotates, the shifts and the bit instructions (O15 to O18): each function of R275 to R282 as a sum of numbers,
and the table of the CB forms read once for registers and for the byte at HL. -/

namespace Sys2Proof.Machine

/-! ### Bits as numbers -/

/-- Bits that lie apart add up: those of a multiple of `2 ^ k` and those below `k`. -/
theorem toNat_or_of_apart (k : Nat) {x y : Byte} {q : Nat} (hx : x.toNat = 2 ^ k * q) (hy : y.toNat < 2 ^ k) :
    (x ||| y).toNat = x.toNat + y.toNat := by
  rw [BitVec.toNat_or, hx, Nat.two_pow_add_eq_or_of_lt hy]

theorem toNat_ofNat_bit (b : Bool) : (BitVec.ofNat 8 (bit b)).toNat = b.toNat := by cases b <;> rfl

theorem toNat_ofNat_bit_shl7 (b : Bool) : (BitVec.ofNat 8 (bit b) <<< 7).toNat = 128 * b.toNat := by cases b <;> rfl

theorem toNat_shl1 (v : Byte) : (v <<< 1).toNat = 2 * (v.toNat % 128) := by
  rw [BitVec.toNat_shiftLeft, Nat.shiftLeft_eq]
  omega

theorem toNat_shr1 (v : Byte) : (v >>> 1).toNat = v.toNat / 2 := by
  rw [BitVec.toNat_ushiftRight, Nat.shiftRight_eq_div_pow]

theorem toNat_bit7 (v : Byte) : (v.getLsbD 7).toNat = v.toNat / 128 := by
  have hv := v.isLt
  rw [BitVec.getLsbD, Nat.toNat_testBit]
  omega

theorem toNat_bit0 (v : Byte) : (v.getLsbD 0).toNat = v.toNat % 2 := by
  rw [BitVec.getLsbD, Nat.toNat_testBit]
  omega

/-- A shift to the left that brings in `b` below. -/
theorem toNat_shl1_or (v : Byte) (b : Bool) :
    (v <<< 1 ||| BitVec.ofNat 8 (bit b)).toNat = (2 * v.toNat + b.toNat) % 256 := by
  have hb := b.toNat_le
  rw [toNat_or_of_apart 1 (toNat_shl1 v) (by rw [toNat_ofNat_bit]; omega), toNat_shl1, toNat_ofNat_bit]
  omega

/-- A shift to the right that brings in `b` above. -/
theorem toNat_shr1_or (v : Byte) (b : Bool) :
    (v >>> 1 ||| BitVec.ofNat 8 (bit b) <<< 7).toNat = v.toNat / 2 + 128 * b.toNat := by
  have hv := v.isLt
  rw [BitVec.or_comm, toNat_or_of_apart 7 (toNat_ofNat_bit_shl7 b) (by rw [toNat_shr1]; omega), toNat_shr1,
    toNat_ofNat_bit_shl7, Nat.add_comm]

/-- Bit 7 alone, as SRA keeps it (R280). -/
theorem and_0x80_eq (v : Byte) : v &&& 0x80#8 = BitVec.ofNat 8 (bit (v.getLsbD 7)) <<< 7 := by
  apply BitVec.eq_of_toNat_eq
  rw [BitVec.toNat_and, toNat_ofNat_bit_shl7, Nat.mul_comm]
  exact Nat.and_two_pow v.toNat 7

/-! ### The functions of R275 to R282 -/

/-- The result and the bit that leaves, as numbers. -/
structure ShiftOut.Is (o : ShiftOut) (p : Nat × Nat) : Prop where
  res : o.res.toNat = p.1
  out : o.out.toNat = p.2

section Values

variable (v : Byte) (c : Bool)

theorem rlc8_is : (rlc8 v).Is ((2 * v.toNat + v.toNat / 128) % 256, v.toNat / 128) := by
  refine ⟨?_, toNat_bit7 v⟩
  rw [← toNat_bit7]
  exact toNat_shl1_or v _

theorem rrc8_is : (rrc8 v).Is (v.toNat / 2 + 128 * (v.toNat % 2), v.toNat % 2) := by
  refine ⟨?_, toNat_bit0 v⟩
  rw [← toNat_bit0]
  exact toNat_shr1_or v _

theorem rl8_is : (rl8 v c).Is ((2 * v.toNat + c.toNat) % 256, v.toNat / 128) := ⟨toNat_shl1_or v c, toNat_bit7 v⟩

theorem rr8_is : (rr8 v c).Is (v.toNat / 2 + 128 * c.toNat, v.toNat % 2) := ⟨toNat_shr1_or v c, toNat_bit0 v⟩

theorem sla8_is : (sla8 v).Is (2 * v.toNat % 256, v.toNat / 128) :=
  ⟨(toNat_shl1 v).trans (by omega), toNat_bit7 v⟩

theorem sra8_is : (sra8 v).Is (v.toNat / 2 + 128 * (v.toNat / 128), v.toNat % 2) := by
  refine ⟨?_, toNat_bit0 v⟩
  rw [sra8, and_0x80_eq, ← toNat_bit7]
  exact toNat_shr1_or v _

theorem swap8_is : (swap8 v).Is (v.toNat % 16 * 16 + v.toNat / 16, 0) := by
  have hv := v.isLt
  have hhigh : (v <<< 4).toNat = 2 ^ 4 * (v.toNat % 16) := by
    rw [BitVec.toNat_shiftLeft, Nat.shiftLeft_eq]
    omega
  have hlow : (v >>> 4).toNat = v.toNat / 16 := by
    rw [BitVec.toNat_ushiftRight, Nat.shiftRight_eq_div_pow]
  refine ⟨?_, rfl⟩
  rw [swap8, toNat_or_of_apart 4 hhigh (by omega), hhigh, hlow]
  omega

theorem srl8_is : (srl8 v).Is (v.toNat / 2, v.toNat % 2) := ⟨toNat_shr1 v, toNat_bit0 v⟩

end Values

section Is

variable {o : ShiftOut} {p : Nat × Nat} (ho : o.Is p)

include ho

theorem ShiftOut.Is.res_eq : o.res = BitVec.ofNat 8 p.1 := by rw [← ho.res, BitVec.ofNat_toNat, BitVec.setWidth_eq]

theorem ShiftOut.Is.out_eq : o.out = decide (p.2 = 1) := by
  rw [← ho.out]
  cases o.out <;> rfl

theorem ShiftOut.Is.shiftFlags_eq : shiftFlags o = flagByte (decide (p.1 = 0)) false false (decide (p.2 = 1)) := by
  have hz : (o.res == 0) = decide (p.1 = 0) := by
    rw [← ho.res]
    exact decide_eq_decide.mpr BitVec.toNat_inj.symm
  rw [shiftFlags, hz, ho.out_eq]

end Is

/-! ### The accumulator forms (R271 to R274) -/

/-- An accumulator rotate whose result is `n` modulo 256 writes it to A, clears Z, N and H, and takes C from the bit that
leaves. -/
theorem finishAccRotate_writesA {s : State} {i : Instr} {o : ShiftOut} {p : Nat × Nat} {n : Nat}
    (hi : exec i s = finishAccRotate s o) (ho : o.Is p) (hn : p.1 = n % 256) :
    ∃ t, exec i s = .next t ∧ WritesA s t (BitVec.ofNat 8 n) false false false (decide (p.2 = 1)) := by
  have hres : o.res = BitVec.ofNat 8 n := BitVec.eq_of_toNat_eq (ho.res.trans (hn.trans (BitVec.toNat_ofNat n 8).symm))
  exact ⟨_, hi, writeAluOut_writesA s ⟨o.res, accRotateFlags o⟩ hres (by rw [accRotateFlags, ho.out_eq])⟩

/-- Settles O15: the accumulator forms are RLC, RRC, RL and RR on A, with other flags. -/
theorem accumulatorRotates : Obligations.AccumulatorRotates := by
  unfold Obligations.AccumulatorRotates
  intro s a c
  have ha : a < 256 := (regA s.cpu).isLt
  have hc : c ≤ 1 := (flagC s.cpu).toNat_le
  exact ⟨finishAccRotate_writesA rfl (rlc8_is _) rfl,
    finishAccRotate_writesA rfl (rrc8_is _) (Nat.mod_eq_of_lt (by omega)).symm,
    finishAccRotate_writesA rfl (rl8_is _ _) rfl,
    finishAccRotate_writesA rfl (rr8_is _ _) (Nat.mod_eq_of_lt (by omega)).symm⟩

/-! ### The CB forms (R275 to R298) -/

/-- `f` is the table's line of the function `g`: on a register, on the byte at HL, and as numbers. -/
structure ShiftMeaning (f : (Reg8 → Instr) × Instr × (Nat → Nat → Nat × Nat)) (g : Byte → Bool → ShiftOut) : Prop where
  reg : ∀ r s, exec (f.1 r) s = shiftReg s r (g (getReg s.cpu r) (flagC s.cpu))
  mem : ∀ s, exec f.2.1 s = readHl s fun v t => shiftMemHl t (g v (flagC t.cpu))
  value : ∀ v c, (g v c).Is (f.2.2 v.toNat c.toNat)

/-- Every line of the table has its function. -/
theorem shiftForms_meaning : ∀ f ∈ shiftForms, ∃ g, ShiftMeaning f g := by
  simp only [shiftForms, List.forall_mem_cons]
  exact ⟨⟨fun v _ => rlc8 v, fun _ _ => rfl, fun _ => rfl, fun v _ => rlc8_is v⟩,
    ⟨fun v _ => rrc8 v, fun _ _ => rfl, fun _ => rfl, fun v _ => rrc8_is v⟩,
    ⟨rl8, fun _ _ => rfl, fun _ => rfl, rl8_is⟩,
    ⟨rr8, fun _ _ => rfl, fun _ => rfl, rr8_is⟩,
    ⟨fun v _ => sla8 v, fun _ _ => rfl, fun _ => rfl, fun v _ => sla8_is v⟩,
    ⟨fun v _ => sra8 v, fun _ _ => rfl, fun _ => rfl, fun v _ => sra8_is v⟩,
    ⟨fun v _ => swap8 v, fun _ _ => rfl, fun _ => rfl, fun v _ => swap8_is v⟩,
    ⟨fun v _ => srl8 v, fun _ _ => rfl, fun _ => rfl, fun v _ => srl8_is v⟩,
    fun _ h => absurd h List.not_mem_nil⟩

/-- Settles O16: the function's result and flags are written to the register and to F. -/
theorem cbShiftRegister : Obligations.CbShiftRegister := by
  unfold Obligations.CbShiftRegister
  intro f hf s r
  obtain ⟨g, hg⟩ := shiftForms_meaning f hf
  have hv := hg.value (getReg s.cpu r) (flagC s.cpu)
  refine ⟨_, hg.reg r s, ?_⟩
  rw [hv.res_eq, hv.shiftFlags_eq]
  exact setReg_setF_writesReg ..

/-- Settles O17: a read cycle, then a write cycle with the flags written before it. -/
theorem cbShiftMemory : Obligations.CbShiftMemory := by
  unfold Obligations.CbShiftMemory
  intro f hf s hacc
  obtain ⟨g, hg⟩ := shiftForms_meaning f hf
  obtain ⟨v, hread, -⟩ := rd_of_accessible hacc
  have hv := hg.value v (flagC s.cpu)
  obtain ⟨t, ht, hstores⟩ := modifyHl_stores hacc (i := f.2.1) (by
    rw [hg.mem, readHl_next hread, shiftMemHl, tick_cpu, hv.res_eq, hv.shiftFlags_eq])
  exact ⟨v, t, hread, ht, hstores⟩

/-! ### Bit test, reset and set (R299 to R304) -/

/-- BIT's flags in the terms of its rule (R299). -/
theorem bitFlags_eq (v : Byte) (b : Nat) (c : Bool) :
    bitFlags v b c = flagByte (decide (v.toNat / 2 ^ b % 2 = 0)) false true c := by
  rw [bitFlags, BitVec.getLsbD, Nat.testBit_eq_decide_div_mod_eq, ← decide_not]
  simp only [Nat.mod_two_ne_one]

/-- The mask of bit `b`. -/
theorem getLsbD_one_shl {b j : Nat} (hj : j < 8) : (1#8 <<< b).getLsbD j = decide (j = b) := by
  rw [← BitVec.twoPow_eq, BitVec.getLsbD_twoPow]
  rcases eq_or_ne j b with rfl | h
  · simp [hj]
  · simp [h, h.symm]

theorem getLsbD_resBit (v : Byte) {b j : Nat} (hj : j < 8) :
    (resBit v b).getLsbD j = if j = b then false else v.getLsbD j := by
  rw [resBit, BitVec.getLsbD_and, BitVec.getLsbD_not, getLsbD_one_shl hj]
  by_cases h : j = b <;> simp [h, hj]

theorem getLsbD_setBit (v : Byte) {b j : Nat} (hj : j < 8) :
    (setBit v b).getLsbD j = if j = b then true else v.getLsbD j := by
  rw [setBit, BitVec.getLsbD_or, getLsbD_one_shl hj]
  by_cases h : j = b <;> simp [h]

theorem setF_loByte (c : Cpu) : setF c (loByte c.af) = c := by rw [setF, joinBytes_hiByte_loByte]

/-- BIT b,(HL) is a read cycle, and no write (R300). -/
theorem exec_bitBMemHl (b : Nat) (s : State) : exec (.bitBMemHl b) s =
    readHl s fun v t => .next (withCpu t (setF t.cpu (bitFlags v b (flagC t.cpu)))) := rfl

/-- An instruction that changes the byte at HL by `f` and no register does so in two cycles. -/
theorem rewriteHl_stores {s : State} {i : Instr} {u : Byte} (f : Byte → Byte) (hacc : accessible s s.cpu.hl = true)
    (hread : memRead (tick s) s.cpu.hl = .next u) (hi : exec i s = readHl s fun v t => wr t.cpu.hl (f v) t) :
    ∃ t, exec i s = .next t ∧ Stores s (ticks 2 s) t s.cpu.hl (f u) ∧ t.cpu = s.cpu := by
  obtain ⟨t, ht, hstores, hcpu⟩ := setF_wr_stores hacc (f u) (loByte s.cpu.af)
  rw [setF_loByte] at ht hcpu
  exact ⟨t, (hi.trans (readHl_next hread _)).trans ht, hstores, hcpu⟩

/-- Settles O18: BIT writes the flags alone; RES and SET write the register, or the byte at HL in the second cycle. -/
theorem bitResSet : Obligations.BitResSet := by
  unfold Obligations.BitResSet
  intro s b _
  refine ⟨fun r => ⟨_, rfl, setF_writesA s _ (bitFlags_eq ..)⟩,
    fun r => ⟨_, _, rfl, setReg_loadsReg s r _, fun _ => getLsbD_resBit _⟩,
    fun r => ⟨_, _, rfl, setReg_loadsReg s r _, fun _ => getLsbD_setBit _⟩, fun hacc => ?_⟩
  obtain ⟨u, hread, -⟩ := rd_of_accessible hacc
  refine ⟨u, hread, ⟨_, (exec_bitBMemHl b s).trans (readHl_next hread _), ?_⟩, ?_, ?_⟩
  · exact setF_writesA (tick s) _ (bitFlags_eq ..)
  · obtain ⟨t, ht, hstores, hcpu⟩ := rewriteHl_stores (i := .resBMemHl b) (resBit · b) hacc hread rfl
    exact ⟨t, _, ht, hstores, hcpu, fun _ => getLsbD_resBit u⟩
  · obtain ⟨t, ht, hstores, hcpu⟩ := rewriteHl_stores (i := .setBMemHl b) (setBit · b) hacc hread rfl
    exact ⟨t, _, ht, hstores, hcpu, fun _ => getLsbD_setBit u⟩

end Sys2Proof.Machine
end

section
/-! PROOFS. The loads (O19, O20): the register forms are one write of the CPU, and every load of A from memory is one read
cycle into A with HL moved after it. -/

namespace Sys2Proof.Machine

/-! ### Register loads (R311, R312, R330, R332) -/

/-- Settles O19: one register or one pair written, and for LD SP,HL an idle cycle before it. -/
theorem registerLoads : Obligations.RegisterLoads := by
  unfold Obligations.RegisterLoads
  intro s
  refine ⟨fun r q => ⟨_, rfl, setReg_loadsReg s r _⟩, fun r n => ⟨_, rfl, setReg_loadsReg s r n⟩, fun dd nn => ?_, ?_⟩
  · exact setPair_writesPair (fun _ => rfl) dd nn rfl
  · exact ⟨_, rfl, withCpu_sameMemory (tick_sameMemory s) _, rfl⟩

/-! ### Loads of A from memory (R316, R317, R320, R322, R324, R326, R327) -/

/-- A load of A in the form all seven share: A read at `a`, then HL moved by `d`. -/
def loadAMoveHl (a d : Word) (s : State) : Result State := andThen (loadA a s) fun t => .next (addHl d t)

theorem addHl_zero (s : State) : addHl 0 s = s :=
  congrArg (fun w => withCpu s { s.cpu with hl := w }) (BitVec.add_zero s.cpu.hl)

/-- Where HL is not moved, the load is `loadA` alone. -/
theorem loadAMoveHl_zero (a : Word) (s : State) : loadAMoveHl a 0 s = loadA a s := by
  rw [loadAMoveHl]
  cases loadA a s with
  | next t => rw [andThen_next, addHl_zero]
  | fault r => rfl
  | refused r => rfl

/-- Every line of the table loads A from its address and moves HL by its step. -/
theorem exec_loadForms (s : State) (n : Byte) (nn : Word) :
    ∀ f ∈ loadForms s.cpu n nn, exec f.1 s = loadAMoveHl f.2.1 f.2.2 s := by
  simp only [loadForms, List.forall_mem_cons, loadAMoveHl_zero, ← highPage_eq_ofNat]
  exact ⟨rfl, rfl, rfl, rfl, rfl, rfl, rfl, fun _ h => absurd h List.not_mem_nil⟩

/-- The state such a load leaves: one cycle on, the byte read in A, HL moved. -/
theorem loadAMoveHl_next {s : State} {a : Word} {v : Byte} (d : Word) (h : memRead (tick s) a = .next v) :
    loadAMoveHl a d s = .next (withCpu (tick s) { setReg s.cpu .a v with hl := s.cpu.hl + d }) := by
  rw [loadAMoveHl, loadA, rd_next h]
  rfl

/-- LD r,(HL) is a read cycle at HL (R313). -/
theorem exec_ldRMemHl (r : Reg8) (s : State) :
    exec (.ldRMemHl r) s = readHl s fun v t => .next (withCpu t (setReg t.cpu r v)) := rfl

/-- Settles O20: the forms of A by their table and `loadAMoveHl`, LD r,(HL) by the operand read at HL. -/
theorem memoryLoads : Obligations.MemoryLoads := by
  unfold Obligations.MemoryLoads
  intro s
  refine ⟨fun n nn f hf hacc => ?_, fun r hacc => ?_⟩
  · obtain ⟨v, hread, -⟩ := rd_of_accessible hacc
    obtain ⟨-, hresult, hflags, -⟩ := setReg_loadsReg s .a v
    exact ⟨v, _, hread, (exec_loadForms s n nn f hf).trans (loadAMoveHl_next _ hread), hresult, hflags,
      withCpu_sameMemory (tick_sameMemory s) _, rfl⟩
  · obtain ⟨v, hread, -⟩ := rd_of_accessible hacc
    exact ⟨v, _, hread, (exec_ldRMemHl r s).trans (readHl_next hread _), setReg_loadsReg (tick s) r v⟩

end Sys2Proof.Machine
end

section
/-! PROOFS. Jumps and returns (O24, O26): every jump that takes a cycle is `jumpTo` at its target, every return is a pop into
PC and a cycle, and RETI sets IME after it (R350 to R355, R358 to R360). -/

namespace Sys2Proof.Machine

/-! ### Jumps (R351 to R355) -/

/-- A relative jump adds its signed displacement (R354). -/
theorem relTarget_eq (pc : Word) (e : Byte) : relTarget pc e = BitVec.ofInt 16 ((pc.toNat : Int) + e.toInt) :=
  spPlus_eq pc e

/-- An instruction that jumps in a cycle changes PC alone. -/
theorem jumpTo_frame {s : State} {i : Instr} {target : Word} (hi : exec i s = jumpTo target s) :
    ∃ t, exec i s = .next t ∧ t = { tick s with cpu := { s.cpu with pc := target } } ∧ SameMemory s t :=
  ⟨_, hi, rfl, withCpu_sameMemory (tick_sameMemory s) _⟩

/-- Settles O24: every jump but JP HL is `jumpTo`, where its condition holds. -/
theorem jumps : Obligations.Jumps := by
  unfold Obligations.Jumps
  intro s nn e cc
  rw [← relTarget_eq]
  refine ⟨jumpTo_frame rfl, ⟨_, rfl, rfl, withCpu_sameMemory (fun _ => rfl) _⟩, jumpTo_frame rfl, fun hcc => ?_,
    fun hcc => ?_⟩
  · have htest := (condHolds_eq_true_iff cc s).mpr hcc
    exact ⟨jumpTo_frame (if_pos htest), jumpTo_frame (if_pos htest)⟩
  · have htest := mt (condHolds_eq_true_iff cc s).mp hcc
    exact ⟨if_neg htest, if_neg htest⟩

/-! ### Returns (R358 to R360, R421) -/

/-- The state a return leaves: its three cycles, SP past both bytes, PC popped. -/
def afterReturn (s : State) (w : Word) : State :=
  withCpu (ticks 3 s) { s.cpu with sp := s.cpu.sp + 2, pc := w }

theorem afterReturn_sameMemory (s : State) (w : Word) : SameMemory s (afterReturn s w) :=
  withCpu_sameMemory (ticks_sameMemory 3 s) _

/-- A return reads both bytes where they are accessible. -/
theorem returnTo_pops {s : State} (hlo : accessible s s.cpu.sp = true) (hhi : accessible s (s.cpu.sp + 1) = true) :
    ∃ w, Pops s w ∧ returnTo s = .next (afterReturn s w) := by
  obtain ⟨w, hw, hpop⟩ := pop16_pops hlo hhi
  refine ⟨w, hw, ?_⟩
  rw [returnTo, hpop, andThen_next]
  rfl

/-- The return from an interrupt is a return with IME set at its end (R360). -/
theorem returnFromInterrupt_eq (s : State) : returnFromInterrupt s =
    andThen (returnTo s) fun t => .next (withCpu t { t.cpu with ime := true }) := by
  rw [returnTo, andThen_assoc]
  rfl

/-- Settles O26: RET is `returnTo`, RETI sets IME after it, and RET cc is `returnTo` after its test's cycle. -/
theorem returns : Obligations.Returns := by
  unfold Obligations.Returns
  intro s cc
  refine ⟨fun hlo hhi => ⟨?ret, ?reti, fun hcc => ?retCc⟩, fun hcc => ?notTaken⟩
  case ret =>
    obtain ⟨w, hw, hret⟩ := returnTo_pops hlo hhi
    exact ⟨w, _, hw, hret, afterReturn_sameMemory s w, rfl⟩
  case reti =>
    obtain ⟨w, hw, hret⟩ := returnTo_pops hlo hhi
    have hreti : exec .reti s = .next (withCpu (afterReturn s w) { (afterReturn s w).cpu with ime := true }) := by
      change returnFromInterrupt s = _
      rw [returnFromInterrupt_eq, hret, andThen_next]
    exact ⟨w, _, hw, hreti, withCpu_sameMemory (afterReturn_sameMemory s w) _, rfl⟩
  case retCc =>
    obtain ⟨w, hw, hret⟩ := returnTo_pops (s := tick s) hlo hhi
    have hretCc : exec (.retCc cc) s = returnTo (tick s) := if_pos ((condHolds_eq_true_iff cc s).mpr hcc)
    exact ⟨w, _, hw, hretCc.trans hret, withCpu_sameMemory (ticks_sameMemory 4 s) _, rfl⟩
  case notTaken => exact if_neg (mt (condHolds_eq_true_iff cc s).mp hcc)

end Sys2Proof.Machine
end

section
/-! PROOFS. The system instructions (O27) and the latency of EI (O28): what each instruction writes of the CPU, and what the
service call that ends its step does then (R380 to R384, R410 to R417, R526). -/

namespace Sys2Proof.Machine

/-- Settles O27: each body is NOP's or one write of the CPU. -/
theorem systemInstructions : Obligations.SystemInstructions := by
  unfold Obligations.SystemInstructions
  intro s
  have hpc : s.cpu.pc + 1 = BitVec.ofNat 16 (s.cpu.pc.toNat + 1) := by bv_omega
  have hmem (c : Cpu) : SameMemory s (withCpu s c) := withCpu_sameMemory (fun _ => rfl) c
  exact ⟨rfl, ⟨_, rfl, congrArg (setPc s) hpc, hmem _⟩,
    ⟨_, rfl, rfl, hmem _⟩, ⟨_, rfl, rfl, hmem _⟩, ⟨_, rfl, rfl, hmem _⟩⟩

/-! ### The service call -/

section Service

variable {s : State}

theorem finishStep_of_no_fault (h : s.fault = none) : finishStep s = interruptServiceRoutine s := by
  rw [finishStep, h]

/-- A running CPU with IME clear takes no interrupt, whatever is pending, and the call takes no cycle (R413, R416). -/
theorem interruptServiceRoutine_of_masked (hime : s.cpu.ime = false) (hrun : s.cpu.halted = false) :
    interruptServiceRoutine s = .next (endServiceCall s) := by
  simp [interruptServiceRoutine, hime, hrun]

theorem finishStep_of_masked (hf : s.fault = none) (hime : s.cpu.ime = false) (hrun : s.cpu.halted = false) :
    finishStep s = .next (endServiceCall s) :=
  (finishStep_of_no_fault hf).trans (interruptServiceRoutine_of_masked hime hrun)

/-- With IME set and a bit pending, the call enters the lowest pending one (R410). -/
theorem interruptServiceRoutine_of_pending (hime : s.cpu.ime = true) {i : Nat} (hi : (pending s.intr).getLsbD i = true) :
    interruptServiceRoutine s =
      andThen (enterInterrupt (lowestBit (pending s.intr)) s) fun t => .next (endServiceCall t) := by
  have hne : pending s.intr ≠ 0#5 := fun h => by simp [h] at hi
  rw [interruptServiceRoutine, if_neg hne, if_pos hime]

/-- No pending bit is below the lowest (R402). -/
theorem lowestBit_le {p : BitVec 5} {i : Nat} (h : p.getLsbD i = true) : lowestBit p ≤ i := by
  have hi : i < 5 := BitVec.lt_of_getLsbD h
  interval_cases i <;> grind [lowestBit]

/-- The wake at the end of entry is a cycle of a halted CPU and nothing of a running one (R412). -/
theorem wakeAfterEntry_eq (s : State) :
    wakeAfterEntry s = withCpu (ticks (if s.cpu.halted then 1 else 0) s) { s.cpu with halted := false } := by
  unfold wakeAfterEntry
  split
  · rfl
  · rename_i hrun
    rw [← Bool.eq_false_iff.mpr hrun]
    rfl

/-- Entry pushes PC in its third and fourth cycles and ends at the vector, the CPU running (R410 to R412). -/
theorem enterInterrupt_pushes (i : Nat) (hhi : accessible s (s.cpu.sp - 1) = true)
    (hlo : accessible s (s.cpu.sp - 2) = true) :
    ∃ u, Pushes (acceptInterrupt i s) 2 s.cpu.pc u ∧
      enterInterrupt i s = .next (withCpu (ticks (if s.cpu.halted then 2 else 1) u)
        { s.cpu with ime := false, sp := s.cpu.sp - 2, pc := vector i, halted := false }) := by
  obtain ⟨u, hu, hp⟩ := push16_pushes (s := acceptInterrupt i s) 2 s.cpu.pc hhi hlo
  have hcpu : u.cpu = { s.cpu with ime := false, sp := s.cpu.sp - 2 } := push16_cpu hu
  refine ⟨u, hp, ?_⟩
  change andThen (push16 s.cpu.pc (ticks 2 (acceptInterrupt i s))) _ = _
  rw [hu, andThen_next, wakeAfterEntry_eq, idle_eq_tick, setPc_eq_withCpu, ticks_withCpu, withCpu_withCpu, ← ticks_succ]
  simp only [withCpu_cpu, tick_cpu, hcpu]
  cases s.cpu.halted <;> rfl

end Service

/-! ### EI's latency (R384, R417) -/

/-- The state the service call after EI leaves: IME set, the schedule consumed. -/
def afterEi (s : State) : State := withCpu s { s.cpu with ime := true, eiScheduled := false, haltFresh := false }

section EiLatency

variable {s : State}

theorem finishStep_of_ei (hf : s.fault = none) (hrun : s.cpu.halted = false) (hime : s.cpu.ime = false) :
    finishStep (withCpu s { s.cpu with eiScheduled := true }) = .next (afterEi s) := by
  rw [finishStep_of_masked (s := withCpu s { s.cpu with eiScheduled := true }) hf hime hrun, endServiceCall_eq,
    withCpu_cpu, hime]
  rfl

/-- The service call after DI takes no interrupt (R383). -/
theorem finishStep_of_di (hf : s.fault = none) (hrun : s.cpu.halted = false) :
    finishStep (withCpu s { s.cpu with ime := false, eiScheduled := false }) =
      .next (withCpu s { s.cpu with ime := false, eiScheduled := false, haltFresh := false }) :=
  finishStep_of_masked (s := withCpu s { s.cpu with ime := false, eiScheduled := false }) hf rfl hrun

/-- The second service call after EI enters a pending interrupt, in five cycles. -/
theorem finishStep_afterEi (hf : s.fault = none) (hrun : s.cpu.halted = false) {i : Nat}
    (hi : (pending s.intr).getLsbD i = true) (hhi : accessible s (s.cpu.sp - 1) = true)
    (hlo : accessible s (s.cpu.sp - 2) = true) :
    ∃ w, finishStep (afterEi s) = .next w ∧ w.cpu.ime = false ∧ w.clock = s.clock + 20 ∧
      w.cpu.pc = vector (lowestBit (pending s.intr)) := by
  obtain ⟨u, ⟨-, -, -, -, hclock, -⟩, henter⟩ :=
    enterInterrupt_pushes (s := afterEi s) (lowestBit (pending s.intr)) hhi hlo
  have hrun' : (afterEi s).cpu.halted = false := hrun
  have hfive : u.clock + 4 = s.clock + 20 := by rw [hclock]; rfl
  have hcall : finishStep (afterEi s) =
      andThen (enterInterrupt (lowestBit (pending s.intr)) (afterEi s)) fun t => .next (endServiceCall t) :=
    (finishStep_of_no_fault (s := afterEi s) hf).trans (interruptServiceRoutine_of_pending rfl hi)
  rw [henter, hrun', andThen_next] at hcall
  exact ⟨_, hcall, rfl, hfive, rfl⟩

end EiLatency

/-- Settles O28: the service call after EI finds IME clear; the one after that finds it cleared by DI, or set. -/
theorem eiLatency : Obligations.EiLatency := by
  unfold Obligations.EiLatency
  intro s hf hrun hime
  refine ⟨_, afterEi s, rfl, finishStep_of_ei hf hrun hime, rfl,
    ⟨_, _, rfl, finishStep_of_di (s := afterEi s) hf hrun, rfl⟩, fun i _ hi hhi hlo => ?_⟩
  obtain ⟨w, hw, hime', hclock, hpc⟩ := finishStep_afterEi hf hrun hi hhi hlo
  exact ⟨w, hw, hime', hclock, lowestBit (pending s.intr), lowestBit_le hi, hpc⟩

end Sys2Proof.Machine
end

section
/-! PROOFS. The service call that enters an interrupt (O30) and the one that does not, with the halted step (O31): entry
is `enterInterrupt_pushes` and the end of every call (R400 to R417). -/

namespace Sys2Proof.Machine

/-- The lowest pending bit is the one with none below it (R402). -/
theorem lowestBit_eq {p : BitVec 5} {i : Nat} (hi : p.getLsbD i = true) (hlow : ∀ j, j < i → p.getLsbD j = false) :
    lowestBit p = i := by
  have hbit : p.getLsbD (lowestBit p) = true := by
    have hlt : i < 5 := BitVec.lt_of_getLsbD hi
    interval_cases i <;> grind [lowestBit]
  have hge : ¬lowestBit p < i := fun h => by simp [hlow _ h] at hbit
  have hle := lowestBit_le hi
  omega

/-- Accepting interrupt `i` clears its bit of IF alone (R410). -/
theorem acceptInterrupt_ifReg (s : State) (i j : Nat) :
    (acceptInterrupt i s).intr.ifReg.getLsbD j = (s.intr.ifReg.getLsbD j && decide (j ≠ i)) := by
  show (s.intr.ifReg &&& ~~~BitVec.twoPow 5 i).getLsbD j = _
  by_cases hj : j < 5
  · simp [hj, eq_comm]
  · simp [BitVec.getLsbD_of_ge _ j (Nat.le_of_not_lt hj)]

/-- Settles O30: the entry of the lowest pending bit, then the end of the call. -/
theorem interruptEntry : Obligations.InterruptEntry := by
  unfold Obligations.InterruptEntry
  intro s i _ hime hi hlow hhi hlo
  obtain ⟨u, hpush, henter⟩ := enterInterrupt_pushes (s := s) i hhi hlo
  have hcall := interruptServiceRoutine_of_pending (s := s) hime hi
  rw [pending, lowestBit_eq hi hlow, henter, andThen_next] at hcall
  have hclock : u.clock = s.clock + 16 := by
    obtain ⟨-, -, -, -, hclock, -⟩ := hpush
    exact hclock
  refine ⟨acceptInterrupt i s, u, _, rfl, acceptInterrupt_ifReg s i, hpush, hcall, rfl,
    withCpu_sameMemory (ticks_sameMemory _ u) _, ?_⟩
  rw [endServiceCall_eq, withCpu_clock, withCpu_clock, ticks_clock, hclock]
  cases s.cpu.halted <;> rfl

/-- The table of R414, line by line. -/
theorem armsHaltBug_eq (mode : HaltBugMode) (fresh : Bool) : armsHaltBug mode fresh =
    decide (mode = .docLiteral ∧ fresh = false ∨ mode = .hardware ∧ fresh = true) := by
  cases mode <;> cases fresh <;> rfl

/-- With nothing pending the call only ends (R410). -/
theorem interruptServiceRoutine_of_idle {s : State} (h : pending s.intr = 0#5) :
    interruptServiceRoutine s = .next (endServiceCall s) := if_pos h

/-- With IME clear and a bit pending, a halted CPU wakes without service (R413). -/
theorem interruptServiceRoutine_of_wake {s : State} (h : pending s.intr ≠ 0#5) (hime : s.cpu.ime = false)
    (hhalt : s.cpu.halted = true) : interruptServiceRoutine s = .next (endServiceCall (wakeWithoutService s)) := by
  rw [interruptServiceRoutine, if_neg h, hime, hhalt]
  rfl

/-- A halted step is a cycle and the service call (R176). -/
theorem step_of_halted {s : State} (hf : s.fault = none) (hhalt : s.cpu.halted = true) :
    step s = interruptServiceRoutine (tick s) := by
  rw [step, hf]
  dsimp only
  rw [hhalt, if_pos rfl]
  exact finishStep_of_no_fault (s := tick s) hf

/-- Settles O31: the branches of R410 that enter no interrupt. -/
theorem serviceWithoutEntry : Obligations.ServiceWithoutEntry := by
  unfold Obligations.ServiceWithoutEntry
  intro s
  refine ⟨?_, fun hne hime hhalt => ?_, step_of_halted⟩
  · rintro (hidle | ⟨hime, hrun⟩)
    · exact interruptServiceRoutine_of_idle hidle
    · exact interruptServiceRoutine_of_masked hime hrun
  · rw [interruptServiceRoutine_of_wake hne hime hhalt, endServiceCall_eq, wakeWithoutService_eq, armsHaltBug_eq,
      withCpu_cpu, hime]
    rfl

end Sys2Proof.Machine
end

section
/-! PROOFS. The table of R535 (O32): the bytes of every encoding, and the cycles that `exec_runs` counts. -/

namespace Sys2Proof.Machine

/-- An encoding has the bytes of its row (R535). -/
theorem length_encode (i : Instr) (b : Bool) : (encode i).length = (timing i b).1 := by
  cases i <;> rfl

/-- Settles O32: the body is a run of the row's cycles less those of the fetch, four clocks each. -/
theorem timingTable : Obligations.TimingTable := by
  unfold Obligations.TimingTable
  refine ⟨length_encode, fun i s t hi h => ?_⟩
  obtain ⟨n, hr, -, hcycles⟩ := exec_runs h
  rw [hr.clock, ← hcycles hi]
  omega

end Sys2Proof.Machine
end

section
/-! PROOFS. `Draw()` (O51, R472). -/

namespace Sys2Proof.Machine

/-- Settles O51: entry `y * 160 + x` of the rows is at column `x` and row `y`. -/
theorem drawTransposes : Obligations.DrawTransposes := by
  unfold Obligations.DrawTransposes
  intro s
  refine ⟨by simp [draw, frameBuffer], fun x y hx hy => ?_, rfl, rfl⟩
  have hlt : y * 160 + x < 23040 := by omega
  have hcolumn : (y * 160 + x) % 160 = x := by omega
  have hrow : (y * 160 + x) / 160 = y := by omega
  simp [draw, frameBuffer, hlt, hcolumn, hrow]

end Sys2Proof.Machine
end

section
/-! PROOFS. The timer's registers through the bus (O41) and the timer over machine cycles: the divider (O44), one cycle
(O45), and a period (O46). Each is read off `timerUpdate_eq` and `edgeCheck_eq` (R440 to R448). -/

namespace Sys2Proof.Machine

/-! ### Numbers of the timer -/

/-- A byte counted up is the byte of the number counted up. -/
theorem add_one_eq_ofNat (v : Byte) : v + 1 = BitVec.ofNat 8 (v.toNat + 1) := by bv_omega

theorem extract_low3 (v : Byte) : v.extractLsb' 0 3 = BitVec.ofNat 3 v.toNat := by
  apply BitVec.eq_of_toNat_eq
  simp

/-- TAC reads its upper five bits as 1 (R39). -/
theorem append_extract_low3 (v : Byte) : 0x1F#5 ++ v.extractLsb' 0 3 = 0xF8#8 ||| v := by
  revert v
  decide

/-- The statements' bit of the counter is the model's (R442). -/
theorem counterBit_eq_timerBit (tac : BitVec 3) : counterBit tac.toNat = timerBit tac := rfl

/-- Only TAC's low two bits select (R39). -/
theorem counterBit_mod (n : Nat) : counterBit (n % 8) = counterBit n := by
  unfold counterBit
  rw [Nat.mod_mod_of_dvd n (by decide : 4 ∣ 8)]

/-! ### The registers (R444 to R447) -/

section Writes

variable (t : Timer) (v : Byte)

/-- A DIV write lets the edge check run at counter 0, where the signal is 0 (R444). -/
theorem timerWrite_div : timerWrite t 0xFF04#16 v =
    { t with
      divCounter := 0
      tima := if t.edgeMemo then BitVec.ofNat 8 (t.tima.toNat + 1) else t.tima
      edgeMemo := false
      pendingOverflow := t.pendingOverflow || (t.edgeMemo && decide (t.tima = 0xFF#8)) } := by
  have hsignal : timerSignal { t with divCounter := 0 } = false := by simp [timerSignal]
  have hdiv : timerWrite t 0xFF04#16 v = edgeCheck { t with divCounter := 0 } := rfl
  rw [hdiv, edgeCheck_eq, hsignal, ← add_one_eq_ofNat, Bool.not_false, Bool.and_true]

theorem timerWrite_tima : timerWrite t 0xFF05#16 v =
    { t with tima := if t.pendingOverflow then t.tima else v } := by
  obtain ⟨_, _, _, _, _, pendingOverflow⟩ := t
  cases pendingOverflow <;> rfl

theorem timerWrite_tma : timerWrite t 0xFF06#16 v =
    { t with tma := v, tima := if t.pendingOverflow then v else t.tima } := by
  obtain ⟨_, _, _, _, _, pendingOverflow⟩ := t
  cases pendingOverflow <;> rfl

theorem timerWrite_tac : timerWrite t 0xFF07#16 v = { t with tac := BitVec.ofNat 3 v.toNat } := by
  rw [← extract_low3]
  rfl

end Writes

/-- Settles O41: each write is `timerWrite` at its address. -/
theorem timerRegisters : Obligations.TimerRegisters := by
  unfold Obligations.TimerRegisters
  intro s v
  refine ⟨⟨_, rfl, ?_⟩, ⟨_, rfl, ?_, rfl⟩, ⟨_, rfl, ?_⟩, ⟨_, rfl, ?_⟩, congrArg Host.Outcome.next (hiByte_eq_ofNat _)⟩
  · rw [timerWrite_div]
    exact ⟨rfl, congrArg Host.Outcome.next (by decide : hiByte 0 = 0x00#8), rfl, rfl, rfl, rfl⟩
  · rw [timerWrite_tima]
  · rw [timerWrite_tma]
    exact ⟨rfl, rfl⟩
  · rw [timerWrite_tac]
    refine ⟨rfl, congrArg Host.Outcome.next ?_⟩
    rw [← append_extract_low3, extract_low3]
    rfl

/-! ### Machine cycles (R440 to R443) -/

theorem ticks_divCounter (n : Nat) (s : State) :
    (ticks n s).timer.divCounter = BitVec.ofNat 16 (s.timer.divCounter.toNat + 4 * n) := by
  induction n with
  | zero => simp
  | succ n ih =>
    rw [ticks_succ', tick_timer, timerUpdate_eq]
    dsimp only
    rw [ih]
    bv_omega

/-- Settles O44: the counter, and DIV as its high byte. -/
theorem dividerAdvances : Obligations.DividerAdvances := by
  unfold Obligations.DividerAdvances
  intro s n
  refine ⟨ticks_divCounter n s, congrArg Host.Outcome.next ((hiByte_eq_ofNat _).trans ?_)⟩
  rw [ticks_divCounter, BitVec.toNat_ofNat]

/-- One cycle in the terms of the counter's number (R440 to R443). -/
theorem timerUpdate_number (t : Timer) : timerUpdate 4 t =
    (let signal := decide ((t.divCounter.toNat + 4) / 2 ^ counterBit t.tac.toNat % 2 = 1) && t.tac.getLsbD 2
     let before := if t.pendingOverflow then t.tma else t.tima
     let edge := t.edgeMemo && !signal
     { divCounter := BitVec.ofNat 16 (t.divCounter.toNat + 4)
       tima := if edge then BitVec.ofNat 8 (before.toNat + 1) else before
       tma := t.tma
       tac := t.tac
       edgeMemo := signal
       pendingOverflow := edge && decide (before = 0xFF#8) }) := by
  have hcounter : t.divCounter + 4 = BitVec.ofNat 16 (t.divCounter.toNat + 4) := by bv_omega
  rw [timerUpdate_eq, timerSignal_advanced, hcounter]
  dsimp only
  rw [← add_one_eq_ofNat, counterBit_eq_timerBit]

/-- A falling edge at TIMA = 0xFF leaves 0x00 and an overflow pending (R443). -/
theorem timerUpdate_overflow {t : Timer} (hmemo : t.edgeMemo = true) (htima : t.tima = 0xFF#8)
    (hpending : t.pendingOverflow = false)
    (hsignal : timerSignal { t with divCounter := t.divCounter + 4 } = false) :
    timerUpdate 4 t =
      { divCounter := t.divCounter + 4, tima := 0x00#8, tma := t.tma, tac := t.tac, edgeMemo := false
        pendingOverflow := true } := by
  rw [timerUpdate_eq, hsignal, hmemo, hpending, htima]
  simp

/-- A pending overflow ends with TIMA reloaded, the memory having held no edge (R443). -/
theorem timerUpdate_reload {t : Timer} (hmemo : t.edgeMemo = false) (hpending : t.pendingOverflow = true) :
    (timerUpdate 4 t).tima = t.tma ∧ (timerUpdate 4 t).pendingOverflow = false := by
  rw [timerUpdate_eq, hmemo, hpending]
  exact ⟨rfl, rfl⟩

/-- Settles O45: one update as numbers, then two of them from a falling edge at TIMA = 0xFF. -/
theorem timerOverflow : Obligations.TimerOverflow := by
  unfold Obligations.TimerOverflow
  intro s
  have hrequest (u : State) := tick_otherRequests u (le_refl 2)
  refine ⟨⟨timerUpdate_number s.timer, by simpa using hrequest s⟩, fun hmemo htima hpending hsignal => ?_⟩
  have hone : (tick s).timer = _ := timerUpdate_overflow hmemo htima hpending hsignal
  obtain ⟨htima2, hpending2⟩ :=
    timerUpdate_reload (t := (tick s).timer) (by rw [hone]) (by rw [hone])
  refine ⟨by rw [hone], by rw [hone], by simpa [hpending] using hrequest s, htima2.trans (by rw [hone]), hpending2, ?_⟩
  exact (hrequest (tick s)).trans (by simp only [hone, decide_true, Bool.and_true, Bool.or_true])

/-! ### A period (R447, R448) -/

theorem timerBit_cases (tac : BitVec 3) :
    timerBit tac = 9 ∨ timerBit tac = 3 ∨ timerBit tac = 5 ∨ timerBit tac = 7 := by
  unfold timerBit
  split <;> simp

/-- The bit that TAC selects of the counter `n` cycles on. -/
def selectedBit (t : Timer) (n : Nat) : Bool := decide ((t.divCounter.toNat + 4 * n) / 2 ^ timerBit t.tac % 2 = 1)

/-- How often TIMA counts in `n` cycles in step with the counter: once for each multiple of the selected bit's period
that the counter passes (R448). -/
def countsIn (t : Timer) (n : Nat) : Nat :=
  (t.divCounter.toNat + 4 * n) / 2 ^ (timerBit t.tac + 1) - t.divCounter.toNat / 2 ^ (timerBit t.tac + 1)

theorem countsIn_zero (t : Timer) : countsIn t 0 = 0 := Nat.sub_self _

/-- A bit falls exactly when the number passes a multiple of its period: the steps are no longer than the bit stands. -/
theorem div_period_add_four (tac : BitVec 3) (x : Nat) :
    (x + 4) / 2 ^ (timerBit tac + 1) = x / 2 ^ (timerBit tac + 1) +
      if x / 2 ^ timerBit tac % 2 = 1 ∧ ¬(x + 4) / 2 ^ timerBit tac % 2 = 1 then 1 else 0 := by
  obtain hb | hb | hb | hb := timerBit_cases tac <;> rw [hb] <;> split <;> omega

theorem countsIn_succ (t : Timer) (n : Nat) :
    countsIn t (n + 1) = countsIn t n + (selectedBit t n && !selectedBit t (n + 1)).toNat := by
  have hmono : t.divCounter.toNat / 2 ^ (timerBit t.tac + 1) ≤
      (t.divCounter.toNat + 4 * n) / 2 ^ (timerBit t.tac + 1) := Nat.div_le_div_right (Nat.le_add_right _ _)
  have hedge : (selectedBit t n && !selectedBit t (n + 1)).toNat =
      if (t.divCounter.toNat + 4 * n) / 2 ^ timerBit t.tac % 2 = 1 ∧
        ¬(t.divCounter.toNat + 4 * n + 4) / 2 ^ timerBit t.tac % 2 = 1 then 1 else 0 := by
    rw [Bool.toNat, Bool.cond_eq_ite]
    simp only [selectedBit, Bool.and_eq_true, Bool.not_eq_true', decide_eq_true_eq, decide_eq_false_iff_not]
    rfl
  rw [hedge, countsIn, countsIn, show t.divCounter.toNat + 4 * (n + 1) = t.divCounter.toNat + 4 * n + 4 from rfl,
    div_period_add_four]
  omega

/-- Over a whole period that is once, and never more before its end. -/
theorem countsIn_period {t : Timer} {cycles : Nat} (h : 4 * cycles = 2 ^ (timerBit t.tac + 1)) :
    countsIn t cycles = 1 ∧ ∀ n ≤ cycles, countsIn t n ≤ 1 := by
  have hpos : 0 < 2 ^ (timerBit t.tac + 1) := Nat.two_pow_pos _
  have hone : countsIn t cycles = 1 := by
    unfold countsIn
    rw [h, Nat.add_div_right _ hpos]
    omega
  refine ⟨hone, fun n hn => hone ▸ Nat.sub_le_sub_right (Nat.div_le_div_right ?_) _⟩
  omega

/-- The timer `n` cycles on from `t`, in step with its counter and with no overflow on the way. -/
def inStepAfter (t : Timer) (n : Nat) : Timer :=
  { t with
    divCounter := BitVec.ofNat 16 (t.divCounter.toNat + 4 * n)
    tima := BitVec.ofNat 8 (t.tima.toNat + countsIn t n)
    edgeMemo := selectedBit t n }

section InStep

variable {t : Timer}

/-- The counter's wrap does not touch the selected bit. -/
theorem timerSignal_inStepAfter (hon : t.tac.getLsbD 2 = true) (n : Nat) :
    timerSignal { inStepAfter t n with divCounter := (inStepAfter t n).divCounter + 4 } = selectedBit t (n + 1) := by
  rw [timerSignal_advanced]
  simp only [inStepAfter, selectedBit, hon, Bool.and_true, BitVec.toNat_ofNat, decide_eq_decide]
  obtain hb | hb | hb | hb := timerBit_cases t.tac <;> rw [hb] <;> omega

theorem inStepAfter_zero (hon : t.tac.getLsbD 2 = true) (hmemo : t.edgeMemo = timerSignal t) : inStepAfter t 0 = t := by
  rw [timerSignal_eq, hon, Bool.and_true] at hmemo
  simp [inStepAfter, countsIn_zero, selectedBit, ← hmemo]

/-- One more cycle in step: TIMA, at most once counted, leaves no overflow pending. -/
theorem timerUpdate_inStepAfter (hon : t.tac.getLsbD 2 = true) (hpending : t.pendingOverflow = false)
    (htima : t.tima ≠ 0xFF#8) {n : Nat} (honce : countsIn t (n + 1) ≤ 1) :
    timerUpdate 4 (inStepAfter t n) = inStepAfter t (n + 1) := by
  have hcounter : (inStepAfter t n).divCounter + 4 = (inStepAfter t (n + 1)).divCounter := by
    simp only [inStepAfter]
    bv_omega
  rw [timerUpdate_eq, timerSignal_inStepAfter hon, hcounter]
  rw [countsIn_succ] at honce
  simp only [inStepAfter, hpending, countsIn_succ]
  cases hedge : (selectedBit t n && !selectedBit t (n + 1)) with
  | false => simp
  | true =>
    have hfirst : countsIn t n = 0 := by simpa [hedge] using honce
    simpa [hfirst, htima] using add_one_eq_ofNat t.tima

theorem ticks_inStep {s : State} (hon : s.timer.tac.getLsbD 2 = true) (hmemo : s.timer.edgeMemo = timerSignal s.timer)
    (hpending : s.timer.pendingOverflow = false) (htima : s.timer.tima ≠ 0xFF#8) {n : Nat}
    (honce : ∀ k ≤ n, countsIn s.timer k ≤ 1) : (ticks n s).timer = inStepAfter s.timer n := by
  induction n with
  | zero => exact (inStepAfter_zero hon hmemo).symm
  | succ n ih =>
    rw [ticks_succ', tick_timer, ih fun k hk => honce k (Nat.le_succ_of_le hk)]
    exact timerUpdate_inStepAfter hon hpending htima (honce _ (Nat.le_refl _))

/-- Without an edge nothing counts: the disabled timer with its memory at 0 (R442). -/
theorem timerUpdate_disabled (hoff : t.tac.getLsbD 2 = false) (hmemo : t.edgeMemo = false)
    (hpending : t.pendingOverflow = false) : timerUpdate 4 t = { t with divCounter := t.divCounter + 4 } := by
  have hsignal : timerSignal { t with divCounter := t.divCounter + 4 } = false := by
    rw [timerSignal_advanced, hoff, Bool.and_false]
  rw [timerUpdate_eq, hsignal]
  simp [hmemo, hpending]

theorem ticks_disabled {s : State} (n : Nat) (hoff : s.timer.tac.getLsbD 2 = false) (hmemo : s.timer.edgeMemo = false)
    (hpending : s.timer.pendingOverflow = false) :
    (ticks n s).timer = { s.timer with divCounter := (ticks n s).timer.divCounter } := by
  induction n with
  | zero => rfl
  | succ n ih =>
    rw [ticks_succ', tick_timer, timerUpdate_disabled] <;> rw [ih]
    all_goals assumption

end InStep

/-- TAC bit 2, the enable (R39). -/
theorem getLsbD_two_ofNat (n : Nat) : (BitVec.ofNat 3 n).getLsbD 2 = decide (n / 4 % 2 = 1) := by
  rw [BitVec.getLsbD_ofNat, Nat.testBit_eq_decide_div_mod_eq]
  rfl

/-- The cycle after a write to TAC checks for an edge by the new TAC (R447). -/
theorem timerUpdate_afterTac {t : Timer} (v : Byte) (hpending : t.pendingOverflow = false) :
    (let signal := decide ((t.divCounter.toNat + 4) / 2 ^ counterBit v.toNat % 2 = 1 ∧ v.toNat / 4 % 2 = 1)
     (timerUpdate 4 (timerWrite t 0xFF07#16 v)).edgeMemo = signal ∧
     (timerUpdate 4 (timerWrite t 0xFF07#16 v)).tima =
       if t.edgeMemo = true ∧ signal = false then BitVec.ofNat 8 (t.tima.toNat + 1) else t.tima) := by
  have hselect : counterBit (BitVec.ofNat 3 v.toNat).toNat = counterBit v.toNat := by
    rw [BitVec.toNat_ofNat]
    exact counterBit_mod _
  rw [timerWrite_tac, timerUpdate_number]
  dsimp only
  rw [hselect, getLsbD_two_ofNat, hpending, Bool.decide_and]
  exact ⟨rfl, by simp only [Bool.and_eq_true, Bool.not_eq_true', Bool.false_eq_true, if_false]⟩

/-- Settles O46: in step, out of step after a write to TAC, and without an edge. -/
theorem timerPeriod : Obligations.TimerPeriod := by
  unfold Obligations.TimerPeriod
  intro s
  refine ⟨fun hon hmemo hpending htima => ?_,
    fun v hpending => ⟨_, rfl, timerWrite_tac _ _, timerUpdate_afterTac v hpending⟩, fun n hoff hmemo hpending => ?_⟩
  · intro cycles
    have hperiod : 4 * cycles = 2 ^ (timerBit s.timer.tac + 1) := by
      have hselect : s.timer.tac.toNat % 4 = 0 ∨ s.timer.tac.toNat % 4 = 1 ∨ s.timer.tac.toNat % 4 = 2 ∨
          s.timer.tac.toNat % 4 = 3 := by omega
      unfold timerBit cycles
      obtain h | h | h | h := hselect <;> rw [h] <;> rfl
    obtain ⟨hone, honce⟩ := countsIn_period hperiod
    rw [ticks_inStep hon hmemo hpending htima honce, inStepAfter, hone]
  · rw [ticks_disabled n hoff hmemo hpending]
    exact ⟨rfl, hpending⟩

end Sys2Proof.Machine
end

section
/-! PROOFS. The joypad (O43): P1 as a read of its latch, key presses and releases, and the interrupt of a falling line
(R480 to R482). -/

namespace Sys2Proof.Machine

/-! ### P1 (R481) -/

theorem extract_selects (v : Byte) : v.extractLsb' 4 2 = BitVec.ofNat 2 (v.toNat / 16) := by
  apply BitVec.eq_of_toNat_eq
  simp [Nat.shiftRight_eq_div_pow]

/-- A group drives the line of a key low exactly while the key is down. -/
theorem groupNibble_bit (g : KeyGroup) {j : Nat} (hj : j < 4) : (groupNibble g).getLsbD j = !keyDown g j := by
  simp only [groupNibble, BitVec.getLsbD_append]
  interval_cases j <;> simp [keyDown]

theorem joypadLow_bit (p : Joypad) {j : Nat} (hj : j < 4) : (joypadLow p).getLsbD j =
    ((p.select.getLsbD 0 || !keyDown p.cross j) && (p.select.getLsbD 1 || !keyDown p.buttons j)) := by
  have hones : (0xF#4).getLsbD j = true := by interval_cases j <;> rfl
  rw [joypadLow, BitVec.getLsbD_and]
  cases p.select.getLsbD 0 <;> cases p.select.getLsbD 1 <;> simp only [hones, groupNibble_bit _ hj, Bool.false_eq_true,
    if_true, if_false, Bool.true_or, Bool.false_or]

/-- P1's low nibble is the lines. -/
theorem joypadRead_bit_low (p : Joypad) {j : Nat} (hj : j < 4) :
    (joypadRead p).getLsbD j = (joypadLow p).getLsbD j := by
  rw [joypadRead, BitVec.getLsbD_append, if_pos hj]

/-- P1's high nibble is two ones and the selects. -/
theorem joypadRead_bits_high (p : Joypad) :
    (joypadRead p).getLsbD 7 = true ∧ (joypadRead p).getLsbD 6 = true ∧
    (joypadRead p).getLsbD 5 = p.select.getLsbD 1 ∧ (joypadRead p).getLsbD 4 = p.select.getLsbD 0 := by
  simp only [joypadRead, BitVec.getLsbD_append]
  exact ⟨rfl, rfl, rfl, rfl⟩

/-- A line reads 0 exactly if a pressed key of a selected group drives it. -/
theorem joypadRead_bit_eq_false_iff (p : Joypad) {j : Nat} (hj : j < 4) : (joypadRead p).getLsbD j = false ↔
    p.select.getLsbD 0 = false ∧ keyDown p.cross j = true ∨
      p.select.getLsbD 1 = false ∧ keyDown p.buttons j = true := by
  rw [joypadRead_bit_low p hj, joypadLow_bit p hj]
  simp only [Bool.and_eq_false_iff, Bool.or_eq_false_iff, Bool.not_eq_false']

/-! ### Keys (R482) -/

theorem keyDown_setKey (g : KeyGroup) {i j : Nat} (hi : i < 4) (hj : j < 4) (down : Bool) :
    keyDown (setKey g i down) j = if j = i then down else keyDown g j := by
  interval_cases i <;> interval_cases j <;> rfl

theorem crossBit_lt (k : CrossKey) : crossBit k < 4 := by cases k <;> decide

theorem buttonBit_lt (k : ButtonKey) : buttonBit k < 4 := by cases k <;> decide

theorem keyDown_setKey_true (g : KeyGroup) {i j : Nat} (hi : i < 4) (hj : j < 4) :
    keyDown (setKey g i true) j = (keyDown g j || decide (j = i)) := by
  rw [keyDown_setKey g hi hj]
  split <;> simp [*]

theorem keyDown_setKey_false (g : KeyGroup) {i j : Nat} (hi : i < 4) (hj : j < 4) :
    keyDown (setKey g i false) j = (keyDown g j && decide (j ≠ i)) := by
  rw [keyDown_setKey g hi hj]
  split <;> simp [*]

/-- Of two readings of P1 with the same selects, the lines alone can differ. -/
theorem fallenLines (sel : BitVec 2) (before after : BitVec 4) :
    (3#2 ++ sel ++ before) &&& ~~~(3#2 ++ sel ++ after) &&& 0x0F#8 = 0#4 ++ (before &&& ~~~after) := by
  revert sel before after
  decide

/-- `lineFell` as P1 shows it. -/
theorem lineFell_eq_false_iff {p q : Joypad} (hsel : q.select = p.select) :
    lineFell (joypadLow p) (joypadLow q) = false ↔ joypadRead p &&& ~~~joypadRead q &&& 0x0F#8 = 0 := by
  rw [joypadRead, joypadRead, hsel, fallenLines]
  have hzero (x : BitVec 4) : (x != 0#4) = false ↔ 0#4 ++ x = 0#8 := by
    revert x
    decide
  exact hzero _

/-- A press latches the keys and raises the joypad interrupt where a line of P1 falls. -/
theorem latchPress_eq {s : State} {q : Joypad} (hsel : q.select = s.joypad.select) : latchPress q s =
    { s with
      joypad := { s.joypad with cross := q.cross, buttons := q.buttons }
      intr := { s.intr with
        ifReg := if joypadRead s.joypad &&& ~~~joypadRead q &&& 0x0F#8 = 0 then s.intr.ifReg
          else s.intr.ifReg ||| 0x10#5 } } := by
  have hq : q = { s.joypad with cross := q.cross, buttons := q.buttons } := by
    simp only [← hsel]
  rw [latchPress, ← hq]
  simp only [← lineFell_eq_false_iff hsel]
  cases lineFell (joypadLow s.joypad) (joypadLow q) <;> rfl

/-- Settles O43: P1 bit by bit, then a press as `latchPress` of the group with its key set. -/
theorem joypad : Obligations.Joypad := by
  unfold Obligations.Joypad
  intro s k g
  refine ⟨?_, fun v => ⟨_, rfl, ?_⟩, fun t ht => ?_, fun j hj => ?_, rfl, rfl⟩
  · obtain ⟨h7, h6, h5, h4⟩ := joypadRead_bits_high s.joypad
    exact ⟨_, rfl, h7, h6, h5, h4, fun j => joypadRead_bit_eq_false_iff s.joypad⟩
  · rw [← extract_selects]
    rfl
  · refine ⟨_, _, rfl, rfl, ?_⟩
    obtain rfl | rfl := ht
    · exact latchPress_eq rfl
    · exact latchPress_eq rfl
  · exact ⟨keyDown_setKey_true _ (crossBit_lt k) hj, rfl, keyDown_setKey_true _ (buttonBit_lt g) hj, rfl,
      keyDown_setKey_false _ (crossBit_lt k) hj, keyDown_setKey_false _ (buttonBit_lt g) hj⟩

end Sys2Proof.Machine
end

section
/-! PROOFS. One clock of the display-on PPU (O47): the parts of R460 put together, and the requests they raise (R460 to
R467). -/

namespace Sys2Proof.Machine

/-! ### What a clock fires and writes, `statFired` being empty at the start of a line -/

/-- The clock enters mode 0 with its source enabled and not yet fired (R461, R465). -/
def firesHblank (p : Ppu) : Bool :=
  decide (p.line < 144 ∧ p.lineClock = 252 + p.mode3Scx.toNat ∧ p.mode ≠ .hblank) &&
    p.statEnables.getLsbD 0 && !p.statFired.m0

/-- The clock enters mode 1 with its source enabled (R465, R467). -/
def firesVblank (p : Ppu) : Bool :=
  decide (p.line = 144 ∧ p.lineClock = 0 ∧ p.mode ≠ .vblank) && p.statEnables.getLsbD 1

/-- The clock enters mode 2 of a visible line with its source enabled (R461, R465). -/
def firesOamRead (p : Ppu) : Bool :=
  decide (p.line < 144 ∧ p.lineClock = 0 ∧ p.mode ≠ .oamRead) && p.statEnables.getLsbD 2

/-- The PPU after a clock's events, its pixel buffer being `pixels` (R461, R465, R467). -/
def afterEvents (p : Ppu) (pixels : Store 2) : Ppu :=
  { p with
    mode :=
      if p.line = 144 ∧ p.lineClock = 0 then .vblank
      else if 144 ≤ p.line then p.mode
      else if p.lineClock = 0 then .oamRead
      else if p.lineClock = 80 then .vramRead
      else if p.lineClock = 252 + p.mode3Scx.toNat then .hblank
      else p.mode
    mode3Scx := if p.line < 144 ∧ p.lineClock = 80 then BitVec.ofNat 3 p.scx.toNat else p.mode3Scx
    endOfFrame := p.endOfFrame || decide (p.line = 144 ∧ p.lineClock = 0)
    statFired := { p.statFired with
      m0 := p.statFired.m0 || firesHblank p
      m1 := p.statFired.m1 || firesVblank p
      m2 := p.statFired.m2 || firesOamRead p }
    pixels := pixels }

/-- IF after a clock's events. -/
def requestsOfEvents (p : Ppu) (f : BitVec 5) : BitVec 5 :=
  let g := if firesHblank p || firesVblank p || firesOamRead p then requestInterrupt 1 f else f
  if p.line = 144 ∧ p.lineClock = 0 then requestInterrupt 0 g else g

/-- LY as a clock compares it with LYC: 0 from clock `ly0At` of line 153 (R463). -/
def comparedLy (ly0At : Nat) (p : Ppu) : Byte := if p.line = 153 ∧ p.lineClock = ly0At then 0#8 else p.ly

/-- LY comes to equal LYC with the source enabled and not yet fired on this line (R464, R465). -/
def firesLyc (ly0At : Nat) (p : Ppu) : Bool :=
  decide (comparedLy ly0At p = p.lyc) && !p.coincidence && p.statEnables.getLsbD 3 && !p.statFired.lyc

/-- The line after a clock (R462). -/
def nextLine (p : Ppu) : Nat := if p.lineClock = 455 then (p.line + 1) % 154 else p.line

/-- The PPU after a clock with the display on, its pixel buffer being `pixels`. -/
def afterOnClock (ly0At : Nat) (p : Ppu) (pixels : Store 2) : Ppu :=
  { afterEvents p pixels with
    coincidence := decide (comparedLy ly0At p = p.lyc)
    statFired := { (afterEvents p pixels).statFired with lyc := p.statFired.lyc || firesLyc ly0At p }
    lineClock := if p.lineClock = 455 then 0 else p.lineClock + 1
    line := nextLine p
    ly := if p.lineClock = 455 then BitVec.ofNat 8 (nextLine p) else comparedLy ly0At p }

/-- IF after a clock with the display on. -/
def requestsOnClock (ly0At : Nat) (p : Ppu) (f : BitVec 5) : BitVec 5 :=
  if firesLyc ly0At p then requestInterrupt 1 (requestsOfEvents p f) else requestsOfEvents p f

section OnClock

variable {ly0At : Nat} {p : Ppu} {f : BitVec 5}

theorem ppuTurnOn_of_on (hon : p.lcdWasOn = true) : ppuTurnOn p = p := if_pos hon

/-- The advance, the line at the end of a line being `nextLine` (R462). -/
theorem ppuAdvance_nextLine (p : Ppu) : ppuAdvance p =
    { p with
      lineClock := if p.lineClock = 455 then 0 else p.lineClock + 1
      line := nextLine p
      ly := if p.lineClock = 455 then BitVec.ofNat 8 (nextLine p) else p.ly } := by
  rw [ppuAdvance_eq, nextLine]
  split <;> rfl

/-- A clock with the display on is its events, the compare and the advance (R460). -/
theorem ppuOnClock_eq (ly0At : Nat) (f : BitVec 5) (hon : p.lcdWasOn = true) : ∃ pixels,
    ppuOnClock ly0At p f = (afterOnClock ly0At (ppuLineStart p) pixels, requestsOnClock ly0At (ppuLineStart p) f) := by
  have hempty := ppuLineStart_statFired p
  rw [ppuOnClock, ppuTurnOn_of_on hon]
  generalize ppuLineStart p = q at hempty ⊢
  obtain ⟨pixels, hevents⟩ : ∃ pixels, ppuLineEvents q f = (afterEvents q pixels, requestsOfEvents q f) :=
    ppuLineEvents_eq q f hempty
  refine ⟨pixels, ?_⟩
  have hlyc : coincidenceFires (ppuLine153 ly0At (afterEvents q pixels)) = firesLyc ly0At q := by
    rw [ppuLine153_eq]
    rfl
  rw [hevents]
  dsimp only
  rw [ppuCoincidence_eq, hlyc, ppuAdvance_nextLine, ppuLine153_eq]
  rfl

theorem ppuClock_of_lcdOn (hlcd : lcdOn p = true) : ppuClock ly0At p f = ppuOnClock ly0At p f := if_pos hlcd

theorem ppuClock_of_lcdOff (hlcd : lcdOn p = false) : ppuClock ly0At p f = (ppuOffClock p, f) := by
  rw [ppuClock, hlcd]
  rfl

/-- A request that is raised on a condition sets its bit alone (R401). -/
theorem request_bit (b : Bool) {i : Nat} (hi : i < 5) (f : BitVec 5) (j : Nat) :
    (if b then requestInterrupt i f else f).getLsbD j = (f.getLsbD j || (b && decide (j = i))) := by
  cases b <;> simp [requestInterrupt_bit, hi]

/-- The requests of a clock, bit by bit (R464, R465, R467). -/
theorem requestsOnClock_bit (ly0At : Nat) (p : Ppu) (f : BitVec 5) (j : Nat) :
    (requestsOnClock ly0At p f).getLsbD j = (f.getLsbD j ||
      (firesHblank p || firesVblank p || firesOamRead p) && decide (j = 1) ||
      decide (p.line = 144 ∧ p.lineClock = 0) && decide (j = 0) || firesLyc ly0At p && decide (j = 1)) := by
  have hvblank := request_bit (decide (p.line = 144 ∧ p.lineClock = 0)) (show 0 < 5 by decide)
  simp only [decide_eq_true_eq] at hvblank
  rw [requestsOnClock, request_bit _ (by decide), requestsOfEvents, hvblank, request_bit _ (by decide)]

/-! ### The start of a line -/

theorem ppuLineStart_eq (p : Ppu) : ppuLineStart p =
    { p with statFired :=
      { m0 := !decide (p.lineClock = 0) && p.statFired.m0
        m1 := !decide (p.lineClock = 0) && p.statFired.m1
        m2 := !decide (p.lineClock = 0) && p.statFired.m2
        lyc := !decide (p.lineClock = 0) && p.statFired.lyc } } := by
  unfold ppuLineStart
  split <;> rename_i h0 <;> simp [h0, StatFired.empty]

/-- Mode 0 is never entered at clock 0, so that emptying `statFired` there does not bear on it. -/
theorem firesHblank_lineStart (p : Ppu) : firesHblank (ppuLineStart p) = firesHblank p := by
  rw [ppuLineStart_eq]
  by_cases h0 : p.lineClock = 0
  · have hne : ¬p.lineClock = 252 + p.mode3Scx.toNat := by omega
    simp [firesHblank, hne]
  · simp [h0]

theorem firesLyc_lineStart (ly0At : Nat) (p : Ppu) : firesLyc ly0At (ppuLineStart p) =
    (decide (comparedLy ly0At p = p.lyc) && !p.coincidence && p.statEnables.getLsbD 3 &&
      (decide (p.lineClock = 0) || !p.statFired.lyc)) := by
  rw [ppuLineStart_eq, firesLyc, Bool.not_and, Bool.not_not]
  rfl

end OnClock

/-- Settles O47: off, nothing is requested; on, the clock is `ppuOnClock_eq`. -/
theorem ppuRequests : Obligations.PpuRequests := by
  unfold Obligations.PpuRequests
  intro ly0At p f
  refine ⟨fun hlcd => by rw [ppuClock_of_lcdOff hlcd], fun hlcd hon => ?_⟩
  obtain ⟨pixels, hclock⟩ := ppuOnClock_eq ly0At f hon
  rw [ppuClock_of_lcdOn hlcd, hclock]
  have hbit := requestsOnClock_bit ly0At (ppuLineStart p) f
  rw [firesHblank_lineStart, firesLyc_lineStart] at hbit
  dsimp only
  refine ⟨?_, ?_, ?_, ?_⟩
  · exact (hbit 0).trans (by simp [ppuLineStart_eq])
  · refine (hbit 1).trans ?_
    simp only [decide_true, Bool.and_true, one_ne_zero, decide_false, Bool.and_false, Bool.or_false, ← Bool.or_assoc,
      ppuLineStart_eq]
    rfl
  · intro j hj
    have h0 : j ≠ 0 := by omega
    have h1 : j ≠ 1 := by omega
    simpa [h0, h1] using hbit j
  · unfold afterOnClock afterEvents
    rw [firesHblank_lineStart, firesLyc_lineStart, ppuLineStart_eq]
    rfl

end Sys2Proof.Machine
end

section
/-! PROOFS. The scan over any number of clocks with the display on (O48), one clock of `ppuOnClock_eq` at a time (R460,
R462, R467). -/

namespace Sys2Proof.Machine

/-- The display is on and has been, at a point of the frame (R462). -/
structure Scanning (p : Ppu) : Prop where
  lcd : lcdOn p = true
  wasOn : p.lcdWasOn = true
  line : p.line < 154
  lineClock : p.lineClock < 456

theorem frameClock_lt {p : Ppu} (h : Scanning p) : frameClock p < 70224 := by
  have hline := h.line
  have hclock := h.lineClock
  unfold frameClock
  omega

theorem frameClock_eq_vblank_iff {p : Ppu} (h : Scanning p) :
    frameClock p = 65664 ↔ p.line = 144 ∧ p.lineClock = 0 := by
  have hclock := h.lineClock
  unfold frameClock
  omega

/-- A clock moves the scan one clock on, and ends the frame at clock 0 of line 144. -/
theorem scanning_ppuClock (ly0At : Nat) {p : Ppu} (f : BitVec 5) (h : Scanning p) :
    Scanning (ppuClock ly0At p f).1 ∧ frameClock (ppuClock ly0At p f).1 = (frameClock p + 1) % 70224 ∧
      (ppuClock ly0At p f).1.endOfFrame = (p.endOfFrame || decide (frameClock p = 65664)) := by
  have hports := ppuClock_ports ly0At p f
  obtain ⟨pixels, hclock⟩ := ppuOnClock_eq ly0At f h.wasOn
  rw [ppuClock_of_lcdOn h.lcd, hclock] at hports ⊢
  have hline := h.line
  have hlineClock := h.lineClock
  simp only [frameClock_eq_vblank_iff h]
  refine ⟨⟨?_, ?_, ?_, ?_⟩, ?_, ?_⟩
  · rw [lcdOn, hports.lcdc]
    exact h.lcd
  all_goals simp only [afterOnClock, afterEvents, frameClock, nextLine, ppuLineStart_eq]
  · exact h.wasOn
  · split <;> omega
  · split <;> omega
  · split <;> omega

/-- So do `n` clocks, the frame ending at each that starts VBLANK. -/
theorem scanning_ppuUpdate (ly0At n : Nat) {p : Ppu} (f : BitVec 5) (h : Scanning p) :
    Scanning (ppuUpdate ly0At n p f).1 ∧ frameClock (ppuUpdate ly0At n p f).1 = (frameClock p + n) % 70224 ∧
      ((ppuUpdate ly0At n p f).1.endOfFrame = true ↔
        p.endOfFrame = true ∨ ∃ m, m < n ∧ (frameClock p + m) % 70224 = 65664) := by
  have hmod := Nat.mod_eq_of_lt (frameClock_lt h)
  induction n generalizing p f with
  | zero =>
    rw [ppuUpdate, Nat.add_zero, hmod]
    exact ⟨h, rfl, by simp⟩
  | succ n ih =>
    obtain ⟨hnext, hclock, hend⟩ := scanning_ppuClock ly0At f h
    obtain ⟨hlast, hclock', hend'⟩ := ih (ppuClock ly0At p f).2 hnext (Nat.mod_eq_of_lt (frameClock_lt hnext))
    have hadd (m : Nat) : ((frameClock p + 1) % 70224 + m) % 70224 = (frameClock p + (m + 1)) % 70224 := by omega
    simp only [hclock, hadd, hend, Bool.or_eq_true, decide_eq_true_eq] at hclock' hend'
    refine ⟨hlast, hclock', hend'.trans ?_⟩
    rw [Nat.exists_lt_succ_left, Nat.add_zero, hmod, or_assoc]

/-- Settles O48: a scan of `n` clocks. -/
theorem frameTiming : Obligations.FrameTiming := by
  unfold Obligations.FrameTiming
  intro ly0At p f n hlcd hon hline hclock
  obtain ⟨⟨-, -, hline', hclock'⟩, hframe, hend⟩ := scanning_ppuUpdate ly0At n f ⟨hlcd, hon, hline, hclock⟩
  exact ⟨hline', hclock', hframe, hend⟩

end Sys2Proof.Machine
end

section
/-! PROOFS. The pixels of a clock (O50): a clock of a visible line writes the column of `resolveColumn`, and nothing
else draws (R468, R469). -/

namespace Sys2Proof.Machine

section Pixels

variable {p : Ppu} {f : BitVec 5} {ly0At : Nat}

theorem resolveColumn_of_outside
    (h : p.lineClock < 92 + p.mode3Scx.toNat ∨ 252 + p.mode3Scx.toNat ≤ p.lineClock) : resolveColumn p = p := by
  unfold resolveColumn firstColumnClock
  exact if_neg (by omega)

/-- The mode events before the column move neither the line clock nor a pixel. -/
theorem ppuEnterScan_point (p : Ppu) (f : BitVec 5) :
    (ppuEnterScan p f).1.lineClock = p.lineClock ∧ (ppuEnterScan p f).1.pixels = p.pixels := by
  have henter (m : PpuMode) (src : Option StatSource) :
      (enterMode m src p f).1.lineClock = p.lineClock ∧ (enterMode m src p f).1.pixels = p.pixels := by
    obtain ⟨-, -, hclock, -, -, -, -, -, -, hpixels⟩ := enterMode_scan m src p f
    exact ⟨hclock, hpixels⟩
  unfold ppuEnterScan
  split
  · exact henter _ _
  · split
    · exact henter _ _
    · exact ⟨rfl, rfl⟩

/-- Those events stand before the columns, so that the column resolved is that of the state before them. -/
theorem resolveColumn_enterScan (p : Ppu) (f : BitVec 5) :
    (resolveColumn (ppuEnterScan p f).1).pixels = (resolveColumn p).pixels := by
  by_cases hevent : p.lineClock = 0 ∨ p.lineClock = 80
  · obtain ⟨hclock, hpixels⟩ := ppuEnterScan_point p f
    rw [resolveColumn_of_outside (p := p) (by omega), resolveColumn_of_outside (by omega), hpixels]
  · have hnone : ppuEnterScan p f = (p, f) := by
      rw [ppuEnterScan, if_neg (by omega), if_neg (by omega)]
    rw [hnone]

/-- The pixels after the events of a visible line's clock. -/
theorem ppuLineEvents_column (hline : p.line < 144) : (ppuLineEvents p f).1.pixels = (resolveColumn p).pixels := by
  rw [ppuLineEvents, if_pos hline, ← resolveColumn_enterScan p f]
  dsimp only
  unfold ppuEnterHblank
  split
  · exact (enterMode_pixels ..).1
  · rfl

/-- The compare and the advance draw nothing. -/
theorem ppuOnClock_pixels (ly0At : Nat) (p : Ppu) (f : BitVec 5) :
    (ppuOnClock ly0At p f).1.pixels = (ppuLineEvents (ppuLineStart (ppuTurnOn p)) f).1.pixels := by
  rw [ppuOnClock]
  dsimp only
  rw [ppuAdvance_eq, ppuCoincidence_eq, ppuLine153_eq]

/-- `statFired` bears on no pixel. -/
theorem resolveColumn_lineStart (p : Ppu) : (resolveColumn (ppuLineStart p)).pixels = (resolveColumn p).pixels := by
  rw [ppuLineStart_eq, resolveColumn, resolveColumn, apply_ite Ppu.pixels, apply_ite Ppu.pixels]
  rfl

end Pixels

/-- The pixels after a clock of a visible line, the display having been on (R468). -/
theorem ppuClock_column {p : Ppu} (ly0At : Nat) (f : BitVec 5) (hlcd : lcdOn p = true) (hon : p.lcdWasOn = true)
    (hline : p.line < 144) : (ppuClock ly0At p f).1.pixels = (resolveColumn p).pixels := by
  have hline' : (ppuLineStart p).line < 144 := by
    rw [ppuLineStart_eq]
    exact hline
  rw [ppuClock_of_lcdOn hlcd, ppuOnClock_pixels, ppuTurnOn_of_on hon, ppuLineEvents_column hline',
    resolveColumn_lineStart]

/-! ### The background fetch (R469) -/

/-- The address of a tile by bit 7 of its index: below 0x9000 where it is set (R469). -/
theorem tileAddress_eq (p : Ppu) (idx : Byte) : tileAddress p idx =
    if p.lcdc.getLsbD 4 then 0x8000 + 16 * idx.toNat
    else if idx.getLsbD 7 then 0x8000 + 16 * idx.toNat else 0x9000 + 16 * idx.toNat := by
  have hlt := idx.isLt
  have hmsb : idx.msb = idx.getLsbD 7 := rfl
  unfold tileAddress
  rw [BitVec.toInt_eq_msb_cond, hmsb]
  split_ifs <;> omega

/-- A shade is the two bits of the palette that a colour's two bits select (R46). -/
theorem shade_eq (bgp : Byte) (high low : Nat) :
    shade bgp (high * 2 + low) = BitVec.ofNat 2 (bgp.toNat / 4 ^ (2 * high + low)) := by
  apply BitVec.eq_of_toNat_eq
  simp [shade, Nat.shiftRight_eq_div_pow, Nat.pow_mul, Nat.mul_comm high]

theorem toNat_getLsbD (v : Byte) (b : Nat) : (v.getLsbD b).toNat = v.toNat / 2 ^ b % 2 := Nat.toNat_testBit ..

/-- A write of one pixel is read back at its own place alone. -/
theorem pixelIndex_eq_iff {x y x' y' : Nat} (hy : y < 144) (hy' : y' < 144) :
    pixelIndex x' y' = pixelIndex x y ↔ (x', y') = (x, y) := by
  unfold pixelIndex
  simp only [Prod.mk.injEq]
  omega

/-- Settles O50: column `x` is the one that `resolveColumn` writes. -/
theorem columnSchedule : Obligations.ColumnSchedule := by
  unfold Obligations.ColumnSchedule
  intro ly0At p f x hx hlcd hon hline hstore
  have hpixels := ppuClock_column ly0At f hlcd hon hline
  dsimp only
  refine ⟨fun hmode hclock => ?_, fun houtside => by rw [hpixels, resolveColumn_of_outside houtside]⟩
  have hcolumn : (resolveColumn p).pixels = storeWrite p.pixels (pixelIndex x p.line) (bgPixel p x) := by
    have hx' : p.lineClock - firstColumnClock p = x := by
      unfold firstColumnClock
      omega
    rw [resolveColumn, if_pos ⟨hmode, by unfold firstColumnClock; omega, by unfold firstColumnClock; omega⟩, hx']
  unfold pixelAt
  rw [hpixels, hcolumn]
  refine ⟨?_, fun x' y' hy' hne => storeRead_storeWrite_ne _ _ ?_⟩
  · rw [storeRead_storeWrite_same _ _ hstore]
    unfold bgPixel vramByte
    simp only [tileAddress_eq, shade_eq, toNat_getLsbD]
    rfl
  · exact fun h => hne ((pixelIndex_eq_iff hline hy').mp h)

end Sys2Proof.Machine
end

section
/-! PROOFS. The display off, and its turning on (O49, R466): the fields that a clock with the display off writes, over
any number of such clocks; then `ppuOnClock_eq` at the scan's first point. -/

namespace Sys2Proof.Machine

/-! ### Off -/

theorem ppuUpdate_succ (ly0At n : Nat) (p : Ppu) (f : BitVec 5) : ppuUpdate ly0At (n + 1) p f =
    ppuClock ly0At (ppuUpdate ly0At n p f).1 (ppuUpdate ly0At n p f).2 := by
  induction n generalizing p f with
  | zero => rfl
  | succ n ih => exact ih _ _

/-- The scan stands, or will from the next clock with the display off on, where the display left it (R466). -/
def AtRest (p : Ppu) : Prop := p.lcdWasOn = true ∨ p.line = 0 ∧ p.lineClock = 0 ∧ p.ly = 0 ∧ p.mode = .hblank

/-- A clock with the display off puts the scan at rest, draws nothing and follows LYC. -/
theorem ppuOffClock_fields (p : Ppu) :
    (ppuOffClock p).pixels = p.pixels ∧ (ppuOffClock p).lcdWasOn = false ∧
    (ppuOffClock p).coincidence = decide ((ppuOffClock p).ly = p.lyc) ∧
    (AtRest p → (ppuOffClock p).line = 0 ∧ (ppuOffClock p).lineClock = 0 ∧ (ppuOffClock p).ly = 0 ∧
      (ppuOffClock p).mode = .hblank) := by
  unfold AtRest
  cases hon : p.lcdWasOn with
  | false => by_cases hlast : p.offClock + 1 = clocksPerFrame <;> simp [ppuOffClock, hon, hlast]
  | true => simp [ppuOffClock, hon, clocksPerFrame]

/-- `q` is `n` clocks with the display off after `p`. -/
structure OffAfter (p : Ppu) (n : Nat) (q : Ppu) : Prop where
  ports : SamePorts p q
  pixels : q.pixels = p.pixels
  frameClock : offFrameClock q = (offFrameClock p + n) % 70224
  endOfFrame : q.endOfFrame = (p.endOfFrame || decide (70224 ≤ offFrameClock p + n))
  rest : AtRest p → AtRest q
  wasOn : 0 < n → q.lcdWasOn = false
  coincidence : 0 < n → q.coincidence = decide (q.ly = p.lyc)

theorem ppuUpdate_off (ly0At : Nat) {p : Ppu} (f : BitVec 5) (hlcd : lcdOn p = false) (hoff : offFrameClock p < 70224)
    (n : Nat) : ∃ q, ppuUpdate ly0At n p f = (q, f) ∧ OffAfter p n q := by
  induction n with
  | zero =>
    refine ⟨p, rfl, .refl p, rfl, (Nat.mod_eq_of_lt hoff).symm, ?_, id, nofun, nofun⟩
    rw [decide_eq_false (by omega), Bool.or_false]
  | succ n ih =>
    obtain ⟨q, hq, h⟩ := ih
    have hlcd' : lcdOn q = false := by
      rw [lcdOn, h.ports.lcdc]
      exact hlcd
    obtain ⟨hpixels, hwasOn, hcoincidence, hrest⟩ := ppuOffClock_fields q
    obtain ⟨hend, hclock⟩ := ppuOffClock_frame q
    refine ⟨ppuOffClock q, ?_, h.ports.trans (ppuOffClock_ports q), hpixels.trans h.pixels, ?_, ?_,
      fun hp => .inr (hrest (h.rest hp)), fun _ => hwasOn, fun _ => ?_⟩
    · rw [ppuUpdate_succ, hq, ppuClock_of_lcdOff hlcd']
    · rw [hclock, h.frameClock, clocksPerFrame]
      split <;> omega
    · rw [hend, h.endOfFrame, h.frameClock, clocksPerFrame, Bool.or_assoc, ← Bool.decide_or]
      congr 1
      rw [decide_eq_decide]
      omega
    · rw [hcoincidence, h.ports.lyc]

/-! ### Turning on -/

/-- The scan's first point. -/
def firstPoint (p : Ppu) : Ppu :=
  { p with line := 0, lineClock := 0, ly := 0, mode := .oamRead, lcdWasOn := true, statFired := .empty }

theorem ppuLineStart_firstPoint (p : Ppu) : ppuLineStart (firstPoint p) = firstPoint p := if_pos rfl

/-- The clock that turns the display on is the one of the scan's first point (R466). -/
theorem ppuOnClock_of_off (ly0At : Nat) {p : Ppu} (f : BitVec 5) (hoff : p.lcdWasOn = false) :
    ppuOnClock ly0At p f = ppuOnClock ly0At (firstPoint p) f := by
  have hfirst : ppuTurnOn p = firstPoint p := by
    rw [ppuTurnOn, hoff]
    rfl
  rw [ppuOnClock, ppuOnClock, hfirst, ppuTurnOn_of_on rfl]

theorem resolveColumn_firstPoint (p : Ppu) : resolveColumn (firstPoint p) = firstPoint p :=
  resolveColumn_of_outside (.inl (show 0 < 92 + _ by omega))

/-- There it fires no source of a mode. -/
theorem fires_firstPoint (p : Ppu) : firesHblank (firstPoint p) = false ∧ firesVblank (firstPoint p) = false ∧
    firesOamRead (firstPoint p) = false := by
  have hclock : ¬(firstPoint p).lineClock = 252 + (firstPoint p).mode3Scx.toNat := by
    show ¬0 = _
    omega
  refine ⟨?_, rfl, ?_⟩
  · simp [firesHblank, hclock]
  · simp [firesOamRead, firstPoint]

theorem comparedLy_firstPoint (ly0At : Nat) (p : Ppu) : comparedLy ly0At (firstPoint p) = 0 := if_neg nofun

theorem firesLyc_firstPoint (ly0At : Nat) (p : Ppu) : firesLyc ly0At (firstPoint p) =
    (decide (p.lyc = 0) && !p.coincidence && p.statEnables.getLsbD 3) := by
  have hswap : decide (0 = p.lyc) = decide (p.lyc = 0) := decide_eq_decide.mpr eq_comm
  have hfired : (firstPoint p).statFired.lyc = false := rfl
  rw [firesLyc, comparedLy_firstPoint, hfired, Bool.not_false, Bool.and_true, ← hswap]
  rfl

/-- Settles O49: `n` clocks with the display off, the clock that turns it on, and reset. -/
theorem displayOff : Obligations.DisplayOff := by
  unfold Obligations.DisplayOff
  intro ly0At p f
  refine ⟨fun n hlcd hoff hpos => ?_, fun hlcd hoff => ?_, lcdOn_reset⟩
  · have hoff' : offFrameClock p < 70224 := by
      unfold offFrameClock
      split <;> omega
    obtain ⟨q, hq, h⟩ := ppuUpdate_off ly0At f hlcd hoff' n
    have hwasOn := h.wasOn hpos
    have hclock : offFrameClock q = q.offClock := by simp [offFrameClock, hwasOn]
    rw [ppuClocks, hq]
    refine ⟨rfl, h.pixels, hwasOn, fun hrest => ?_, h.coincidence hpos, hclock ▸ h.frameClock, h.endOfFrame⟩
    exact (h.rest hrest).resolve_left (by simp [hwasOn])
  · have hpixels := ppuClock_column (p := firstPoint p) ly0At f hlcd rfl (show 0 < 144 by decide)
    obtain ⟨pixels, hclock⟩ := ppuOnClock_eq (p := firstPoint p) ly0At f rfl
    obtain ⟨hm0, hm1, hm2⟩ := fires_firstPoint p
    rw [ppuClock_of_lcdOn (p := firstPoint p) hlcd] at hpixels
    rw [ppuClock_of_lcdOn hlcd, ppuOnClock_of_off ly0At f hoff]
    rw [hclock, ppuLineStart_firstPoint] at hpixels ⊢
    unfold afterOnClock requestsOnClock requestsOfEvents afterEvents
    rw [hm0, hm1, hm2, firesLyc_firstPoint, comparedLy_firstPoint]
    refine ⟨rfl, rfl, rfl, rfl, rfl, rfl, decide_eq_decide.mpr eq_comm, ?_, Bool.or_false _, rfl⟩
    rw [resolveColumn_firstPoint] at hpixels
    exact hpixels

end Sys2Proof.Machine
end
